-- ==== Sys2Proof/Word.lean ====
section
/-! DEFINITION. The word types of NTK-EC. -/

namespace Sys2Proof

/-- 8 bits: a symbol, a byte of a buffer, the operand `a` of a command (00_scope.md R12). -/
abbrev Byte := BitVec 8

/-- 64 bits: the operand `d`, the result `RES`, the coder registers (30_encoding.md R80, R82; 10_state.md R36). -/
abbrev Word := BitVec 64

/-- The 80-bit command word `op[79:72] a[71:64] d[63:0]` (30_encoding.md R80). -/
abbrev CmdWord := BitVec 80

end Sys2Proof
end

