-- ==== Sys2Proof/Config.lean ====
section
/-! DEFINITION. What one build of the hardware fixes and the spec leaves open, and the one free value. -/

namespace Sys2Proof

/-- The parameters that 00_scope.md R8 leaves open.
They are fixed for one build of the hardware: State holds them and no command writes them (log 3). -/
structure Params where
  /-- `IN_CAP`: capacity of each input buffer in bytes; `none` is "unbounded" (R8, 20_memory.md R63). -/
  inCap : Option Nat
  /-- `OUT_CAP`: capacity of each output buffer in bytes; `none` is "unbounded". -/
  outCap : Option Nat
  /-- `AC_FLUSH_EXTRA`, 0 or 1: extra inverted bits written by `AC_ENC_FINISH` (45_ac_encoder.md R181, R182). -/
  acFlushExtra : Fin 2
  deriving DecidableEq, Repr

/-- A bounded capacity has a value in `1 .. 2^61 - 1` (00_scope.md R8). -/
def capWf (cap : Option Nat) : Bool :=
  match cap with
  | none => true
  | some c => 1 ≤ c && c ≤ 2 ^ 61 - 1

/-- The parameter values that 00_scope.md R8 admits. -/
def Params.wf (p : Params) : Bool := capWf p.inCap && capWf p.outCap

/-- Both capacities are finite: the case in which every bit count fits 64 bits (20_memory.md R63, 10_state.md R33). -/
def Params.bounded (p : Params) : Bool := p.inCap.isSome && p.outCap.isSome

/-- The build that `State.reset` stands for: the largest finite capacities and the literal finish.
DESIGN CHOICE (log 3): 00_scope.md R8 leaves the capacities open and gives 0 as the default of `AC_FLUSH_EXTRA`. -/
def Params.default : Params :=
  { inCap := some (2 ^ 61 - 1), outCap := some (2 ^ 61 - 1), acFlushExtra := 0 }

/-- FREE VALUE (log 6): what a 64-bit register or result holds for a byte or bit count of `2^64` or more.
Such a count needs an unbounded capacity; 10_state.md R33 then states no value. -/
opaque Config.unstatedCount : Nat → Word

end Sys2Proof
end

