-- ==== Sys2Proof/Machine/State.lean ====
section
/-! DEFINITION. The state of NTK-EC as plain data, its value after reset, and the reasons a step can stop. -/

namespace Sys2Proof.Machine

/-- The two engines (00_scope.md R9). -/
inductive Engine where
  | huf
  | ac
  deriving DecidableEq, Repr

/-- The status codes of 60_exceptions.md R226, all 13 of them. -/
inductive Status where
  | ok
  /-- assigned, raised by no command (R243) -/
  | emptyInput
  | invalidArchive
  | symbolNotFound
  | corruptHuffmanTree
  | decodeDesync
  | badModel
  | counterOverflow
  | bufferFull
  | illegalCommand
  | badOperand
  | sequenceError
  | faulted
  deriving DecidableEq, Repr

/-- One response word: `status` and `RES` (30_encoding.md R82). -/
structure Response where
  status : Status
  res : Word
  deriving DecidableEq, Repr

/-- What the host can do to the block between two steps: present a command word at the command port
(30_encoding.md R80), or apply hardware reset (70_reset_and_hazards.md R250, R251). -/
inductive HostEvent where
  | command (w : CmdWord)
  | hardwareReset
  deriving DecidableEq, Repr

/-- `H_MODE`, the phase of the Huffman engine: the five values of 10_state.md R24 (values 5 to 7 are never written). -/
inductive HufMode where
  | freq
  | tree
  | ready
  | enc
  | dec
  deriving DecidableEq, Repr

/-- `A_MODE`, the phase of the arithmetic-coder engine: the four values of 10_state.md R35. -/
inductive AcMode where
  | idle
  | enc
  | done
  | dec
  deriving DecidableEq, Repr

/-- One entry of the node arena `H_NODE` (10_state.md R27). -/
structure HufNode where
  /-- `V`: the entry is a node of the current tree -/
  v : Bool
  /-- `LEAF` -/
  leaf : Bool
  /-- `LEFT`: index of the child on edge "0" -/
  left : BitVec 9
  /-- `RIGHT`: index of the child on edge "1" -/
  right : BitVec 9
  /-- `W`: weight -/
  w : BitVec 40
  deriving DecidableEq, Repr

/-- An entry with all fields 0 (10_state.md R27, R48). -/
def HufNode.zero : HufNode := { v := false, leaf := false, left := 0, right := 0, w := 0 }

/-- A bit packer: `ACC` holds the `N` bits collected since the last complete byte in its low bits (10_state.md R30, R40). -/
structure Packer where
  acc : Byte
  n : BitVec 3
  deriving DecidableEq, Repr

/-- An empty packer. -/
def Packer.empty : Packer := { acc := 0, n := 0 }

/-- The code table: `H_CLEN` and `H_CBITS` (10_state.md R29).
Bit `i` of a code, counted from 0 first bit first, is bit `254 - i` of its `cbits` entry. -/
structure CodeTable where
  clen : Vector (BitVec 8) 256
  cbits : Vector (BitVec 255) 256
  deriving DecidableEq, Repr

/-- The code table with no code. -/
def CodeTable.empty : CodeTable :=
  { clen := Vector.replicate 256 0, cbits := Vector.replicate 256 0 }

/-- The Huffman engine (10_state.md R24 to R33). -/
structure HufState where
  /-- `H_MODE` -/
  mode : HufMode
  /-- `H_FAULT`: 0, or the code of the latched fault (R25) -/
  fault : BitVec 8
  /-- `H_FREQ` (R26) -/
  freq : Vector (BitVec 32) 256
  /-- `H_NODE` (R27) -/
  node : Vector HufNode 511
  /-- `H_ROOT` (R28) -/
  root : BitVec 9
  /-- `H_NINT` (R28) -/
  nint : BitVec 8
  /-- `H_CLEN` and `H_CBITS` (R29) -/
  code : CodeTable
  /-- `H_PK_ACC` and `H_PK_N` (R30) -/
  pk : Packer
  /-- `H_OBUF` (R31) -/
  obuf : List Byte
  /-- `H_IBUF` (R32) -/
  ibuf : List Byte
  /-- `H_NBITS` (R33) -/
  nbits : Word
  /-- `H_CUR` (R33) -/
  cur : Word
  deriving DecidableEq, Repr

/-- The arithmetic-coder engine (10_state.md R35 to R45). -/
structure AcState where
  /-- `A_MODE` -/
  mode : AcMode
  /-- `A_FAULT`: 0, or the code of the latched fault (R35) -/
  fault : BitVec 8
  /-- `A_LOW` (R36) -/
  low : Word
  /-- `A_HIGH` (R36) -/
  high : Word
  /-- `A_PENDING` (R37) -/
  pending : Word
  /-- `A_VALUE` (R38) -/
  value : Word
  /-- `A_CNT` (R39) -/
  cnt : Vector (BitVec 32) 256
  /-- `A_TOTAL` (R39) -/
  total : BitVec 40
  /-- `A_PK_ACC` and `A_PK_N` (R40) -/
  pk : Packer
  /-- `A_OBUF` (R41) -/
  obuf : List Byte
  /-- `A_IBUF` (R42) -/
  ibuf : List Byte
  /-- `A_NSYM` (R43) -/
  nsym : Word
  /-- `A_REMAIN` (R44) -/
  remain : Word
  /-- `A_CUR` (R45) -/
  cur : Word
  deriving DecidableEq, Repr

/-- The whole machine: the two engines (10_state.md R20: a model of the block is a pair `(HufState, AcState)`) and, the
model's own, the interface to the host and the build's parameters. -/
structure State where
  huf : HufState
  ac : AcState
  /-- what the host is about to present, first element first (log 1) -/
  port : List HostEvent
  /-- the response words produced so far, newest first (log 2) -/
  responses : List Response
  /-- the open parameters of this build (log 3); no command writes them -/
  params : Params
  deriving DecidableEq, Repr

/-- Why a step stops. The spec stops the block on no command word (40_block_control.md R101); these two name states that no
command sequence produces, in which the spec's pseudocode has no result. -/
inductive Fault where
  /-- Raised by `HUF_GENCODES`, `HUF_DEC_SYM` and `HUF_DEC_ALL` where the tree or the cursor breaks 10_state.md R34 so that
  the walk of R118 or R150 has no result (an unending walk, an index that is no entry, a leaf that is no byte, a code bit
  outside the buffer). Safe: the model stops where the spec says nothing (log 7). -/
  | brokenHufState
  /-- Raised by `AC_ENC_SYM`, `AC_ENC_FINISH` and `AC_DEC_SYM` where the coder registers break 10_state.md R46 so that the
  rule has no result (an empty interval, an archive with no header to overwrite).
  Safe: the model stops where the spec says nothing (log 8). -/
  | brokenAcState
  deriving DecidableEq, Repr

/-- Why an instruction has no meaning in the model. -/
inductive Refusal where
  /-- Raised by no arm: every command of the opcode table has its meaning. Safe. -/
  | notModelled (mnemonic : String)
  deriving DecidableEq, Repr

/-- The reset values of the Huffman engine (10_state.md R48). -/
def HufState.reset : HufState :=
  { mode := .freq
    fault := 0
    freq := Vector.replicate 256 0
    node := Vector.replicate 511 HufNode.zero
    root := 0
    nint := 0
    code := CodeTable.empty
    pk := Packer.empty
    obuf := []
    ibuf := []
    nbits := 0
    cur := 0 }

/-- The reset values of the arithmetic-coder engine (10_state.md R48). -/
def AcState.reset : AcState :=
  { mode := .idle
    fault := 0
    low := 0
    high := 0xFFFFFFFFFFFFFFFF
    pending := 0
    value := 0
    cnt := Vector.replicate 256 1
    total := 256
    pk := Packer.empty
    obuf := []
    ibuf := []
    nsym := 0
    remain := 0
    cur := 0 }

/-- A build with parameters `p` right after hardware reset, the host having presented nothing. -/
def State.resetOf (p : Params) : State :=
  { huf := HufState.reset, ac := AcState.reset, port := [], responses := [], params := p }

/-- The machine right after reset (10_state.md R48, 70_reset_and_hazards.md R250), for the build of `Params.default` (log 3). -/
def State.reset : State := State.resetOf Params.default

end Sys2Proof.Machine
end

