-- ==== Sys2Proof/Machine/Flags.lean ====
section
/-! DEFINITION. Status-like values: the numbers of modes and status codes, the response word, the `STATUS` read, the
fault outputs, the end-of-stream marker. The block has no condition codes (10_state.md R23). -/

namespace Sys2Proof.Machine

/-- The code of a status (60_exceptions.md R226). -/
def statusCode : Status → BitVec 8
  | .ok => 0x00
  | .emptyInput => 0x01
  | .invalidArchive => 0x02
  | .symbolNotFound => 0x03
  | .corruptHuffmanTree => 0x04
  | .decodeDesync => 0x05
  | .badModel => 0x06
  | .counterOverflow => 0x07
  | .bufferFull => 0x08
  | .illegalCommand => 0x10
  | .badOperand => 0x11
  | .sequenceError => 0x12
  | .faulted => 0x13

/-- The status is a fault (60_exceptions.md R226, column "Kind"). -/
def isFaultStatus : Status → Bool
  | .emptyInput | .invalidArchive | .symbolNotFound | .corruptHuffmanTree | .decodeDesync | .badModel
  | .counterOverflow | .bufferFull => true
  | .ok | .illegalCommand | .badOperand | .sequenceError | .faulted => false

/-- The status is a refusal (60_exceptions.md R226, column "Kind"). -/
def isRefusalStatus : Status → Bool
  | .illegalCommand | .badOperand | .sequenceError | .faulted => true
  | .ok | .emptyInput | .invalidArchive | .symbolNotFound | .corruptHuffmanTree | .decodeDesync | .badModel
  | .counterOverflow | .bufferFull => false

/-- The 72-bit response word: `status` in bits 71:64, `RES` in bits 63:0 (30_encoding.md R82). -/
def responseWord (r : Response) : BitVec 72 := statusCode r.status ++ r.res

/-- The value of `H_MODE` (10_state.md R24). -/
def hufModeCode : HufMode → BitVec 3
  | .freq => 0
  | .tree => 1
  | .ready => 2
  | .enc => 3
  | .dec => 4

/-- The value of `A_MODE` (10_state.md R35). -/
def acModeCode : AcMode → BitVec 2
  | .idle => 0
  | .enc => 1
  | .done => 2
  | .dec => 3

/-- `HUF_RD 0`: bits 2:0 are `H_MODE`, bits 15:8 are `H_FAULT` (43_huffman_unpacker.md R158). -/
def hufStatusWord (h : HufState) : Word := (h.fault ++ (0 : BitVec 5) ++ hufModeCode h.mode).setWidth 64

/-- `AC_RD 0`: bits 1:0 are `A_MODE`, bits 15:8 are `A_FAULT` (47_ac_decoder.md R218). -/
def acStatusWord (c : AcState) : Word := (c.fault ++ (0 : BitVec 6) ++ acModeCode c.mode).setWidth 64

/-- The output `H_FAULT_O` (60_exceptions.md R234). -/
def hFaultO (s : State) : Bool := s.huf.fault != 0

/-- The output `A_FAULT_O` (60_exceptions.md R234). -/
def aFaultO (s : State) : Bool := s.ac.fault != 0

/-- The end-of-stream marker of `HUF_DEC_SYM` and `AC_DEC_SYM` (30_encoding.md R83). -/
def endMarker : Word := 0x100

end Sys2Proof.Machine
end

