-- ==== Sys2Proof/Machine/Ops.lean ====
section
/-! DEFINITION. The shared operations: answering, refusing, taking a fault and leaving it, the checks common to all
commands, the fixed tables, the buffers and the bits in them, the bit packer. -/

namespace Sys2Proof.Machine

/-- What processing a command answers. -/
abbrev Result := Host.Outcome State Fault Refusal

/-! ### State updates -/

/-- The state with another Huffman engine. -/
def State.setHuf (s : State) (h : HufState) : State := { s with huf := h }

/-- The state with another arithmetic-coder engine. -/
def State.setAc (s : State) (c : AcState) : State := { s with ac := c }

/-- The state with one more response word (30_encoding.md R82: one response for each command). -/
def State.respond (s : State) (st : Status) (res : Word) : State :=
  { s with responses := { status := st, res := res } :: s.responses }

/-- The fault latch of an engine (10_state.md R25, R35). -/
def faultLatch (e : Engine) (s : State) : BitVec 8 :=
  match e with
  | .huf => s.huf.fault
  | .ac => s.ac.fault

/-! ### Outcomes of a command -/

/-- `return v`: the command ends with status `OK` and `RES = v` (00_scope.md R14). -/
def answer (s : State) (v : Word) : Result := .next (s.respond .ok v)

/-- `refuse code`: no state change, the response carries the code and `RES = 0` (60_exceptions.md R228). -/
def refuse (s : State) (code : Status) : Result := .next (s.respond code 0)

/-- `raise code` in a command of engine `e`: taking a fault (60_exceptions.md R229).
The engine's latch gets the code, its mode and everything else stay, the response carries the code and `RES = 0`.
`s` is the state before the command, so no effect of the command survives. -/
def raiseFault (e : Engine) (s : State) (code : Status) : Result :=
  match e with
  | .huf => .next ((s.setHuf { s.huf with fault := statusCode code }).respond code 0)
  | .ac => .next ((s.setAc { s.ac with fault := statusCode code }).respond code 0)

/-- Reset of one engine: every piece of its state gets its reset value (10_state.md R48).
It is the only way out of a latched fault (60_exceptions.md R232). -/
def resetEngine (e : Engine) (s : State) : State :=
  match e with
  | .huf => s.setHuf HufState.reset
  | .ac => s.setAc AcState.reset

/-- Hardware reset: both engines (70_reset_and_hazards.md R250). It is no command and produces no response (R251). -/
def hardwareReset (s : State) : State := resetEngine .ac (resetEngine .huf s)

/-- A command word whose `op` is not assigned (30_encoding.md R86, 60_exceptions.md R231 step 1). -/
def illegalCommand (s : State) : Result := refuse s .illegalCommand

/-! ### The checks common to all commands (40_block_control.md R100, 60_exceptions.md R231) -/

/-- Step 2: the static operand check. -/
def checkOperands (operandsOk : Bool) (s : State) (k : Result) : Result :=
  if operandsOk then k else refuse s .badOperand

/-- Steps 2, 4 and 5 for a command of engine `e`: static operands, the fault latch, the mode, in this order. -/
def engineCommand (e : Engine) (operandsOk modeOk : Bool) (s : State) (k : Result) : Result :=
  checkOperands operandsOk s <|
    if faultLatch e s != 0 then refuse s .faulted
    else if !modeOk then refuse s .sequenceError
    else k

/-! ### Fixed tables of 256 entries (20_memory.md R60, R71: one whole entry at an entry index) -/

/-- `T[b]`. -/
def tableRead {α : Type} (t : Vector α 256) (b : Byte) : α := t[b.toNat]'b.isLt

/-- `T[b] <- x`. -/
def tableWrite {α : Type} (t : Vector α 256) (b : Byte) (x : α) : Vector α 256 := t.set b.toNat x b.isLt

/-! ### Buffers (20_memory.md R62, R63) -/

/-- There is room for a buffer of `n` bytes in a capacity: an append that would make the buffer longer than its
capacity does not fit (R63). -/
def fitsCap (cap : Option Nat) (n : Nat) : Bool :=
  match cap with
  | none => true
  | some c => n ≤ c

/-- `B ++ bytes`, or `none` where that is longer than the capacity (`BufferFull`). -/
def appendBytes (cap : Option Nat) (buf bytes : List Byte) : Option (List Byte) :=
  if fitsCap cap (buf.length + bytes.length) then some (buf ++ bytes) else none

/-- A byte or bit count in a 64-bit register or result. A count of `2^64` or more, possible only with an unbounded
capacity, is a free value (log 6). -/
def count64 (n : Nat) : Word := if n < 2 ^ 64 then BitVec.ofNat 64 n else Config.unstatedCount n

/-! ### Bits and bytes -/

/-- The number whose binary digits are `bits`, first bit most significant. -/
def bitsToNat (bits : List Bool) : Nat := bits.foldl (fun n b => 2 * n + b.toNat) 0

/-- Bit `k` of a byte sequence, most significant bit of each byte first (20_memory.md R65); `none` beyond its end. -/
def bitAt (buf : List Byte) (k : Nat) : Option Bool :=
  (buf[k / 8]?).map fun b => b.getLsbD (7 - k % 8)

/-- `abit(k)`: bit `k` of the bitstream that follows the 8-byte header in `A_IBUF`, 0 past its end (20_memory.md R67). -/
def abit (ibuf : List Byte) (k : Nat) : Bool := (bitAt ibuf (64 + k)).getD false

/-- `BE64`: the 8 bytes of a 64-bit number, most significant byte first (00_scope.md R12, 20_memory.md R68). -/
def be64 (n : Word) : List Byte := (List.range 8).map fun i => n.extractLsb' (8 * (7 - i)) 8

/-- `unBE64`: the number whose bytes, most significant first, are `bytes` (00_scope.md R12). -/
def unBe64 (bytes : List Byte) : Nat := bytes.foldl (fun n b => 256 * n + b.toNat) 0

/-! ### Codes (10_state.md R29) -/

/-- Bit `i` of the code of byte `b`, 0 at and beyond the code's length. -/
def codeBit (t : CodeTable) (b : Byte) (i : Nat) : Bool :=
  decide (i < (tableRead t.clen b).toNat) && (tableRead t.cbits b).getLsbD (254 - i)

/-- `code(b)`, first bit first: `H_CLEN[b]` bits of `H_CBITS[b]`. -/
def codeOf (t : CodeTable) (b : Byte) : List Bool :=
  (List.range (tableRead t.clen b).toNat).map fun i => (tableRead t.cbits b).getLsbD (254 - i)

/-- A bit string of at most 255 bits in a 255-bit register: bit `i` of the string is bit `254 - i`, unused bits 0. -/
def packCode (bits : List Bool) : BitVec 255 :=
  BitVec.ofNat 255 (bitsToNat bits * 2 ^ (255 - bits.length))

/-- `H_CLEN[b] <- length(code)`, `H_CBITS[b] <- code`. -/
def codeWrite (t : CodeTable) (b : Byte) (code : List Bool) : CodeTable :=
  { clen := tableWrite t.clen b (BitVec.ofNat 8 code.length)
    cbits := tableWrite t.cbits b (packCode code) }

/-! ### The bit packer (42_huffman_packer.md R130, R131) -/

/-- A packer together with the output buffer it writes to. -/
structure PackState where
  pk : Packer
  out : List Byte
  deriving DecidableEq, Repr

/-- `push_bit` (R130); `none` is `BufferFull`. -/
def pushBit (cap : Option Nat) (p : PackState) (b : Bool) : Option PackState :=
  let acc : Byte := (p.pk.acc <<< 1) ||| (BitVec.ofBool b).setWidth 8
  if p.pk.n.toNat + 1 = 8 then
    (appendBytes cap p.out [acc]).map fun out => { pk := Packer.empty, out := out }
  else
    some { pk := { acc := acc, n := BitVec.ofNat 3 (p.pk.n.toNat + 1) }, out := p.out }

/-- `push_bits`: the bits of a string, first to last (R130). -/
def pushBits (cap : Option Nat) (p : PackState) : List Bool → Option PackState
  | [] => some p
  | b :: bits =>
    match pushBit cap p b with
    | none => none
    | some p' => pushBits cap p' bits

/-- The number of padding bits that `flush` adds (R131). -/
def padCount (pk : Packer) : Nat := if pk.n = 0 then 0 else 8 - pk.n.toNat

/-- `flush` (R131): completes a partial byte with zero bits; `none` is `BufferFull`. -/
def flushPacker (cap : Option Nat) (p : PackState) : Option PackState :=
  if p.pk.n = 0 then some p
  else
    (appendBytes cap p.out [p.pk.acc <<< padCount p.pk]).map fun out => { pk := Packer.empty, out := out }

end Sys2Proof.Machine
end

