-- ==== Sys2Proof/Machine/Operands.lean ====
section
/-! DEFINITION. The operand forms of the commands (30_encoding.md R81, R84) and the read selectors of `HUF_RD` and
`AC_RD` (R85) with their legal modes, index ranges and results (43_huffman_unpacker.md R158, 47_ac_decoder.md R218). -/

namespace Sys2Proof.Machine

/-- The command uses neither operand: both fields are 0 (R81). -/
def usesNone (a : Byte) (d : Word) : Bool := a == 0 && d == 0

/-- The command uses `a` only: `d` is 0 (R81). -/
def usesByte (d : Word) : Bool := d == 0

/-- The command uses `a` and the low 32 bits of `d` (R81, R84). -/
def usesCount (d : Word) : Bool := d.toNat < 2 ^ 32

/-- The command uses the low 40 bits of `d` and not `a` (R81, R84). -/
def usesTotal (a : Byte) (d : Word) : Bool := a == 0 && decide (d.toNat < 2 ^ 40)

/-! ### `HUF_RD` (43_huffman_unpacker.md R158) -/

/-- The selectors of `HUF_RD`. -/
inductive HufSel where
  | status | freq | node | root | clen | cword | outLen | out | inLen | nbits | cur
  deriving DecidableEq, Repr

/-- The selector that `a` names; 11 to 255 name none (R85). -/
def hufSel (a : Byte) : Option HufSel :=
  match a with
  | 0#8 => some .status
  | 1#8 => some .freq
  | 2#8 => some .node
  | 3#8 => some .root
  | 4#8 => some .clen
  | 5#8 => some .cword
  | 6#8 => some .outLen
  | 7#8 => some .out
  | 8#8 => some .inLen
  | 9#8 => some .nbits
  | 10#8 => some .cur
  | _ => none

/-- The legal modes of a selector (R158). -/
def hufSelModeOk : HufSel → HufMode → Bool
  | .status, _ | .freq, _ | .inLen, _ => true
  | .node, m | .root, m => m != .freq
  | .clen, m | .cword, m => m == .ready || m == .enc || m == .dec
  | .outLen, m | .out, m => m == .ready
  | .nbits, m | .cur, m => m == .dec

/-- The range of the index `d` of a selector (R158). -/
def hufSelIndexOk (h : HufState) (d : Word) : HufSel → Bool
  | .freq | .clen => d.toNat < 256
  | .node => d.toNat < 511
  | .cword => d.toNat < 2 ^ 10
  | .out => d.toNat < h.obuf.length
  | .status | .root | .outLen | .inLen | .nbits | .cur => d == 0

/-- A node packed in 64 bits: bit 0 `V`, bit 1 `LEAF`, bits 10:2 `LEFT`, bits 19:11 `RIGHT`, bits 59:20 `W`;
0 when `V = 0` (R158). -/
def packNode (n : HufNode) : Word :=
  if n.v then (n.w ++ n.right ++ n.left ++ BitVec.ofBool n.leaf ++ BitVec.ofBool n.v).setWidth 64 else 0

/-- The 64 code bits `64 * k ..` of byte `b`: bit `63 - i` of the result is bit `64 * k + i` of `code(b)`, 0 at and
beyond its length; `b = d[7:0]`, `k = d[9:8]` (R158). -/
def codeWord (t : CodeTable) (d : Word) : Word :=
  let b : Byte := d.extractLsb' 0 8
  let k := (d.extractLsb' 8 2).toNat
  BitVec.ofNat 64 (bitsToNat ((List.range 64).map fun i => codeBit t b (64 * k + i)))

/-- What a selector reads (R158, column `RES`), for an index in its range. -/
def hufSelValue (h : HufState) (d : Word) : HufSel → Word
  | .status => hufStatusWord h
  | .freq => (tableRead h.freq (d.setWidth 8)).setWidth 64
  | .node => packNode ((h.node[d.toNat]?).getD HufNode.zero)
  | .root => (h.nint ++ h.root).setWidth 64
  | .clen => (tableRead h.code.clen (d.setWidth 8)).setWidth 64
  | .cword => codeWord h.code d
  | .outLen => count64 h.obuf.length
  | .out => ((h.obuf[d.toNat]?).getD 0).setWidth 64
  | .inLen => count64 h.ibuf.length
  | .nbits => h.nbits
  | .cur => h.cur

/-! ### `AC_RD` (47_ac_decoder.md R218) -/

/-- The selectors of `AC_RD`. -/
inductive AcSel where
  | status | low | high | pending | value | cnt | total | outLen | out | inLen | nsym | remain | cur
  deriving DecidableEq, Repr

/-- The selector that `a` names; 13 to 255 name none (R85). -/
def acSel (a : Byte) : Option AcSel :=
  match a with
  | 0#8 => some .status
  | 1#8 => some .low
  | 2#8 => some .high
  | 3#8 => some .pending
  | 4#8 => some .value
  | 5#8 => some .cnt
  | 6#8 => some .total
  | 7#8 => some .outLen
  | 8#8 => some .out
  | 9#8 => some .inLen
  | 10#8 => some .nsym
  | 11#8 => some .remain
  | 12#8 => some .cur
  | _ => none

/-- The legal modes of a selector (R218). -/
def acSelModeOk : AcSel → AcMode → Bool
  | .outLen, m | .out, m => m == .done
  | .status, _ | .low, _ | .high, _ | .pending, _ | .value, _ | .cnt, _ | .total, _ | .inLen, _ | .nsym, _
  | .remain, _ | .cur, _ => true

/-- The range of the index `d` of a selector (R218). -/
def acSelIndexOk (c : AcState) (d : Word) : AcSel → Bool
  | .cnt => d.toNat < 256
  | .out => d.toNat < c.obuf.length
  | .status | .low | .high | .pending | .value | .total | .outLen | .inLen | .nsym | .remain | .cur => d == 0

/-- What a selector reads (R218, column `RES`), for an index in its range. -/
def acSelValue (c : AcState) (d : Word) : AcSel → Word
  | .status => acStatusWord c
  | .low => c.low
  | .high => c.high
  | .pending => c.pending
  | .value => c.value
  | .cnt => (tableRead c.cnt (d.setWidth 8)).setWidth 64
  | .total => c.total.setWidth 64
  | .outLen => count64 c.obuf.length
  | .out => ((c.obuf[d.toNat]?).getD 0).setWidth 64
  | .inLen => count64 c.ibuf.length
  | .nsym => c.nsym
  | .remain => c.remain
  | .cur => c.cur

end Sys2Proof.Machine
end

