-- ==== Sys2Proof/Machine/AcModel.lean ====
section
/-! DEFINITION. Arithmetic coder: reset and the probability-table port: `AC_RESET`, `AC_MODEL_INIT`, `AC_SETCNT`,
`AC_SETTOTAL`, `AC_INC` (44_ac_model_port.md). -/

namespace Sys2Proof.Machine

/-- `AC_RESET` (R165): legal in every mode and with a fault latched. -/
def execAcReset (a : Byte) (d : Word) (s : State) : Result :=
  checkOperands (usesNone a d) s <| answer (resetEngine .ac s) 0

/-- `AC_MODEL_INIT` (R166): any mode. -/
def execAcModelInit (a : Byte) (d : Word) (s : State) : Result :=
  engineCommand .ac (usesNone a d) true s <|
    answer (s.setAc { s.ac with cnt := Vector.replicate 256 1, total := 256 }) 0

/-- `AC_SETCNT` (R167): any mode; the total is not adjusted. -/
def execAcSetcnt (a : Byte) (d : Word) (s : State) : Result :=
  engineCommand .ac (usesCount d) true s <|
    answer (s.setAc { s.ac with cnt := tableWrite s.ac.cnt a (d.setWidth 32) }) 0

/-- `AC_SETTOTAL` (R168): any mode. -/
def execAcSettotal (a : Byte) (d : Word) (s : State) : Result :=
  engineCommand .ac (usesTotal a d) true s <|
    answer (s.setAc { s.ac with total := d.setWidth 40 }) 0

/-- `AC_INC` (R169): any mode. -/
def execAcInc (a : Byte) (d : Word) (s : State) : Result :=
  engineCommand .ac (usesByte d) true s <|
    if (tableRead s.ac.cnt a).toNat = 2 ^ 32 - 1 || s.ac.total.toNat = 2 ^ 40 - 1 then
      raiseFault .ac s .counterOverflow
    else
      answer
        (s.setAc { s.ac with cnt := tableWrite s.ac.cnt a (tableRead s.ac.cnt a + 1), total := s.ac.total + 1 }) 0

/-! ### Table validity and cumulative counts (R170) -/

/-- `A_CNT[0] + ... + A_CNT[s - 1]` for `0 <= s <= 256` (R170). -/
def cum (cnt : Vector (BitVec 32) 256) (s : Nat) : Nat :=
  (cnt.toList.take s).foldl (fun acc c => acc + c.toNat) 0

/-- The table is valid: every count is at least 1 and the total is their sum (R170). -/
def tableValid (cnt : Vector (BitVec 32) 256) (total : BitVec 40) : Bool :=
  cnt.toList.all (fun c => decide (1 ≤ c.toNat)) && decide (total.toNat = cum cnt 256)

end Sys2Proof.Machine
end

