-- ==== Sys2Proof/Machine/Renorm.lean ====
section
/-! DEFINITION. Narrowing (45_ac_encoder.md R178) and the range renormalization unit (46_renorm_unit.md).
All arithmetic is exact, over Nat (00_scope.md R11, R16). -/

namespace Sys2Proof.Machine

/-- `MAXV = 2^64 - 1` (R191). -/
def maxV : Nat := 2 ^ 64 - 1

/-- `HALF = 2^63` (R191). -/
def half : Nat := 2 ^ 63

/-- `QUARTER = 2^62` (R191). -/
def quarter : Nat := 2 ^ 62

/-- `THREE_QUARTER = 3 * 2^62` (R191). -/
def threeQuarter : Nat := 3 * 2 ^ 62

/-- `narrow(low, high, cl, ch, T)` (45_ac_encoder.md R178): `R = high - low + 1`,
`low' = low + floor(R * cl / T)`, `high' = low + floor(R * ch / T) - 1`.
`none` where the result is no interval (`low > high`, or the two scaled counts are equal): for a valid table this is in no
state a run reaches (45_ac_encoder.md R179, log 8). -/
def narrow (low high cl ch total : Nat) : Option (Nat × Nat) :=
  let range := high + 1 - low
  let dl := range * cl / total
  let dh := range * ch / total
  if low ≤ high ∧ dl < dh then some (low + dl, low + dh - 1) else none

/-- The case of a pair `(low, high)` (R191). -/
inductive RnuCase where
  | e1
  | e2
  | e3
  | stop
  deriving DecidableEq, Repr

/-- Case selection (R191). -/
def rnuCase (low high : Nat) : RnuCase :=
  if high < half then .e1
  else if half ≤ low then .e2
  else if quarter ≤ low ∧ high < threeQuarter then .e3
  else .stop

/-- The offset of a case (R191, column `off`). -/
def rnuOff : RnuCase → Nat
  | .e1 => 0
  | .e2 => half
  | .e3 => quarter
  | .stop => 0

/-- The interval update of `low` (R192). -/
def stepLow (c : RnuCase) (low : Nat) : Nat := 2 * (low - rnuOff c)

/-- The interval update of `high` (R192). -/
def stepHigh (c : RnuCase) (high : Nat) : Nat := 2 * (high - rnuOff c) + 1

/-- The bits that an encoder step emits: the decided bit, then the pending bits inverted (R193). -/
def stepBits (c : RnuCase) (pending : Nat) : List Bool :=
  match c with
  | .e1 => false :: List.replicate pending true
  | .e2 => true :: List.replicate pending false
  | .e3 => []
  | .stop => []

/-- The pending counter after an encoder step (R193). -/
def stepPending (c : RnuCase) (pending : Nat) : Nat :=
  match c with
  | .e1 => 0
  | .e2 => 0
  | .e3 => pending + 1
  | .stop => pending

/-- What `rnu_enc` returns (R190). -/
structure RnuEnc where
  low : Nat
  high : Nat
  pending : Nat
  bits : List Bool
  deriving DecidableEq, Repr

/-- The encoder loop (R195), at most `steps` steps; 64 steps suffice for every interval (R197). -/
def rnuEncLoop : (steps : Nat) → (low high pending : Nat) → RnuEnc
  | 0, low, high, pending => { low := low, high := high, pending := pending, bits := [] }
  | steps + 1, low, high, pending =>
    match rnuCase low high with
    | .stop => { low := low, high := high, pending := pending, bits := [] }
    | c =>
      let r := rnuEncLoop steps (stepLow c low) (stepHigh c high) (stepPending c pending)
      { r with bits := stepBits c pending ++ r.bits }

/-- `rnu_enc` (R195). -/
def rnuEnc (low high pending : Nat) : RnuEnc := rnuEncLoop 64 low high pending

/-- What `rnu_dec` returns (R190). -/
structure RnuDec where
  low : Nat
  high : Nat
  value : Nat
  cur : Nat
  deriving DecidableEq, Repr

/-- The value update of a decoder step: the offset is subtracted and the next input bit shifted in (R194). -/
def stepValue (c : RnuCase) (value : Nat) (bit : Bool) : Nat := 2 * (value - rnuOff c) + bit.toNat

/-- The decoder loop (R196), at most `steps` steps; 64 steps suffice for every interval (R197). -/
def rnuDecLoop (ibuf : List Byte) : (steps : Nat) → (low high value cur : Nat) → RnuDec
  | 0, low, high, value, cur => { low := low, high := high, value := value, cur := cur }
  | steps + 1, low, high, value, cur =>
    match rnuCase low high with
    | .stop => { low := low, high := high, value := value, cur := cur }
    | c => rnuDecLoop ibuf steps (stepLow c low) (stepHigh c high) (stepValue c value (abit ibuf cur)) (cur + 1)

/-- `rnu_dec` (R196). -/
def rnuDec (ibuf : List Byte) (low high value cur : Nat) : RnuDec := rnuDecLoop ibuf 64 low high value cur

end Sys2Proof.Machine
end

