-- ==== Sys2Proof/Machine/AcDecoder.lean ====
section
/-! DEFINITION. Arithmetic range coder, decoder, and the reads of the AC engine: `AC_IN_BYTE`, `AC_IN_CLEAR`,
`AC_DEC_INIT`, `AC_DEC_SYM`, `AC_DEC_END`, `AC_RD` (47_ac_decoder.md). -/

namespace Sys2Proof.Machine

/-- `AC_IN_BYTE` (R205): every mode but `DEC`. -/
def execAcInByte (a : Byte) (d : Word) (s : State) : Result :=
  engineCommand .ac (usesByte d) (s.ac.mode != .dec) s <|
    match appendBytes s.params.inCap s.ac.ibuf [a] with
    | none => raiseFault .ac s .bufferFull
    | some ibuf => answer (s.setAc { s.ac with ibuf := ibuf }) 0

/-- `AC_IN_CLEAR` (R206): every mode but `DEC`. -/
def execAcInClear (a : Byte) (d : Word) (s : State) : Result :=
  engineCommand .ac (usesNone a d) (s.ac.mode != .dec) s <|
    answer (s.setAc { s.ac with ibuf := [] }) 0

/-- The first 64 bits of the bitstream, the first bit in bit 63 (R207). -/
def firstValue (ibuf : List Byte) : Word := BitVec.ofNat 64 (bitsToNat ((List.range 64).map (abit ibuf)))

/-- `AC_DEC_INIT` (R207). -/
def execAcDecInit (a : Byte) (d : Word) (s : State) : Result :=
  engineCommand .ac (usesNone a d) (s.ac.mode == .idle || s.ac.mode == .done) s <|
    if s.ac.ibuf.length < 8 then raiseFault .ac s .invalidArchive
    else
      let remain : Word := BitVec.ofNat 64 (unBe64 (s.ac.ibuf.take 8))
      answer
        (s.setAc { s.ac with
          remain := remain, low := 0, high := BitVec.ofNat 64 maxV, pending := 0, value := firstValue s.ac.ibuf,
          cur := 64, mode := .dec })
        remain

/-- `target_of(low, high, value, T)` (R212), for `low <= high`; `none` is "not ok" (`num < 0`). -/
def targetOf (low high value total : Nat) : Option Nat :=
  let num : Int := ((value : Int) - low + 1) * total - 1
  if num < 0 then none else some (num.toNat / (high + 1 - low))

/-- The linear scan of R213: the first symbol, counted from `s`, whose upper cumulative count exceeds the target; `acc` is
the cumulative count below `s`. -/
def scanSymbol (target : Nat) : List (BitVec 32) → (s acc : Nat) → Option Nat
  | [], _, _ => none
  | c :: cs, s, acc => if target < acc + c.toNat then some s else scanSymbol target cs (s + 1) (acc + c.toNat)

/-- The least symbol `s` with `target < cum(s + 1)` (R213). -/
def findSymbol (cnt : Vector (BitVec 32) 256) (target : Nat) : Option Nat := scanSymbol target cnt.toList 0 0

/-- `AC_DEC_SYM` (R210): the end marker where no symbol remains; else `BadModel`, `DecodeDesync`, `CounterOverflow` in this
order. -/
def execAcDecSym (a : Byte) (d : Word) (s : State) : Result :=
  engineCommand .ac (usesNone a d) (s.ac.mode == .dec) s <|
    if s.ac.remain = 0 then answer s endMarker
    else if !tableValid s.ac.cnt s.ac.total then raiseFault .ac s .badModel
    else if s.ac.high.toNat < s.ac.low.toNat then .fault .brokenAcState
    else
      match targetOf s.ac.low.toNat s.ac.high.toNat s.ac.value.toNat s.ac.total.toNat with
      | none => raiseFault .ac s .decodeDesync
      | some target =>
        match findSymbol s.ac.cnt target with
        | none => raiseFault .ac s .decodeDesync
        | some sym =>
          match narrow s.ac.low.toNat s.ac.high.toNat (cum s.ac.cnt sym) (cum s.ac.cnt (sym + 1)) s.ac.total.toNat with
          | none => .fault .brokenAcState
          | some (lo, hi) =>
            let r := rnuDec s.ac.ibuf lo hi s.ac.value.toNat s.ac.cur.toNat
            if maxV < r.cur then raiseFault .ac s .counterOverflow
            else
              answer
                (s.setAc { s.ac with
                  low := BitVec.ofNat 64 r.low, high := BitVec.ofNat 64 r.high, value := BitVec.ofNat 64 r.value,
                  cur := BitVec.ofNat 64 r.cur, remain := s.ac.remain - 1 })
                (BitVec.ofNat 64 sym)

/-- `AC_DEC_END` (R216). -/
def execAcDecEnd (a : Byte) (d : Word) (s : State) : Result :=
  engineCommand .ac (usesNone a d) (s.ac.mode == .dec) s <|
    answer (s.setAc { s.ac with mode := .idle }) 0

/-- `AC_RD` (R218): the selector in `a` (step 2), the latch but for `STATUS` (step 4), the selector's modes (step 5), the
index `d` (step 6), then the value. It changes no state. -/
def execAcRd (a : Byte) (d : Word) (s : State) : Result :=
  match acSel a with
  | none => refuse s .badOperand
  | some sel =>
    if sel != .status && faultLatch .ac s != 0 then refuse s .faulted
    else if !acSelModeOk sel s.ac.mode then refuse s .sequenceError
    else if !acSelIndexOk s.ac d sel then refuse s .badOperand
    else answer s (acSelValue s.ac d sel)

end Sys2Proof.Machine
end

