-- ==== Sys2Proof/Machine/AcEncoder.lean ====
section
/-! DEFINITION. Arithmetic range coder, encoder: `AC_ENC_INIT`, `AC_ENC_SYM`, `AC_ENC_FINISH` (45_ac_encoder.md). -/

namespace Sys2Proof.Machine

/-- `AC_ENC_INIT` (R175): `IDLE`, `DONE`; `BufferFull` if the 8-byte placeholder does not fit. -/
def execAcEncInit (a : Byte) (d : Word) (s : State) : Result :=
  engineCommand .ac (usesNone a d) (s.ac.mode == .idle || s.ac.mode == .done) s <|
    match appendBytes s.params.outCap [] (List.replicate 8 0) with
    | none => raiseFault .ac s .bufferFull
    | some obuf =>
      answer
        (s.setAc { s.ac with
          low := 0, high := BitVec.ofNat 64 maxV, pending := 0, nsym := 0, pk := Packer.empty, obuf := obuf,
          mode := .enc }) 0

/-- `AC_ENC_SYM` (R177): `BadModel`, then `CounterOverflow` of `A_NSYM`, then of `A_PENDING`, then `BufferFull`
(60_exceptions.md R231). -/
def execAcEncSym (a : Byte) (d : Word) (s : State) : Result :=
  engineCommand .ac (usesByte d) (s.ac.mode == .enc) s <|
    if !tableValid s.ac.cnt s.ac.total then raiseFault .ac s .badModel
    else if s.ac.nsym.toNat = maxV then raiseFault .ac s .counterOverflow
    else
      let cl := cum s.ac.cnt a.toNat
      let ch := cum s.ac.cnt a.toNat + (tableRead s.ac.cnt a).toNat
      match narrow s.ac.low.toNat s.ac.high.toNat cl ch s.ac.total.toNat with
      | none => .fault .brokenAcState
      | some (lo, hi) =>
        let r := rnuEnc lo hi s.ac.pending.toNat
        if maxV < r.pending then raiseFault .ac s .counterOverflow
        else
          match pushBits s.params.outCap { pk := s.ac.pk, out := s.ac.obuf } r.bits with
          | none => raiseFault .ac s .bufferFull
          | some p =>
            answer
              (s.setAc { s.ac with
                low := BitVec.ofNat 64 r.low, high := BitVec.ofNat 64 r.high, pending := BitVec.ofNat 64 r.pending,
                pk := p.pk, obuf := p.out, nsym := s.ac.nsym + 1 }) 0

/-- The bits that `AC_ENC_FINISH` emits: the disambiguating bit, then the pending bits and the `AC_FLUSH_EXTRA` extra bits,
inverted (R181). -/
def finishBits (low pending : Nat) (extra : Fin 2) : List Bool :=
  let b := decide (quarter ≤ low)
  b :: List.replicate (pending + extra.val) (!b)

/-- `AC_ENC_FINISH` (R181). An output buffer of fewer than 8 bytes has no header to overwrite; it is in no state a run
reaches (10_state.md R46 (f), log 8). -/
def execAcEncFinish (a : Byte) (d : Word) (s : State) : Result :=
  engineCommand .ac (usesNone a d) (s.ac.mode == .enc) s <|
    if s.ac.obuf.length < 8 then .fault .brokenAcState
    else
      match pushBits s.params.outCap { pk := s.ac.pk, out := s.ac.obuf }
          (finishBits s.ac.low.toNat s.ac.pending.toNat s.params.acFlushExtra) with
      | none => raiseFault .ac s .bufferFull
      | some p =>
        match flushPacker s.params.outCap p with
        | none => raiseFault .ac s .bufferFull
        | some p' =>
          let archive := be64 s.ac.nsym ++ p'.out.drop 8
          answer (s.setAc { s.ac with pending := 0, pk := p'.pk, obuf := archive, mode := .done })
            (count64 archive.length)

end Sys2Proof.Machine
end

