-- ==== Sys2Proof/Machine/Block.lean ====
section
/-! DEFINITION. Block control: `NOP`, `RESET_ALL` (40_block_control.md). -/

namespace Sys2Proof.Machine

/-- `NOP` (R104): legal in every mode and with a fault latched; changes nothing. -/
def execNop (a : Byte) (d : Word) (s : State) : Result :=
  checkOperands (usesNone a d) s <| answer s 0

/-- `RESET_ALL` (R105): both engines get their reset values; legal with a fault latched. -/
def execResetAll (a : Byte) (d : Word) (s : State) : Result :=
  checkOperands (usesNone a d) s <| answer (resetEngine .ac (resetEngine .huf s)) 0

end Sys2Proof.Machine
end

