-- ==== Sys2Proof/Machine/HufPacker.lean ====
section
/-! DEFINITION. Huffman bitstream packer: `HUF_ENC_BEGIN`, `HUF_ENC_SYM`, `HUF_ENC_END` (42_huffman_packer.md). -/

namespace Sys2Proof.Machine

/-- `HUF_ENC_BEGIN` (R133). -/
def execHufEncBegin (a : Byte) (d : Word) (s : State) : Result :=
  engineCommand .huf (usesNone a d) (s.huf.mode == .ready) s <|
    answer (s.setHuf { s.huf with obuf := [], pk := Packer.empty, mode := .enc }) 0

/-- `HUF_ENC_SYM` (R134): `SymbolNotFound` before `BufferFull` (60_exceptions.md R231). -/
def execHufEncSym (a : Byte) (d : Word) (s : State) : Result :=
  engineCommand .huf (usesByte d) (s.huf.mode == .enc) s <|
    if tableRead s.huf.code.clen a = 0 then raiseFault .huf s .symbolNotFound
    else
      match pushBits s.params.outCap { pk := s.huf.pk, out := s.huf.obuf } (codeOf s.huf.code a) with
      | none => raiseFault .huf s .bufferFull
      | some p => answer (s.setHuf { s.huf with pk := p.pk, obuf := p.out }) 0

/-- `HUF_ENC_END` (R135): completes the last byte and appends the padding count. -/
def execHufEncEnd (a : Byte) (d : Word) (s : State) : Result :=
  engineCommand .huf (usesNone a d) (s.huf.mode == .enc) s <|
    let pad := padCount s.huf.pk
    match flushPacker s.params.outCap { pk := s.huf.pk, out := s.huf.obuf } with
    | none => raiseFault .huf s .bufferFull
    | some p =>
      match appendBytes s.params.outCap p.out [BitVec.ofNat 8 pad] with
      | none => raiseFault .huf s .bufferFull
      | some out => answer (s.setHuf { s.huf with pk := p.pk, obuf := out, mode := .ready }) (BitVec.ofNat 64 pad)

end Sys2Proof.Machine
end

