-- ==== Sys2Proof/Machine/HufTree.lean ====
section
/-! DEFINITION. Huffman tree encoder: `HUF_RESET`, `HUF_COUNT`, `HUF_SETFREQ`, `HUF_BUILD`, `HUF_GENCODES`
(41_huffman_tree.md). -/

namespace Sys2Proof.Machine

/-- `HUF_RESET` (R110): legal in every mode and with a fault latched. -/
def execHufReset (a : Byte) (d : Word) (s : State) : Result :=
  checkOperands (usesNone a d) s <| answer (resetEngine .huf s) 0

/-- `HUF_COUNT` (R111). -/
def execHufCount (a : Byte) (d : Word) (s : State) : Result :=
  engineCommand .huf (usesByte d) (s.huf.mode == .freq) s <|
    if (tableRead s.huf.freq a).toNat = 2 ^ 32 - 1 then raiseFault .huf s .counterOverflow
    else answer (s.setHuf { s.huf with freq := tableWrite s.huf.freq a (tableRead s.huf.freq a + 1) }) 0

/-- `HUF_SETFREQ` (R112). -/
def execHufSetfreq (a : Byte) (d : Word) (s : State) : Result :=
  engineCommand .huf (usesCount d) (s.huf.mode == .freq) s <|
    answer (s.setHuf { s.huf with freq := tableWrite s.huf.freq a (d.setWidth 32) }) 0

/-! ### `HUF_BUILD` (R113 to R117) -/

/-- A live node of the merge loop: its weight `H_NODE[index].W` and its index. -/
structure LiveNode where
  w : BitVec 40
  index : Nat
  deriving DecidableEq, Repr

/-- The node order (R114): lower weight first, among equal weights the lower index. -/
def liveLess (x y : LiveNode) : Bool :=
  decide (x.w.toNat < y.w.toNat) || (decide (x.w = y.w) && decide (x.index < y.index))

/-- The least of `x` and the nodes of `q` in the order of R114, and the nodes without it. -/
def extractLeast (x : LiveNode) : List LiveNode → LiveNode × List LiveNode
  | [] => (x, [])
  | y :: q =>
    if liveLess y x then
      let r := extractLeast y q
      (r.1, x :: r.2)
    else
      let r := extractLeast x q
      (r.1, y :: r.2)

/-- The leaf node of a byte with frequency `f` (R113). -/
def leafNode (f : BitVec 32) : HufNode :=
  { v := true, leaf := true, left := 0, right := 0, w := f.setWidth 40 }

/-- The bytes with a non-zero frequency, in ascending order: the set `S` of R113. -/
def presentBytes (freq : Vector (BitVec 32) 256) : List Byte :=
  ((List.range 256).map (BitVec.ofNat 8)).filter fun b => tableRead freq b != 0

/-- The arena before the first merge: a leaf for every byte of `S`, every other entry 0 (R113). -/
def leafArena (freq : Vector (BitVec 32) 256) : Vector HufNode 511 :=
  (presentBytes freq).foldl (fun arena b => arena.setIfInBounds b.toNat (leafNode (tableRead freq b)))
    (Vector.replicate 511 HufNode.zero)

/-- The live nodes before the first merge (R113: `Q <- S`). -/
def liveLeaves (freq : Vector (BitVec 32) 256) : List LiveNode :=
  (presentBytes freq).map fun b => { w := (tableRead freq b).setWidth 40, index := b.toNat }

/-- A built tree: the arena, the root, the index of the next internal node. -/
structure BuiltTree where
  node : Vector HufNode 511
  root : Nat
  next : Nat

/-- The merge loop of R113 on the live nodes `x :: q`, `n` the index of the next internal node.
`passes` bounds its passes; each pass removes two live nodes and adds one, so `q.length` passes end it (R117).
The node extracted first becomes the left child (R115). -/
def mergeLoop (passes : Nat) (node : Vector HufNode 511) (x : LiveNode) (q : List LiveNode) (n : Nat) : BuiltTree :=
  match passes with
  | 0 => { node := node, root := x.index, next := n }
  | passes + 1 =>
    let (x1, q1) := extractLeast x q
    match q1 with
    | [] => { node := node, root := x1.index, next := n }
    | y :: q2 =>
      let (y1, q3) := extractLeast y q2
      let w := x1.w + y1.w
      let parent : HufNode :=
        { v := true, leaf := false, left := BitVec.ofNat 9 x1.index, right := BitVec.ofNat 9 y1.index, w := w }
      mergeLoop passes (node.setIfInBounds n parent) { w := w, index := n } q3 (n + 1)

/-- The tree of a frequency table; `none` for an empty table (R113). -/
def buildTree (freq : Vector (BitVec 32) 256) : Option BuiltTree :=
  match liveLeaves freq with
  | [] => none
  | x :: q => some (mergeLoop q.length (leafArena freq) x q 256)

/-- `HUF_BUILD` (R113). -/
def execHufBuild (a : Byte) (d : Word) (s : State) : Result :=
  engineCommand .huf (usesNone a d) (s.huf.mode == .freq) s <|
    match buildTree s.huf.freq with
    | none => raiseFault .huf s .corruptHuffmanTree
    | some t =>
      let root := BitVec.ofNat 9 t.root
      answer
        (s.setHuf { s.huf with node := t.node, root := root, nint := BitVec.ofNat 8 (t.next - 256), mode := .tree })
        (root.setWidth 64)

/-! ### `HUF_GENCODES` (R118, R119) -/

/-- What a walk of the tree finds at an arena index. -/
inductive NodeView where
  /-- a leaf: the byte is the index itself (10_state.md R27) -/
  | leaf (b : Byte)
  | internal (left right : BitVec 9)
  /-- no entry, or a leaf whose index is no byte: in no state a run reaches (log 7) -/
  | broken
  deriving DecidableEq, Repr

/-- The node at an arena index (10_state.md R27). -/
def viewNode (node : Vector HufNode 511) (i : BitVec 9) : NodeView :=
  match node[i.toNat]? with
  | none => .broken
  | some n =>
    if n.leaf then
      if i.toNat < 256 then .leaf (i.setWidth 8) else .broken
    else .internal n.left n.right

/-- `visit(i, path)` of R118: writes the code of every leaf below `i`, left subtree first.
`depth` bounds the depth still allowed; a code has at most 255 bits (10_state.md R29, R116), so 256 levels are all a
tree can have, and `none` means that the arena is no tree (log 7). -/
def visitNode (node : Vector HufNode 511) : (depth : Nat) → BitVec 9 → List Bool → CodeTable → Option CodeTable
  | 0, _, _, _ => none
  | depth + 1, i, path, t =>
    match viewNode node i with
    | .broken => none
    | .leaf b => some (codeWrite t b path)
    | .internal left right =>
      match visitNode node depth left (path ++ [false]) t with
      | none => none
      | some t' => visitNode node depth right (path ++ [true]) t'

/-- The code table of a tree: the 1-bit code "0" for a single leaf, else the root-to-leaf paths (R118, R119). -/
def genCodes (node : Vector HufNode 511) (root : BitVec 9) : Option CodeTable :=
  if root.toNat < 256 then some (codeWrite CodeTable.empty (root.setWidth 8) [false])
  else visitNode node 256 root [] CodeTable.empty

/-- The longest code length: `max over b of H_CLEN[b]` (R118). -/
def maxCodeLength (t : CodeTable) : Nat := t.clen.toList.foldl (fun m l => max m l.toNat) 0

/-- `HUF_GENCODES` (R118). -/
def execHufGencodes (a : Byte) (d : Word) (s : State) : Result :=
  engineCommand .huf (usesNone a d) (s.huf.mode == .tree) s <|
    match genCodes s.huf.node s.huf.root with
    | none => .fault .brokenHufState
    | some t => answer (s.setHuf { s.huf with code := t, mode := .ready }) (BitVec.ofNat 64 (maxCodeLength t))

end Sys2Proof.Machine
end

