-- ==== Sys2Proof/Machine/HufUnpacker.lean ====
section
/-! DEFINITION. Huffman bitstream unpacker and the reads of the Huffman engine: `HUF_IN_BYTE`, `HUF_IN_CLEAR`,
`HUF_DEC_BEGIN`, `HUF_DEC_SYM`, `HUF_DEC_ALL`, `HUF_DEC_END`, `HUF_RD` (43_huffman_unpacker.md). -/

namespace Sys2Proof.Machine

/-- `HUF_IN_BYTE` (R145): every mode but `DEC`. -/
def execHufInByte (a : Byte) (d : Word) (s : State) : Result :=
  engineCommand .huf (usesByte d) (s.huf.mode != .dec) s <|
    match appendBytes s.params.inCap s.huf.ibuf [a] with
    | none => raiseFault .huf s .bufferFull
    | some ibuf => answer (s.setHuf { s.huf with ibuf := ibuf }) 0

/-- `HUF_IN_CLEAR` (R146): every mode but `DEC`. -/
def execHufInClear (a : Byte) (d : Word) (s : State) : Result :=
  engineCommand .huf (usesNone a d) (s.huf.mode != .dec) s <|
    answer (s.setHuf { s.huf with ibuf := [] }) 0

/-- The number of code bits of a payload, `8 * (n - 1) - pad`; `none` for a payload with no padding-count byte, a count
above 7, or a non-zero count with no data byte (R147). -/
def payloadBits (ibuf : List Byte) : Option Nat :=
  match ibuf.getLast? with
  | none => none
  | some pad =>
    if 7 < pad.toNat then none
    else if ibuf.length = 1 && pad != 0 then none
    else some (8 * (ibuf.length - 1) - pad.toNat)

/-- `HUF_DEC_BEGIN` (R147). -/
def execHufDecBegin (a : Byte) (d : Word) (s : State) : Result :=
  engineCommand .huf (usesNone a d) (s.huf.mode == .ready) s <|
    match payloadBits s.huf.ibuf with
    | none => raiseFault .huf s .invalidArchive
    | some n => answer (s.setHuf { s.huf with nbits := count64 n, cur := 0, obuf := [], mode := .dec }) (count64 n)

/-- What one decode step gives (R150). -/
inductive DecodeStep where
  /-- a byte and the new bit index -/
  | symbol (b : Byte) (cur : Nat)
  /-- `fail`: the command raises `InvalidArchive` -/
  | fail
  /-- R150 has no result: in no state a run reaches (log 7) -/
  | broken
  deriving DecidableEq, Repr

/-- The walk of R150 from node `i` at bit index `cur`, with `bitsLeft` code bits unread. -/
def walkTree (node : Vector HufNode 511) (ibuf : List Byte) : (bitsLeft : Nat) → BitVec 9 → Nat → DecodeStep
  | 0, i, cur =>
    match viewNode node i with
    | .broken => .broken
    | .leaf b => .symbol b cur
    | .internal _ _ => .fail
  | bitsLeft + 1, i, cur =>
    match viewNode node i with
    | .broken => .broken
    | .leaf b => .symbol b cur
    | .internal left right =>
      match bitAt ibuf cur with
      | none => .broken
      | some bit => walkTree node ibuf bitsLeft (if bit then right else left) (cur + 1)

/-- `dec_one(cur)` (R150), for `cur < H_NBITS`. -/
def decodeOne (h : HufState) (cur : Nat) : DecodeStep :=
  if h.root.toNat < 256 then
    match bitAt h.ibuf cur with
    | none => .broken
    | some bit => if bit then .fail else .symbol (h.root.setWidth 8) (cur + 1)
  else walkTree h.node h.ibuf (h.nbits.toNat - cur) h.root cur

/-- `HUF_DEC_SYM` (R151): the end marker where no code bit remains, else one decode step. -/
def execHufDecSym (a : Byte) (d : Word) (s : State) : Result :=
  engineCommand .huf (usesNone a d) (s.huf.mode == .dec) s <|
    if s.huf.cur = s.huf.nbits then answer s endMarker
    else if s.huf.nbits.toNat < s.huf.cur.toNat then .fault .brokenHufState
    else
      match decodeOne s.huf s.huf.cur.toNat with
      | .broken => .fault .brokenHufState
      | .fail => raiseFault .huf s .invalidArchive
      | .symbol b cur =>
        match appendBytes s.params.outCap s.huf.obuf [b] with
        | none => raiseFault .huf s .bufferFull
        | some obuf => answer (s.setHuf { s.huf with obuf := obuf, cur := BitVec.ofNat 64 cur }) (b.setWidth 64)

/-- What decoding all that remains gives (R153). -/
inductive DecodeAll where
  /-- the decoded bytes and the final bit index -/
  | bytes (out : List Byte) (cur : Nat)
  | fail
  /-- R150 has no result: in no state a run reaches (log 7) -/
  | broken
  deriving DecidableEq, Repr

/-- The loop of `HUF_DEC_ALL` from bit index `cur`. Every decode step takes at least one bit, so as many steps as bits
are left end it (R152). -/
def decodeRest (h : HufState) : (steps : Nat) → (cur : Nat) → DecodeAll
  | 0, cur => if cur = h.nbits.toNat then .bytes [] cur else .broken
  | steps + 1, cur =>
    if cur = h.nbits.toNat then .bytes [] cur
    else
      match decodeOne h cur with
      | .broken => .broken
      | .fail => .fail
      | .symbol b cur' =>
        match decodeRest h steps cur' with
        | .bytes out cur'' => .bytes (b :: out) cur''
        | .fail => .fail
        | .broken => .broken

/-- `HUF_DEC_ALL` (R153): atomic; `InvalidArchive` before `BufferFull`. -/
def execHufDecAll (a : Byte) (d : Word) (s : State) : Result :=
  engineCommand .huf (usesNone a d) (s.huf.mode == .dec) s <|
    match decodeRest s.huf (s.huf.nbits.toNat - s.huf.cur.toNat) s.huf.cur.toNat with
    | .broken => .fault .brokenHufState
    | .fail => raiseFault .huf s .invalidArchive
    | .bytes out cur =>
      match appendBytes s.params.outCap s.huf.obuf out with
      | none => raiseFault .huf s .bufferFull
      | some obuf =>
        answer (s.setHuf { s.huf with obuf := obuf, cur := BitVec.ofNat 64 cur, mode := .ready }) (count64 out.length)

/-- `HUF_DEC_END` (R154). -/
def execHufDecEnd (a : Byte) (d : Word) (s : State) : Result :=
  engineCommand .huf (usesNone a d) (s.huf.mode == .dec) s <|
    answer (s.setHuf { s.huf with mode := .ready }) 0

/-- `HUF_RD` (R158): the selector in `a` (step 2), the latch but for `STATUS` (step 4), the selector's modes (step 5), the
index `d` (step 6), then the value. It changes no state. -/
def execHufRd (a : Byte) (d : Word) (s : State) : Result :=
  match hufSel a with
  | none => refuse s .badOperand
  | some sel =>
    if sel != .status && faultLatch .huf s != 0 then refuse s .faulted
    else if !hufSelModeOk sel s.huf.mode then refuse s .sequenceError
    else if !hufSelIndexOk s.huf d sel then refuse s .badOperand
    else answer s (hufSelValue s.huf d sel)

end Sys2Proof.Machine
end

