-- ==== Sys2Proof/Syntax.lean ====
section
/-! DEFINITION. The commands of NTK-EC: one constructor for each row of the opcode map (30_encoding.md R84). -/

namespace Sys2Proof

/-- A command with an assigned opcode, with its two operand fields as they stand in the command word.
A decoder tells the command from `op` alone (30_encoding.md R80); whether `a` and `d` obey R81 is checked when the
command is processed (40_block_control.md R100 step 2), so every constructor keeps both fields (log 5). -/
inductive Instr where
  | nop (a : Byte) (d : Word)
  | resetAll (a : Byte) (d : Word)
  | hufReset (a : Byte) (d : Word)
  | hufCount (a : Byte) (d : Word)
  | hufSetfreq (a : Byte) (d : Word)
  | hufBuild (a : Byte) (d : Word)
  | hufGencodes (a : Byte) (d : Word)
  | hufEncBegin (a : Byte) (d : Word)
  | hufEncSym (a : Byte) (d : Word)
  | hufEncEnd (a : Byte) (d : Word)
  | hufInByte (a : Byte) (d : Word)
  | hufInClear (a : Byte) (d : Word)
  | hufDecBegin (a : Byte) (d : Word)
  | hufDecSym (a : Byte) (d : Word)
  | hufDecAll (a : Byte) (d : Word)
  | hufDecEnd (a : Byte) (d : Word)
  | hufRd (a : Byte) (d : Word)
  | acReset (a : Byte) (d : Word)
  | acModelInit (a : Byte) (d : Word)
  | acSetcnt (a : Byte) (d : Word)
  | acSettotal (a : Byte) (d : Word)
  | acInc (a : Byte) (d : Word)
  | acEncInit (a : Byte) (d : Word)
  | acEncSym (a : Byte) (d : Word)
  | acEncFinish (a : Byte) (d : Word)
  | acInByte (a : Byte) (d : Word)
  | acInClear (a : Byte) (d : Word)
  | acDecInit (a : Byte) (d : Word)
  | acDecSym (a : Byte) (d : Word)
  | acDecEnd (a : Byte) (d : Word)
  | acRd (a : Byte) (d : Word)
  deriving DecidableEq, Repr

end Sys2Proof
end

