-- ==== Sys2Proof/Machine/Dispatch.lean ====
section
/-! DEFINITION. The meaning of every command: one arm for each constructor of Instr. -/

namespace Sys2Proof.Machine

def exec (i : Instr) (s : State) : Host.Outcome State Fault Refusal :=
  match i with
  | .nop a d => Sys2Proof.Machine.execNop a d s
  | .resetAll a d => Sys2Proof.Machine.execResetAll a d s
  | .hufReset a d => Sys2Proof.Machine.execHufReset a d s
  | .hufCount a d => Sys2Proof.Machine.execHufCount a d s
  | .hufSetfreq a d => Sys2Proof.Machine.execHufSetfreq a d s
  | .hufBuild a d => Sys2Proof.Machine.execHufBuild a d s
  | .hufGencodes a d => Sys2Proof.Machine.execHufGencodes a d s
  | .hufEncBegin a d => Sys2Proof.Machine.execHufEncBegin a d s
  | .hufEncSym a d => Sys2Proof.Machine.execHufEncSym a d s
  | .hufEncEnd a d => Sys2Proof.Machine.execHufEncEnd a d s
  | .hufInByte a d => Sys2Proof.Machine.execHufInByte a d s
  | .hufInClear a d => Sys2Proof.Machine.execHufInClear a d s
  | .hufDecBegin a d => Sys2Proof.Machine.execHufDecBegin a d s
  | .hufDecSym a d => Sys2Proof.Machine.execHufDecSym a d s
  | .hufDecAll a d => Sys2Proof.Machine.execHufDecAll a d s
  | .hufDecEnd a d => Sys2Proof.Machine.execHufDecEnd a d s
  | .hufRd a d => Sys2Proof.Machine.execHufRd a d s
  | .acReset a d => Sys2Proof.Machine.execAcReset a d s
  | .acModelInit a d => Sys2Proof.Machine.execAcModelInit a d s
  | .acSetcnt a d => Sys2Proof.Machine.execAcSetcnt a d s
  | .acSettotal a d => Sys2Proof.Machine.execAcSettotal a d s
  | .acInc a d => Sys2Proof.Machine.execAcInc a d s
  | .acEncInit a d => Sys2Proof.Machine.execAcEncInit a d s
  | .acEncSym a d => Sys2Proof.Machine.execAcEncSym a d s
  | .acEncFinish a d => Sys2Proof.Machine.execAcEncFinish a d s
  | .acInByte a d => Sys2Proof.Machine.execAcInByte a d s
  | .acInClear a d => Sys2Proof.Machine.execAcInClear a d s
  | .acDecInit a d => Sys2Proof.Machine.execAcDecInit a d s
  | .acDecSym a d => Sys2Proof.Machine.execAcDecSym a d s
  | .acDecEnd a d => Sys2Proof.Machine.execAcDecEnd a d s
  | .acRd a d => Sys2Proof.Machine.execAcRd a d s

end Sys2Proof.Machine
end

