-- ==== Sys2Proof/WellFormed.lean ====
section
/-! DEFINITION. Which commands are well-formed: the static operand rule of 30_encoding.md R81 and R84 (column "uses"). -/

namespace Sys2Proof

/-- The operand fields obey R81: an unused field is 0, a `d` of which only the low `w` bits are used is below `2^w`,
a read selector is in its table (R85).
The index `d` of a read depends on the state and is no part of this check (60_exceptions.md R231 step 6). -/
def Instr.wellFormed : Instr → Bool
  | .nop a d => a == 0 && d == 0
  | .resetAll a d => a == 0 && d == 0
  | .hufReset a d => a == 0 && d == 0
  | .hufCount _ d => d == 0
  | .hufSetfreq _ d => d.toNat < 2 ^ 32
  | .hufBuild a d => a == 0 && d == 0
  | .hufGencodes a d => a == 0 && d == 0
  | .hufEncBegin a d => a == 0 && d == 0
  | .hufEncSym _ d => d == 0
  | .hufEncEnd a d => a == 0 && d == 0
  | .hufInByte _ d => d == 0
  | .hufInClear a d => a == 0 && d == 0
  | .hufDecBegin a d => a == 0 && d == 0
  | .hufDecSym a d => a == 0 && d == 0
  | .hufDecAll a d => a == 0 && d == 0
  | .hufDecEnd a d => a == 0 && d == 0
  | .hufRd a _ => a.toNat ≤ 10
  | .acReset a d => a == 0 && d == 0
  | .acModelInit a d => a == 0 && d == 0
  | .acSetcnt _ d => d.toNat < 2 ^ 32
  | .acSettotal a d => a == 0 && decide (d.toNat < 2 ^ 40)
  | .acInc _ d => d == 0
  | .acEncInit a d => a == 0 && d == 0
  | .acEncSym _ d => d == 0
  | .acEncFinish a d => a == 0 && d == 0
  | .acInByte _ d => d == 0
  | .acInClear a d => a == 0 && d == 0
  | .acDecInit a d => a == 0 && d == 0
  | .acDecSym a d => a == 0 && d == 0
  | .acDecEnd a d => a == 0 && d == 0
  | .acRd a _ => a.toNat ≤ 12

end Sys2Proof
end

