-- ==== Sys2Proof/Decode.lean ====
section
/-! DEFINITION. The decoder and the encoder of the 80-bit command word (30_encoding.md R80, R84, R86). -/

namespace Sys2Proof

/-- Why a command word is no command. -/
inductive DecodeReject where
  /-- `op` is none of the 31 assigned opcodes (R86): the block refuses the word with `IllegalCommand`. -/
  | illegalCommand (op : Byte)
  deriving DecidableEq, Repr

/-- The field `op`, bits 79:72 (R80). -/
def wordOp (w : CmdWord) : Byte := w.extractLsb' 72 8

/-- The field `a`, bits 71:64 (R80). -/
def wordA (w : CmdWord) : Byte := w.extractLsb' 64 8

/-- The field `d`, bits 63:0 (R80). -/
def wordD (w : CmdWord) : Word := w.extractLsb' 0 64

/-- The decoder: the command is told from `op` alone (R80), by the opcode map R84; every other `op` is illegal (R86). -/
def decode (w : CmdWord) : Except DecodeReject Instr :=
  match wordOp w with
  | 0x00#8 => .ok (.nop (wordA w) (wordD w))
  | 0x01#8 => .ok (.resetAll (wordA w) (wordD w))
  | 0x10#8 => .ok (.hufReset (wordA w) (wordD w))
  | 0x11#8 => .ok (.hufCount (wordA w) (wordD w))
  | 0x12#8 => .ok (.hufSetfreq (wordA w) (wordD w))
  | 0x13#8 => .ok (.hufBuild (wordA w) (wordD w))
  | 0x14#8 => .ok (.hufGencodes (wordA w) (wordD w))
  | 0x15#8 => .ok (.hufEncBegin (wordA w) (wordD w))
  | 0x16#8 => .ok (.hufEncSym (wordA w) (wordD w))
  | 0x17#8 => .ok (.hufEncEnd (wordA w) (wordD w))
  | 0x18#8 => .ok (.hufInByte (wordA w) (wordD w))
  | 0x19#8 => .ok (.hufInClear (wordA w) (wordD w))
  | 0x1A#8 => .ok (.hufDecBegin (wordA w) (wordD w))
  | 0x1B#8 => .ok (.hufDecSym (wordA w) (wordD w))
  | 0x1C#8 => .ok (.hufDecAll (wordA w) (wordD w))
  | 0x1D#8 => .ok (.hufDecEnd (wordA w) (wordD w))
  | 0x1E#8 => .ok (.hufRd (wordA w) (wordD w))
  | 0x20#8 => .ok (.acReset (wordA w) (wordD w))
  | 0x21#8 => .ok (.acModelInit (wordA w) (wordD w))
  | 0x22#8 => .ok (.acSetcnt (wordA w) (wordD w))
  | 0x23#8 => .ok (.acSettotal (wordA w) (wordD w))
  | 0x24#8 => .ok (.acInc (wordA w) (wordD w))
  | 0x25#8 => .ok (.acEncInit (wordA w) (wordD w))
  | 0x26#8 => .ok (.acEncSym (wordA w) (wordD w))
  | 0x27#8 => .ok (.acEncFinish (wordA w) (wordD w))
  | 0x28#8 => .ok (.acInByte (wordA w) (wordD w))
  | 0x29#8 => .ok (.acInClear (wordA w) (wordD w))
  | 0x2A#8 => .ok (.acDecInit (wordA w) (wordD w))
  | 0x2B#8 => .ok (.acDecSym (wordA w) (wordD w))
  | 0x2C#8 => .ok (.acDecEnd (wordA w) (wordD w))
  | 0x2D#8 => .ok (.acRd (wordA w) (wordD w))
  | op => .error (.illegalCommand op)

/-- The opcode of each command (R84). -/
def opcode : Instr → Byte
  | .nop _ _ => 0x00#8
  | .resetAll _ _ => 0x01#8
  | .hufReset _ _ => 0x10#8
  | .hufCount _ _ => 0x11#8
  | .hufSetfreq _ _ => 0x12#8
  | .hufBuild _ _ => 0x13#8
  | .hufGencodes _ _ => 0x14#8
  | .hufEncBegin _ _ => 0x15#8
  | .hufEncSym _ _ => 0x16#8
  | .hufEncEnd _ _ => 0x17#8
  | .hufInByte _ _ => 0x18#8
  | .hufInClear _ _ => 0x19#8
  | .hufDecBegin _ _ => 0x1A#8
  | .hufDecSym _ _ => 0x1B#8
  | .hufDecAll _ _ => 0x1C#8
  | .hufDecEnd _ _ => 0x1D#8
  | .hufRd _ _ => 0x1E#8
  | .acReset _ _ => 0x20#8
  | .acModelInit _ _ => 0x21#8
  | .acSetcnt _ _ => 0x22#8
  | .acSettotal _ _ => 0x23#8
  | .acInc _ _ => 0x24#8
  | .acEncInit _ _ => 0x25#8
  | .acEncSym _ _ => 0x26#8
  | .acEncFinish _ _ => 0x27#8
  | .acInByte _ _ => 0x28#8
  | .acInClear _ _ => 0x29#8
  | .acDecInit _ _ => 0x2A#8
  | .acDecSym _ _ => 0x2B#8
  | .acDecEnd _ _ => 0x2C#8
  | .acRd _ _ => 0x2D#8

/-- The operand field `a` of a command. -/
def operandA : Instr → Byte
  | .nop a _ => a
  | .resetAll a _ => a
  | .hufReset a _ => a
  | .hufCount a _ => a
  | .hufSetfreq a _ => a
  | .hufBuild a _ => a
  | .hufGencodes a _ => a
  | .hufEncBegin a _ => a
  | .hufEncSym a _ => a
  | .hufEncEnd a _ => a
  | .hufInByte a _ => a
  | .hufInClear a _ => a
  | .hufDecBegin a _ => a
  | .hufDecSym a _ => a
  | .hufDecAll a _ => a
  | .hufDecEnd a _ => a
  | .hufRd a _ => a
  | .acReset a _ => a
  | .acModelInit a _ => a
  | .acSetcnt a _ => a
  | .acSettotal a _ => a
  | .acInc a _ => a
  | .acEncInit a _ => a
  | .acEncSym a _ => a
  | .acEncFinish a _ => a
  | .acInByte a _ => a
  | .acInClear a _ => a
  | .acDecInit a _ => a
  | .acDecSym a _ => a
  | .acDecEnd a _ => a
  | .acRd a _ => a

/-- The operand field `d` of a command. -/
def operandD : Instr → Word
  | .nop _ d => d
  | .resetAll _ d => d
  | .hufReset _ d => d
  | .hufCount _ d => d
  | .hufSetfreq _ d => d
  | .hufBuild _ d => d
  | .hufGencodes _ d => d
  | .hufEncBegin _ d => d
  | .hufEncSym _ d => d
  | .hufEncEnd _ d => d
  | .hufInByte _ d => d
  | .hufInClear _ d => d
  | .hufDecBegin _ d => d
  | .hufDecSym _ d => d
  | .hufDecAll _ d => d
  | .hufDecEnd _ d => d
  | .hufRd _ d => d
  | .acReset _ d => d
  | .acModelInit _ d => d
  | .acSetcnt _ d => d
  | .acSettotal _ d => d
  | .acInc _ d => d
  | .acEncInit _ d => d
  | .acEncSym _ d => d
  | .acEncFinish _ d => d
  | .acInByte _ d => d
  | .acInClear _ d => d
  | .acDecInit _ d => d
  | .acDecSym _ d => d
  | .acDecEnd _ d => d
  | .acRd _ d => d

/-- The encoder: the command word of a command, `op` in bits 79:72, `a` in 71:64, `d` in 63:0 (R80). -/
def encode (i : Instr) : CmdWord := (opcode i ++ operandA i) ++ operandD i

/-- The command read from a word of `nbits` bits numbered as spec/opcode_table.json numbers them.
A command is one 80-bit word with no byte order (20_memory.md R69); the bits at and above `nbits` are 0. -/
def decodeTableWord (nbits w : Nat) : Option Instr :=
  (decode (BitVec.ofNat 80 (w % 2 ^ nbits))).toOption

end Sys2Proof
end

