-- ==== Sys2Proof/Machine/Port.lean ====
section
/-! DEFINITION. The command port: what the block takes from it at a step, and how the host presents a command
(30_encoding.md R80, 40_block_control.md R100). There is no program counter and no fetch from memory (10_state.md R22). -/

namespace Sys2Proof.Machine

/-- The next event that the host presents, and the state in which it has been taken from the port; `none` where the host
presents nothing (log 1). -/
def takeEvent (s : State) : Option (HostEvent × State) :=
  match s.port with
  | [] => none
  | e :: rest => some (e, { s with port := rest })

/-- The host presents a command word next, before whatever it was about to present. -/
def presentCommand (s : State) (w : CmdWord) : State := { s with port := .command w :: s.port }

end Sys2Proof.Machine
end

