-- ==== Sys2Proof/Machine/Step.lean ====
section
/-! DEFINITION. One step: the block takes the next event from its port and completes it (00_scope.md R9, 20_memory.md R73). -/

namespace Sys2Proof.Machine

/-- One step. A host that presents nothing leaves the block as it is (60_exceptions.md R246 H6); hardware reset is an event
between commands (70_reset_and_hazards.md R251); a command word is refused as illegal or processed
(40_block_control.md R100). -/
def step (s : State) : Host.Outcome State Fault Refusal :=
  match takeEvent s with
  | none => .next s
  | some (.hardwareReset, s') => .next (hardwareReset s')
  | some (.command w, s') =>
    match decode w with
    | .error _ => illegalCommand s'
    | .ok i => exec i s'

/-- `s` with the command word of bits `w` (numbered as spec/opcode_table.json numbers them, bits at and above `nbits`
zero) presented next at the command port, so that the next step processes it (log 1). -/
def State.withFetchWord (s : State) (nbits w : Nat) : State :=
  presentCommand s (BitVec.ofNat 80 (w % 2 ^ nbits))

end Sys2Proof.Machine
end

