-- ==== Sys2Proof/Machine/Assembly.lean ====
section
/-! DEFINITION. How the spec writes commands: the assembler syntax and its words (30_encoding.md R88), and the
pseudo-commands with their expansions (R89). -/

namespace Sys2Proof.Machine

/-! ### Numbers and operands (00_scope.md R11, 30_encoding.md R88) -/

/-- The value of a digit in a base; `none` for a character that is no digit of the base. -/
def digitValue (base : Nat) (c : Char) : Option Nat :=
  let v :=
    if '0' ≤ c ∧ c ≤ '9' then c.toNat - '0'.toNat
    else if 'a' ≤ c ∧ c ≤ 'f' then c.toNat - 'a'.toNat + 10
    else if 'A' ≤ c ∧ c ≤ 'F' then c.toNat - 'A'.toNat + 10
    else base
  if v < base then some v else none

/-- The number that digits write in a base, after the value of the digits before them. -/
def digitsValue (base : Nat) : Nat → List Char → Option Nat
  | n, [] => some n
  | n, c :: cs =>
    match digitValue base c with
    | none => none
    | some v => digitsValue base (base * n + v) cs

/-- A number of at least one digit. -/
def readDigits (base : Nat) (cs : List Char) : Option Nat :=
  if cs.isEmpty then none else digitsValue base 0 cs

/-- A number: decimal by default, `0x` hexadecimal, `0b` binary, `2^n` a power of two (00_scope.md R11). -/
def readNumber (cs : List Char) : Option Nat :=
  match cs with
  | '0' :: 'x' :: ds => readDigits 16 ds
  | '0' :: 'b' :: ds => readDigits 2 ds
  | '2' :: '^' :: ds => (readDigits 10 ds).map (2 ^ ·)
  | ds => readDigits 10 ds

/-- A number, or a character in single quotes meaning its ASCII code.
R88 grants the quoted character to a byte operand (`a`); DESIGN CHOICE (log 13): the data operand `d` takes it too. -/
def readOperand (cs : List Char) : Option Nat :=
  match cs with
  | ['\'', c, '\''] => if c.toNat < 128 then some c.toNat else none
  | _ => readNumber cs

/-- All operands, or `none` where one is malformed. -/
def readOperands : List (List Char) → Option (List Nat)
  | [] => some []
  | w :: ws =>
    match readOperand w, readOperands ws with
    | some n, some ns => some (n :: ns)
    | _, _ => none

/-- The texts between the separators, each a comma and a space. -/
def splitOperands : List Char → List (List Char)
  | [] => [[]]
  | ',' :: ' ' :: cs => [] :: splitOperands cs
  | c :: cs =>
    match splitOperands cs with
    | [] => [[c]]
    | w :: ws => (c :: w) :: ws

/-! ### The commands (30_encoding.md R84) -/

/-- The column "uses" of the opcode map: which operands are written, in the order `a` then `d`. -/
inductive AsmUses where
  | none
  | a
  | d
  | aAndD
  deriving DecidableEq, Repr

/-- One row of the opcode map as the assembler uses it. -/
structure AsmRow where
  mnemonic : String
  uses : AsmUses
  command : Byte → Word → Instr

/-- The 31 rows. -/
def asmRows : List AsmRow :=
  [⟨"NOP", .none, .nop⟩,
   ⟨"RESET_ALL", .none, .resetAll⟩,
   ⟨"HUF_RESET", .none, .hufReset⟩,
   ⟨"HUF_COUNT", .a, .hufCount⟩,
   ⟨"HUF_SETFREQ", .aAndD, .hufSetfreq⟩,
   ⟨"HUF_BUILD", .none, .hufBuild⟩,
   ⟨"HUF_GENCODES", .none, .hufGencodes⟩,
   ⟨"HUF_ENC_BEGIN", .none, .hufEncBegin⟩,
   ⟨"HUF_ENC_SYM", .a, .hufEncSym⟩,
   ⟨"HUF_ENC_END", .none, .hufEncEnd⟩,
   ⟨"HUF_IN_BYTE", .a, .hufInByte⟩,
   ⟨"HUF_IN_CLEAR", .none, .hufInClear⟩,
   ⟨"HUF_DEC_BEGIN", .none, .hufDecBegin⟩,
   ⟨"HUF_DEC_SYM", .none, .hufDecSym⟩,
   ⟨"HUF_DEC_ALL", .none, .hufDecAll⟩,
   ⟨"HUF_DEC_END", .none, .hufDecEnd⟩,
   ⟨"HUF_RD", .aAndD, .hufRd⟩,
   ⟨"AC_RESET", .none, .acReset⟩,
   ⟨"AC_MODEL_INIT", .none, .acModelInit⟩,
   ⟨"AC_SETCNT", .aAndD, .acSetcnt⟩,
   ⟨"AC_SETTOTAL", .d, .acSettotal⟩,
   ⟨"AC_INC", .a, .acInc⟩,
   ⟨"AC_ENC_INIT", .none, .acEncInit⟩,
   ⟨"AC_ENC_SYM", .a, .acEncSym⟩,
   ⟨"AC_ENC_FINISH", .none, .acEncFinish⟩,
   ⟨"AC_IN_BYTE", .a, .acInByte⟩,
   ⟨"AC_IN_CLEAR", .none, .acInClear⟩,
   ⟨"AC_DEC_INIT", .none, .acDecInit⟩,
   ⟨"AC_DEC_SYM", .none, .acDecSym⟩,
   ⟨"AC_DEC_END", .none, .acDecEnd⟩,
   ⟨"AC_RD", .aAndD, .acRd⟩]

/-- The command of a row with its operands; `none` where their number is not the row's, or one does not fit its field. -/
def AsmRow.build (r : AsmRow) (operands : List Nat) : Option Instr :=
  match r.uses, operands with
  | .none, [] => some (r.command 0 0)
  | .a, [a] => if a < 2 ^ 8 then some (r.command (BitVec.ofNat 8 a) 0) else none
  | .d, [d] => if d < 2 ^ 64 then some (r.command 0 (BitVec.ofNat 64 d)) else none
  | .aAndD, [a, d] =>
    if a < 2 ^ 8 ∧ d < 2 ^ 64 then some (r.command (BitVec.ofNat 8 a) (BitVec.ofNat 64 d)) else none
  | _, _ => none

/-! ### Lines and programs (30_encoding.md R88) -/

/-- A line without its comment, which `;` starts, and without spaces at its end. -/
def stripComment (line : List Char) : List Char :=
  ((line.takeWhile (· != ';')).reverse.dropWhile (· == ' ')).reverse

/-- The command that `MNEMONIC` and its operands write. -/
def readCommand (cs : List Char) : Option Instr :=
  match asmRows.find? fun r => r.mnemonic.toList == cs.takeWhile (· != ' ') with
  | none => none
  | some r =>
    match cs.dropWhile (· != ' ') with
    | [] => r.build []
    | _ :: rest =>
      match readOperands (splitOperands rest) with
      | none => none
      | some operands => r.build operands

/-- The commands of a line: one, or none where the line is empty or a comment; `none` where the line is malformed. -/
def assembleLine (line : String) : Option (List Instr) :=
  match stripComment line.toList with
  | [] => some []
  | cs => (readCommand cs).map ([·])

/-- The command words of a program, one line each (R88; the words of R80). -/
def assemble : List String → Option (List CmdWord)
  | [] => some []
  | l :: ls =>
    match assembleLine l, assemble ls with
    | some is, some ws => some (is.map encode ++ ws)
    | _, _ => none

/-! ### Pseudo-commands (30_encoding.md R89) -/

/-- The pseudo-commands: host-side abbreviations, no command words. -/
inductive Pseudo where
  | hufCountBytes (bs : List Byte)
  | hufEncBytes (bs : List Byte)
  | hufInBytes (bs : List Byte)
  | acInBytes (bs : List Byte)
  | acModelLoad (cnt : Vector (BitVec 32) 256)
  | hufEncode (bs : List Byte)
  deriving DecidableEq, Repr

/-- `c0 + ... + c255`, at most `256 * (2^32 - 1) < 2^40`. -/
def countSum (cnt : Vector (BitVec 32) 256) : Nat := cnt.toList.foldl (fun n c => n + c.toNat) 0

/-- The listed commands, in order. -/
def Pseudo.expand : Pseudo → List Instr
  | .hufCountBytes bs => bs.map fun b => .hufCount b 0
  | .hufEncBytes bs => bs.map fun b => .hufEncSym b 0
  | .hufInBytes bs => bs.map fun b => .hufInByte b 0
  | .acInBytes bs => bs.map fun b => .acInByte b 0
  | .acModelLoad cnt =>
    ((List.range 256).map fun i =>
      Instr.acSetcnt (BitVec.ofNat 8 i) ((tableRead cnt (BitVec.ofNat 8 i)).setWidth 64)) ++
    [.acSettotal 0 (BitVec.ofNat 64 (countSum cnt))]
  | .hufEncode bs =>
    [.hufReset 0 0] ++ (bs.map fun b => Instr.hufCount b 0) ++ [.hufBuild 0 0, .hufGencodes 0 0, .hufEncBegin 0 0] ++
    (bs.map fun b => Instr.hufEncSym b 0) ++ [.hufEncEnd 0 0]

/-- The commands of an expansion, in order; one that does not answer `OK` (a fault or refusal) ends it. -/
def runExpansion : List Instr → State → Result
  | [], s => .next s
  | i :: is, s =>
    match exec i s with
    | .next t => if (t.responses.head?.map (·.status)) = some .ok then runExpansion is t else .next t
    | .fault f => .fault f
    | .refused r => .refused r

/-- A pseudo-command on a state. -/
def runPseudo (p : Pseudo) (s : State) : Result := runExpansion p.expand s

end Sys2Proof.Machine
end

