-- ==== Sys2Proof/Safety.lean ====
section
/-! DEFINITION. What counts as a safe state: the invariants of 10_state.md R34 and R46 with the widths and capacities of
10_state.md and 20_memory.md R63, as decidable propositions. -/

namespace Sys2Proof.Machine

/-! ### Memories -/

/-- Every buffer is within its capacity (10_state.md R31, R32, R41, R42): the form that the block's memories keep. -/
abbrev Memory.wf (s : State) : Prop :=
  fitsCap s.params.outCap s.huf.obuf.length = true ∧ fitsCap s.params.inCap s.huf.ibuf.length = true ∧
  fitsCap s.params.outCap s.ac.obuf.length = true ∧ fitsCap s.params.inCap s.ac.ibuf.length = true

/-- The bits of a packer above its `N` collected bits are 0 (10_state.md R30, R40). -/
abbrev PackerOk (pk : Packer) : Prop := pk.acc.toNat < 2 ^ pk.n.toNat

/-- A fault latch holds 0 or the code of a fault that some command raises (60_exceptions.md R226). -/
abbrev LatchOk (fault : BitVec 8) : Prop := fault.toNat ≤ 8 ∧ fault.toNat ≠ 1

/-! ### The Huffman tree (10_state.md R34 (a), 41_huffman_tree.md R116) -/

/-- `H_NODE[i]`; an index beyond the arena reads as an empty entry. -/
def nodeAt (h : HufState) (i : Nat) : HufNode := (h.node[i]?).getD HufNode.zero

/-- Entry `b` is the leaf of byte `b` if `H_FREQ[b] > 0`, else empty (R113). -/
abbrev LeavesOk (h : HufState) : Prop :=
  ∀ b : Byte, nodeAt h b.toNat = if tableRead h.freq b = 0 then HufNode.zero else leafNode (tableRead h.freq b)

/-- Entries `256 .. 255 + H_NINT` are internal nodes whose two distinct children are nodes created before them, with the
sum of the children's weights; the entries above are empty (10_state.md R27, R28). -/
abbrev InternalOk (h : HufState) : Prop :=
  ∀ i : Nat, i < 511 → 256 ≤ i →
    if i < 256 + h.nint.toNat then
      (nodeAt h i).v = true ∧ (nodeAt h i).leaf = false ∧
      (nodeAt h i).left.toNat < i ∧ (nodeAt h i).right.toNat < i ∧ (nodeAt h i).left ≠ (nodeAt h i).right ∧
      (nodeAt h (nodeAt h i).left.toNat).v = true ∧ (nodeAt h (nodeAt h i).right.toNat).v = true ∧
      (nodeAt h i).w.toNat = (nodeAt h (nodeAt h i).left.toNat).w.toNat + (nodeAt h (nodeAt h i).right.toNat).w.toNat
    else nodeAt h i = HufNode.zero

/-- The internal nodes, by index, that have node `i` as a child. -/
def parents (h : HufState) (i : Nat) : List Nat :=
  ((List.range h.nint.toNat).map (256 + ·)).filter fun j =>
    (nodeAt h j).left.toNat = i || (nodeAt h j).right.toNat = i

/-- Every node other than the root is the child of exactly one internal node (R116). -/
abbrev ParentsOk (h : HufState) : Prop :=
  ∀ i : Nat, i < 511 → (nodeAt h i).v = true → i ≠ h.root.toNat → (parents h i).length = 1

/-- The root: the one leaf where there is no internal node, else the internal node created last (R116). -/
abbrev RootOk (h : HufState) : Prop :=
  if h.nint = 0 then h.root.toNat < 256 ∧ (nodeAt h h.root.toNat).v = true
  else h.root.toNat = 255 + h.nint.toNat

/-- The arena is the binary tree of the frequency table (10_state.md R34 (a), 41_huffman_tree.md R116). -/
abbrev TreeOk (h : HufState) : Prop :=
  h.nint.toNat + 1 = (presentBytes h.freq).length ∧ LeavesOk h ∧ InternalOk h ∧ ParentsOk h ∧ RootOk h

/-! ### The code table (10_state.md R34 (b), 41_huffman_tree.md R119) -/

/-- The node reached from node `i` along edge labels, "0" to `LEFT` and "1" to `RIGHT` (R119). -/
def followPath (node : Vector HufNode 511) (i : BitVec 9) : List Bool → Option (BitVec 9)
  | [] => some i
  | bit :: path =>
    match viewNode node i with
    | .internal left right => followPath node (if bit then right else left) path
    | .leaf _ | .broken => none

/-- `path` is the code of byte `b` (R119): the root-to-leaf path, or the 1-bit string "0" for a single leaf. -/
abbrev IsCode (h : HufState) (b : Byte) (path : List Bool) : Prop :=
  if h.root.toNat < 256 then b = h.root.setWidth 8 ∧ path = [false]
  else (followPath h.node h.root path).map (viewNode h.node) = some (.leaf b)

/-- Exactly the bytes with a non-zero frequency have a code, and it is their path (R118, R119); unused code bits are 0. -/
abbrev CodesOk (h : HufState) : Prop :=
  ∀ b : Byte,
    tableRead h.code.cbits b = packCode (codeOf h.code b) ∧
    if tableRead h.freq b = 0 then tableRead h.code.clen b = 0
    else tableRead h.code.clen b ≠ 0 ∧ IsCode h b (codeOf h.code b)

/-! ### The engines' invariants -/

/-- The invariant of the Huffman engine (10_state.md R34).
In mode `DEC` the input buffer is the payload whose code bits `H_NBITS` counts, since it cannot change (20_memory.md R64). -/
abbrev HufInv (h : HufState) : Prop :=
  LatchOk h.fault ∧ PackerOk h.pk ∧
  (h.mode ≠ .enc → h.pk = Packer.empty) ∧
  (h.mode ≠ .freq → TreeOk h) ∧
  (h.mode = .ready ∨ h.mode = .enc ∨ h.mode = .dec → CodesOk h) ∧
  (h.mode = .dec → payloadBits h.ibuf = some h.nbits.toNat ∧ h.cur.toNat ≤ h.nbits.toNat)

/-- The interval is normalised (10_state.md R46 (a) to (c)). -/
abbrev IntervalOk (low high : Nat) : Prop :=
  low < half ∧ half ≤ high ∧ ¬ (quarter ≤ low ∧ high < threeQuarter)

/-- The invariant of the arithmetic-coder engine (10_state.md R46). -/
abbrev AcInv (c : AcState) : Prop :=
  LatchOk c.fault ∧ PackerOk c.pk ∧
  (c.mode ≠ .enc → c.pk = Packer.empty) ∧
  (c.mode = .enc ∨ c.mode = .dec → IntervalOk c.low.toNat c.high.toNat) ∧
  (c.mode = .dec → c.low.toNat ≤ c.value.toNat ∧ c.value.toNat ≤ c.high.toNat) ∧
  (c.mode = .enc → 8 ≤ c.obuf.length)

/-- The invariant of the machine, for a build with finite capacities (20_memory.md R63: so that bit counts fit 64 bits). -/
abbrev Inv (s : State) : Prop :=
  s.params.wf = true ∧ s.params.bounded = true ∧ Memory.wf s ∧ HufInv s.huf ∧ AcInv s.ac

/-- A safe run: `k` steps from `s` all answer a next state. -/
def RunAnswers (k : Nat) (s : State) : Prop :=
  ∃ t : State, Host.Core.run Sys2Proof.core k s = .next t

end Sys2Proof.Machine
end

