-- ==== Sys2Proof/Certificates/Slice0/Obligations.lean ====
section
/-! DEFINITION. The statements for the provers, and the tables and notions of the spec that they are written with. -/

namespace Sys2Proof.Statements

open Sys2Proof.Machine

/-! ### Notions of the spec used by the statements -/

/-- The state with one more response word. -/
def replied (s : State) (st : Status) (res : Word) : State :=
  { s with responses := { status := st, res := res } :: s.responses }

/-- The state after a Huffman command faults with `st` (60_exceptions.md R229): the latch gets the code of R226. -/
def hufFaulted (s : State) (st : Status) : State :=
  replied { s with huf := { s.huf with fault := statusCode st } } st 0

/-- The state after an AC command faults with `st` (60_exceptions.md R229). -/
def acFaulted (s : State) (st : Status) : State :=
  replied { s with ac := { s.ac with fault := statusCode st } } st 0

/-- The unit that `op[7:4]` selects (30_encoding.md R84): none for block control. -/
def unitOf (i : Instr) : Option Engine :=
  if (opcode i).extractLsb' 4 4 = 1 then some .huf
  else if (opcode i).extractLsb' 4 4 = 2 then some .ac
  else none

/-- The three reset commands (60_exceptions.md R231 step 3). -/
def isReset : Instr → Bool
  | .resetAll _ _ | .hufReset _ _ | .acReset _ _ => true
  | _ => false

/-- The two `STATUS` reads (60_exceptions.md R231 step 4). -/
def isStatusRead : Instr → Bool
  | .hufRd a _ | .acRd a _ => a == 0
  | _ => false

/-- The mode of the Huffman engine after a command completes with `OK`, by the table of 70_reset_and_hazards.md R252;
`none` is the entry "-". Commands of the other rows of the opcode map leave it. -/
def hufTransition (i : Instr) (m : HufMode) : Option HufMode :=
  match i, m with
  | .resetAll _ _, _ | .hufReset _ _, _ => some .freq
  | .hufCount _ _, .freq | .hufSetfreq _ _, .freq => some .freq
  | .hufBuild _ _, .freq => some .tree
  | .hufGencodes _ _, .tree => some .ready
  | .hufEncBegin _ _, .ready => some .enc
  | .hufEncSym _ _, .enc => some .enc
  | .hufEncEnd _ _, .enc => some .ready
  | .hufInByte _ _, .dec | .hufInClear _ _, .dec => none
  | .hufInByte _ _, m | .hufInClear _ _, m => some m
  | .hufDecBegin _ _, .ready => some .dec
  | .hufDecSym _ _, .dec => some .dec
  | .hufDecAll _ _, .dec => some .ready
  | .hufDecEnd _ _, .dec => some .ready
  | .hufCount _ _, _ | .hufSetfreq _ _, _ | .hufBuild _ _, _ | .hufGencodes _ _, _ | .hufEncBegin _ _, _
  | .hufEncSym _ _, _ | .hufEncEnd _ _, _ | .hufDecBegin _ _, _ | .hufDecSym _ _, _ | .hufDecAll _ _, _
  | .hufDecEnd _ _, _ => none
  | .hufRd a _, m =>
    if a = 0 ∨ a = 1 ∨ a = 8 then some m
    else if a = 2 ∨ a = 3 then (if m = .freq then none else some m)
    else if a = 4 ∨ a = 5 then (if m = .freq ∨ m = .tree then none else some m)
    else if a = 6 ∨ a = 7 then (if m = .ready then some m else none)
    else (if m = .dec then some m else none)
  | _, m => some m

/-- The mode of the arithmetic-coder engine after a command completes with `OK`, by the table of 70_reset_and_hazards.md
R253; `none` is the entry "-". -/
def acTransition (i : Instr) (m : AcMode) : Option AcMode :=
  match i, m with
  | .resetAll _ _, _ | .acReset _ _, _ => some .idle
  | .acEncInit _ _, .idle | .acEncInit _ _, .done => some .enc
  | .acEncInit _ _, _ => none
  | .acEncSym _ _, .enc => some .enc
  | .acEncSym _ _, _ => none
  | .acEncFinish _ _, .enc => some .done
  | .acEncFinish _ _, _ => none
  | .acInByte _ _, .dec | .acInClear _ _, .dec => none
  | .acDecInit _ _, .idle | .acDecInit _ _, .done => some .dec
  | .acDecInit _ _, _ => none
  | .acDecSym _ _, .dec => some .dec
  | .acDecSym _ _, _ => none
  | .acDecEnd _ _, .dec => some .idle
  | .acDecEnd _ _, _ => none
  | .acRd a _, m => if a = 7 ∨ a = 8 then (if m = .done then some m else none) else some m
  | _, m => some m

/-- How many indices a selector of `HUF_RD` takes: a legal `d` is below this number, and a selector that takes no index
takes `d = 0` only (43_huffman_unpacker.md R158). -/
def hufIndexCount (h : HufState) (a : Byte) : Nat :=
  if a = 1 ∨ a = 4 then 256
  else if a = 2 then 511
  else if a = 5 then 1024
  else if a = 7 then h.obuf.length
  else 1

/-- How many indices a selector of `AC_RD` takes (47_ac_decoder.md R218). -/
def acIndexCount (c : AcState) (a : Byte) : Nat :=
  if a = 5 then 256 else if a = 8 then c.obuf.length else 1

/-- The 8 bits of a byte, most significant first. -/
def byteBits (b : Byte) : List Bool := (List.range 8).map fun i => b.getLsbD (7 - i)

/-- The bit string that a packer and its buffer hold: the bits of the complete bytes, then the `N` collected bits, oldest
first (42_huffman_packer.md R132, 10_state.md R30). -/
def packedBits (pk : Packer) (out : List Byte) : List Bool :=
  out.flatMap byteBits ++ (List.range pk.n.toNat).map fun i => pk.acc.getLsbD (pk.n.toNat - 1 - i)

/-- There is room to append `k` bytes to a buffer of `n` bytes. -/
def Room (cap : Option Nat) (n k : Nat) : Prop := k = 0 ∨ fitsCap cap (n + k) = true

/-- The code bits that a decode has not read yet. -/
def unreadBits (h : HufState) : List Bool :=
  (List.range (h.nbits.toNat - h.cur.toNat)).map fun j => (bitAt h.ibuf (h.cur.toNat + j)).getD false

/-- The byte has a code. -/
def Coded (h : HufState) (b : Byte) : Prop := tableRead h.code.clen b ≠ 0

/-- The Huffman engine is decoding a payload with the code table of its tree (10_state.md R34). -/
def Decoding (h : HufState) : Prop :=
  h.mode = .dec ∧ TreeOk h ∧ CodesOk h ∧ payloadBits h.ibuf = some h.nbits.toNat ∧ h.cur.toNat ≤ h.nbits.toNat

/-- Node `i` is live before merge `k`: a node created by then that is no child of a node created by then (R113). -/
def Live (h : HufState) (k i : Nat) : Prop :=
  (nodeAt h i).v = true ∧ i < 256 + k ∧
    ∀ j, 256 ≤ j → j < 256 + k → (nodeAt h j).left.toNat ≠ i ∧ (nodeAt h j).right.toNat ≠ i

/-- The node order (41_huffman_tree.md R114). -/
def NodeLess (h : HufState) (i j : Nat) : Prop :=
  (nodeAt h i).w.toNat < (nodeAt h j).w.toNat ∨ ((nodeAt h i).w = (nodeAt h j).w ∧ i < j)

/-- Every piece of Huffman-engine state at its reset value (10_state.md R48). -/
def HufIsReset (h : HufState) : Prop :=
  h.mode = .freq ∧ h.fault = 0 ∧ (∀ b, tableRead h.freq b = 0) ∧
  (∀ i (hi : i < 511), h.node[i] = { v := false, leaf := false, left := 0, right := 0, w := 0 }) ∧
  h.root = 0 ∧ h.nint = 0 ∧ (∀ b, tableRead h.code.clen b = 0) ∧ (∀ b, tableRead h.code.cbits b = 0) ∧
  h.pk = { acc := 0, n := 0 } ∧ h.obuf = [] ∧ h.ibuf = [] ∧ h.nbits = 0 ∧ h.cur = 0

/-- Every piece of AC-engine state at its reset value (10_state.md R48). -/
def AcIsReset (c : AcState) : Prop :=
  c.mode = .idle ∧ c.fault = 0 ∧ c.low = 0 ∧ c.high = 0xFFFFFFFFFFFFFFFF ∧ c.pending = 0 ∧ c.value = 0 ∧
  (∀ b, tableRead c.cnt b = 1) ∧ c.total = 256 ∧ c.pk = { acc := 0, n := 0 } ∧ c.obuf = [] ∧ c.ibuf = [] ∧
  c.nsym = 0 ∧ c.remain = 0 ∧ c.cur = 0

/-- The commands of a list, one after the other. -/
def execAll : List Instr → State → Result
  | [], s => .next s
  | i :: is, s =>
    match exec i s with
    | .next t => execAll is t
    | .fault f => .fault f
    | .refused r => .refused r

/-- A result with the AC engine of its next state replaced. -/
def mapAc (c : AcState) : Result → Result
  | .next t => .next { t with ac := c }
  | .fault f => .fault f
  | .refused r => .refused r

/-- A result with the Huffman engine of its next state replaced. -/
def mapHuf (h : HufState) : Result → Result
  | .next t => .next { t with huf := h }
  | .fault f => .fault f
  | .refused r => .refused r

/-- The first scaled cumulative count: `low'` of narrowing (45_ac_encoder.md R178). -/
def narrowLow (low high cl total : Nat) : Nat := low + (high - low + 1) * cl / total

/-- `high'` of narrowing (45_ac_encoder.md R178). -/
def narrowHigh (low high ch total : Nat) : Nat := low + (high - low + 1) * ch / total - 1

/-- The AC engine is in mode `m` with a normalised interval and a valid table (10_state.md R46, 44_ac_model_port.md R170). -/
def Coding (c : AcState) (m : AcMode) : Prop :=
  c.mode = m ∧ c.fault = 0 ∧ tableValid c.cnt c.total = true ∧ IntervalOk c.low.toNat c.high.toNat

/-- The commands that encode a stream, each symbol with its own table of counts (47_ac_decoder.md section 3: "present tables
`M_0, M_1, ..., M_(n-1)`"); a table is presented by the host's `AC_MODEL_LOAD` (30_encoding.md section 4). -/
def encodeCommands (ms : List (Vector (BitVec 32) 256 × Byte)) : List Instr :=
  [.acEncInit 0 0] ++ ms.flatMap fun m => (Pseudo.acModelLoad m.1).expand ++ [.acEncSym m.2 0]

/-- The commands that decode the stream, presented the same tables in the same order. -/
def decodeCommands (ms : List (Vector (BitVec 32) 256 × Byte)) : List Instr :=
  [.acDecInit 0 0] ++ ms.flatMap fun m => (Pseudo.acModelLoad m.1).expand ++ [.acDecSym 0 0]

/-- What the decode commands of the first symbols of a stream of `n` symbols answer, newest first, where the symbols come
back: the number of symbols, then for each symbol 257 times `OK` for the table and the symbol. -/
def decodeAnswers (n : Nat) (ms : List (Vector (BitVec 32) 256 × Byte)) : List Response :=
  let ok (v : Word) : Response := { status := .ok, res := v }
  ([ok (BitVec.ofNat 64 n)] ++ ms.flatMap fun m => List.replicate 257 (ok 0) ++ [ok (m.2.setWidth 64)]).reverse

end Sys2Proof.Statements

open Sys2Proof Sys2Proof.Machine Sys2Proof.Statements

/-! ### Encoding -/

/-- 30_encoding.md R80: the decoder of an encoded command, with every operand value, gives the command back. -/
def Obligations.DecodeInvertsEncode : Prop := ∀ i : Instr, decode (encode i) = .ok i

/-- 30_encoding.md R80: a word that decodes to a command is the encoding of that command, so no bit of it is dropped; its
fields are `op` in bits 79:72, `a` in bits 71:64 and `d` in bits 63:0; `op` alone tells the command. -/
def Obligations.EncodeInvertsDecode : Prop :=
  (∀ (w : CmdWord) (i : Instr), decode w = .ok i →
    encode i = w ∧ opcode i = w.extractLsb' 72 8 ∧ operandA i = w.extractLsb' 64 8 ∧ operandD i = w.extractLsb' 0 64) ∧
  (∀ (w v : CmdWord) (i : Instr), decode w = .ok i → v.extractLsb' 72 8 = w.extractLsb' 72 8 →
    ∃ j, decode v = .ok j ∧ opcode j = opcode i)

/-- 30_encoding.md R86: exactly the opcodes 0x02 to 0x0F, 0x1F and 0x2E to 0xFF are illegal, and such a word presented at
the port is refused in every state with `RES = 0`, changing nothing in either engine. -/
def Obligations.UnlistedOpcodesAreIllegal : Prop :=
  ∀ w : CmdWord,
    let op := (w.extractLsb' 72 8).toNat
    let illegal := (0x02 ≤ op ∧ op ≤ 0x0F) ∨ op = 0x1F ∨ 0x2E ≤ op
    ((∃ r, decode w = .error r) ↔ illegal) ∧
    (illegal → ∀ (s : State) (rest : List HostEvent), s.port = .command w :: rest →
      step s = .next (replied { s with port := rest } .illegalCommand 0))

/-- One word of each of the 31 rows of 30_encoding.md section 2, written out from the format, decodes to its command; the
seven lines of section 4 assemble to the words that the spec lists for them. -/
def Obligations.ListedWordsDecode : Prop :=
  decode 0x00000000000000000000#80 = .ok (.nop 0 0) ∧
  decode 0x01000000000000000000#80 = .ok (.resetAll 0 0) ∧
  decode 0x10000000000000000000#80 = .ok (.hufReset 0 0) ∧
  decode 0x11410000000000000000#80 = .ok (.hufCount 0x41 0) ∧
  decode 0x12610000000000000005#80 = .ok (.hufSetfreq 0x61 5) ∧
  decode 0x13000000000000000000#80 = .ok (.hufBuild 0 0) ∧
  decode 0x14000000000000000000#80 = .ok (.hufGencodes 0 0) ∧
  decode 0x15000000000000000000#80 = .ok (.hufEncBegin 0 0) ∧
  decode 0x16430000000000000000#80 = .ok (.hufEncSym 0x43 0) ∧
  decode 0x17000000000000000000#80 = .ok (.hufEncEnd 0 0) ∧
  decode 0x18AA0000000000000000#80 = .ok (.hufInByte 0xAA 0) ∧
  decode 0x19000000000000000000#80 = .ok (.hufInClear 0 0) ∧
  decode 0x1A000000000000000000#80 = .ok (.hufDecBegin 0 0) ∧
  decode 0x1B000000000000000000#80 = .ok (.hufDecSym 0 0) ∧
  decode 0x1C000000000000000000#80 = .ok (.hufDecAll 0 0) ∧
  decode 0x1D000000000000000000#80 = .ok (.hufDecEnd 0 0) ∧
  decode 0x1E070000000000000003#80 = .ok (.hufRd 7 3) ∧
  decode 0x20000000000000000000#80 = .ok (.acReset 0 0) ∧
  decode 0x21000000000000000000#80 = .ok (.acModelInit 0 0) ∧
  decode 0x22070000000000000064#80 = .ok (.acSetcnt 7 0x64) ∧
  decode 0x23000000000000000101#80 = .ok (.acSettotal 0 0x101) ∧
  decode 0x24070000000000000000#80 = .ok (.acInc 7 0) ∧
  decode 0x25000000000000000000#80 = .ok (.acEncInit 0 0) ∧
  decode 0x26610000000000000000#80 = .ok (.acEncSym 0x61 0) ∧
  decode 0x27000000000000000000#80 = .ok (.acEncFinish 0 0) ∧
  decode 0x28610000000000000000#80 = .ok (.acInByte 0x61 0) ∧
  decode 0x29000000000000000000#80 = .ok (.acInClear 0 0) ∧
  decode 0x2A000000000000000000#80 = .ok (.acDecInit 0 0) ∧
  decode 0x2B000000000000000000#80 = .ok (.acDecSym 0 0) ∧
  decode 0x2C000000000000000000#80 = .ok (.acDecEnd 0 0) ∧
  decode 0x2D050000000000000061#80 = .ok (.acRd 5 0x61) ∧
  assemble ["NOP"] = some [0x00000000000000000000#80] ∧
  assemble ["HUF_COUNT 'A'"] = some [0x11410000000000000000#80] ∧
  assemble ["HUF_SETFREQ 0x61, 5"] = some [0x12610000000000000005#80] ∧
  assemble ["HUF_RD 7, 3"] = some [0x1E070000000000000003#80] ∧
  assemble ["AC_SETTOTAL 257"] = some [0x23000000000000000101#80] ∧
  assemble ["AC_ENC_SYM 'a'"] = some [0x26610000000000000000#80] ∧
  assemble ["AC_RD 5, 97"] = some [0x2D050000000000000061#80]

/-- 60_exceptions.md section 1, 10_state.md sections 2 and 3, 30_encoding.md section 1: the numeric status codes with their
kinds, the numbers of the modes of both engines, and the layout of the response word. -/
def Obligations.CodesAndResponseLayout : Prop :=
  statusCode .ok = 0x00#8 ∧ statusCode .emptyInput = 0x01#8 ∧ statusCode .invalidArchive = 0x02#8 ∧
  statusCode .symbolNotFound = 0x03#8 ∧ statusCode .corruptHuffmanTree = 0x04#8 ∧ statusCode .decodeDesync = 0x05#8 ∧
  statusCode .badModel = 0x06#8 ∧ statusCode .counterOverflow = 0x07#8 ∧ statusCode .bufferFull = 0x08#8 ∧
  statusCode .illegalCommand = 0x10#8 ∧ statusCode .badOperand = 0x11#8 ∧ statusCode .sequenceError = 0x12#8 ∧
  statusCode .faulted = 0x13#8 ∧
  (∀ st, isFaultStatus st = true ↔ 0x01 ≤ (statusCode st).toNat ∧ (statusCode st).toNat ≤ 0x08) ∧
  (∀ st, isRefusalStatus st = true ↔ 0x10 ≤ (statusCode st).toNat ∧ (statusCode st).toNat ≤ 0x13) ∧
  hufModeCode .freq = 0#3 ∧ hufModeCode .tree = 1#3 ∧ hufModeCode .ready = 2#3 ∧ hufModeCode .enc = 3#3 ∧
  hufModeCode .dec = 4#3 ∧
  acModeCode .idle = 0#2 ∧ acModeCode .enc = 1#2 ∧ acModeCode .done = 2#2 ∧ acModeCode .dec = 3#2 ∧
  (∀ r : Response, (responseWord r).extractLsb' 64 8 = statusCode r.status ∧ (responseWord r).extractLsb' 0 64 = r.res)

/-! ### Steps -/

/-- 40_block_control.md section 1: where the word at the port decodes to a command, the step takes it from the port and is
that command's meaning; a word presented with `withFetchWord` is the next one taken. -/
def Obligations.StepProcessesTheCommand : Prop :=
  (∀ (s : State) (w : CmdWord) (rest : List HostEvent) (i : Instr),
    s.port = .command w :: rest → decode w = .ok i → step s = exec i { s with port := rest }) ∧
  (∀ (s : State) (w : Nat) (i : Instr), decode (BitVec.ofNat 80 w) = .ok i → step (s.withFetchWord 80 w) = exec i s)

/-- 70_reset_and_hazards.md section 1, 60_exceptions.md section 9: with nothing presented a step leaves the state as it
is; hardware reset puts every piece of both engines at its reset value and produces no response. That the port is a list
in State is the model's choice (log 1), and that responses already produced are kept over a reset too (log 2, log 4). -/
def Obligations.IdleAndHardwareResetSteps : Prop :=
  (∀ s : State, s.port = [] → step s = .next s) ∧
  (∀ (s : State) (rest : List HostEvent), s.port = .hardwareReset :: rest →
    ∃ h c, step s = .next { s with huf := h, ac := c, port := rest } ∧ HufIsReset h ∧ AcIsReset c)

/-- 10_state.md R48: every piece of state after hardware reset, `RESET_ALL` or, for its own engine only, `HUF_RESET` and
`AC_RESET`, in every mode and with a fault latched. -/
def Obligations.ResetLeavesTheListedValues : Prop :=
  (∀ p : Params, HufIsReset (State.resetOf p).huf ∧ AcIsReset (State.resetOf p).ac) ∧
  (∀ s : State, HufIsReset (hardwareReset s).huf ∧ AcIsReset (hardwareReset s).ac) ∧
  (∀ s : State, ∃ h c, exec (.resetAll 0 0) s = .next (replied { s with huf := h, ac := c } .ok 0) ∧
    HufIsReset h ∧ AcIsReset c) ∧
  (∀ s : State, ∃ h, exec (.hufReset 0 0) s = .next (replied { s with huf := h } .ok 0) ∧ HufIsReset h) ∧
  (∀ s : State, ∃ c, exec (.acReset 0 0) s = .next (replied { s with ac := c } .ok 0) ∧ AcIsReset c)

/-- 40_block_control.md R104: `NOP` answers `OK` in every state and changes nothing; a non-zero operand is refused. -/
def Obligations.NopAnswersAndChangesNothing : Prop :=
  ∀ (a : Byte) (d : Word) (s : State),
    (a = 0 ∧ d = 0 → exec (.nop a d) s = .next (replied s .ok 0)) ∧
    (¬ (a = 0 ∧ d = 0) → exec (.nop a d) s = .next (replied s .badOperand 0))

/-! ### The rules common to all commands -/

/-- 60_exceptions.md section 3, steps 2, 4 and 5: the static operand check comes first, then the latch of the command's
engine (resets and `STATUS` reads excepted), then the mode; each failing check refuses and changes nothing. -/
def Obligations.ChecksInFixedOrder : Prop :=
  ∀ (i : Instr) (s : State),
    (i.wellFormed = false → exec i s = .next (replied s .badOperand 0)) ∧
    (i.wellFormed = true → isReset i = false → ∀ e, unitOf i = some e →
      (faultLatch e s ≠ 0 → isStatusRead i = false → exec i s = .next (replied s .faulted 0)) ∧
      (faultLatch e s = 0 ∨ isStatusRead i = true →
        hufTransition i s.huf.mode = none ∨ acTransition i s.ac.mode = none →
        exec i s = .next (replied s .sequenceError 0)))

/-- 70_reset_and_hazards.md section 2, the two mode tables, which the spec marks as derived from the "Modes" entry of every
command's rule. A command that completes with `OK` was legal in the modes and
leaves the modes of the tables; one that does not complete with `OK` leaves both modes; an entry "-" is refused with
`SequenceError` (for a command with legal operands whose engine has no fault latched). -/
def Obligations.ModeTablesHold : Prop :=
  ∀ (i : Instr) (s : State),
    (∀ (t : State) (r : Response), exec i s = .next t → t.responses = r :: s.responses →
      (r.status = .ok → hufTransition i s.huf.mode = some t.huf.mode ∧ acTransition i s.ac.mode = some t.ac.mode) ∧
      (r.status ≠ .ok → t.huf.mode = s.huf.mode ∧ t.ac.mode = s.ac.mode)) ∧
    (i.wellFormed = true → s.huf.fault = 0 → s.ac.fault = 0 →
      hufTransition i s.huf.mode = none ∨ acTransition i s.ac.mode = none →
      exec i s = .next (replied s .sequenceError 0))

/-- 60_exceptions.md R228: a refused command changes no state in either engine and answers `RES = 0`. -/
def Obligations.RefusalChangesNothing : Prop :=
  ∀ (i : Instr) (s t : State) (r : Response),
    exec i s = .next t → t.responses = r :: s.responses → isRefusalStatus r.status = true →
    t = replied s r.status 0

/-- 60_exceptions.md R229: a faulting command changes nothing but its own engine's latch, which was 0 and gets the code;
the mode stays, `RES = 0`, the engine's fault output is asserted. -/
def Obligations.FaultOnlyLatchesItsCode : Prop :=
  ∀ (i : Instr) (s t : State) (r : Response),
    exec i s = .next t → t.responses = r :: s.responses → isFaultStatus r.status = true →
    (unitOf i = some .huf ∧ s.huf.fault = 0 ∧ t = hufFaulted s r.status ∧ hFaultO t = true) ∨
    (unitOf i = some .ac ∧ s.ac.fault = 0 ∧ t = acFaulted s r.status ∧ aFaultO t = true)

/-- 40_block_control.md section 1, 30_encoding.md section 1: a command that answers a next state produces exactly one
response, whose `RES` is 0 unless its status is `OK`, and it never answers `EmptyInput` (60_exceptions.md section 7).
It leaves the port and the build's parameters (log 3), and no command is refused for want of a meaning. -/
def Obligations.OneResponsePerCommand : Prop :=
  ∀ (i : Instr) (s : State),
    (∀ t, exec i s = .next t →
      (∃ r : Response, t.responses = r :: s.responses ∧ (r.status ≠ .ok → r.res = 0) ∧ r.status ≠ .emptyInput) ∧
      t.port = s.port ∧ t.params = s.params) ∧
    (∀ x, exec i s ≠ .refused x)

/-- 60_exceptions.md R230: while an engine's latch is set, every command of that engine (with legal operands) but its reset
and its `STATUS` read is refused with `Faulted`; those, and `RESET_ALL`, are not refused. No command but a reset of that
engine changes anything in it. -/
def Obligations.LatchedFaultIsSticky : Prop :=
  ∀ (i : Instr) (s : State),
    (s.huf.fault ≠ 0 → unitOf i = some .huf → i.wellFormed = true → isReset i = false → isStatusRead i = false →
      exec i s = .next (replied s .faulted 0)) ∧
    (s.ac.fault ≠ 0 → unitOf i = some .ac → i.wellFormed = true → isReset i = false → isStatusRead i = false →
      exec i s = .next (replied s .faulted 0)) ∧
    (∃ v, exec (.hufRd 0 0) s = .next (replied s .ok v)) ∧ (∃ v, exec (.acRd 0 0) s = .next (replied s .ok v)) ∧
    (∃ h, exec (.hufReset 0 0) s = .next (replied { s with huf := h } .ok 0) ∧ h.fault = 0) ∧
    (∃ c, exec (.acReset 0 0) s = .next (replied { s with ac := c } .ok 0) ∧ c.fault = 0) ∧
    (∃ h c, exec (.resetAll 0 0) s = .next (replied { s with huf := h, ac := c } .ok 0) ∧ h.fault = 0 ∧ c.fault = 0) ∧
    (∀ t, exec i s = .next t → s.huf.fault ≠ 0 → t.huf = s.huf ∨ (isReset i = true ∧ HufIsReset t.huf)) ∧
    (∀ t, exec i s = .next t → s.ac.fault ≠ 0 → t.ac = s.ac ∨ (isReset i = true ∧ AcIsReset t.ac))

/-- 40_block_control.md section 1, an inference that the spec marks as its own ("reads and writes only Huffman-engine
state", "only AC-engine state"): a command of one engine neither reads nor writes the state of the other; `NOP` touches
neither; `RESET_ALL` writes both. -/
def Obligations.EnginesAreIndependent : Prop :=
  ∀ (i : Instr) (s : State),
    (unitOf i = some .huf →
      (∀ c, exec i { s with ac := c } = mapAc c (exec i s)) ∧ (∀ t, exec i s = .next t → t.ac = s.ac)) ∧
    (unitOf i = some .ac →
      (∀ h, exec i { s with huf := h } = mapHuf h (exec i s)) ∧ (∀ t, exec i s = .next t → t.huf = s.huf)) ∧
    (∀ a d t, i = .nop a d → exec i s = .next t → t.huf = s.huf ∧ t.ac = s.ac) ∧
    (∀ t, i = .resetAll 0 0 → exec i s = .next t → HufIsReset t.huf ∧ AcIsReset t.ac)

/-! ### Huffman tree encoder -/

/-- 41_huffman_tree.md section 2, `HUF_COUNT`: one entry is incremented, or `CounterOverflow` at its limit; nothing else
changes. -/
def Obligations.HufCountIncrementsOneEntry : Prop :=
  ∀ (a : Byte) (s : State), s.huf.fault = 0 → s.huf.mode = .freq →
    ((tableRead s.huf.freq a).toNat = 2 ^ 32 - 1 →
      exec (.hufCount a 0) s = .next (hufFaulted s .counterOverflow)) ∧
    ((tableRead s.huf.freq a).toNat ≠ 2 ^ 32 - 1 → ∃ f,
      exec (.hufCount a 0) s = .next (replied { s with huf := { s.huf with freq := f } } .ok 0) ∧
      (tableRead f a).toNat = (tableRead s.huf.freq a).toNat + 1 ∧
      ∀ b, b ≠ a → tableRead f b = tableRead s.huf.freq b)

/-- 41_huffman_tree.md section 2, `HUF_SETFREQ`: one entry gets `d`; nothing else changes. -/
def Obligations.HufSetfreqWritesOneEntry : Prop :=
  ∀ (a : Byte) (d : Word) (s : State), s.huf.fault = 0 → s.huf.mode = .freq → d.toNat < 2 ^ 32 →
    ∃ f, exec (.hufSetfreq a d) s = .next (replied { s with huf := { s.huf with freq := f } } .ok 0) ∧
      (tableRead f a).toNat = d.toNat ∧ ∀ b, b ≠ a → tableRead f b = tableRead s.huf.freq b

/-- 41_huffman_tree.md section 3, `HUF_BUILD`: a non-empty table gives a tree and mode `TREE`, answering the root; an empty
table is `CorruptHuffmanTree`; nothing else changes. The shape of the tree (`TreeOk`) is an inference that the spec marks as
its own ("Every node other than the root is the child of exactly one internal node"). -/
def Obligations.HufBuildMakesTheTree : Prop :=
  ∀ s : State, s.huf.fault = 0 → s.huf.mode = .freq →
    ((∀ b, tableRead s.huf.freq b = 0) → exec (.hufBuild 0 0) s = .next (hufFaulted s .corruptHuffmanTree)) ∧
    ((∃ b, tableRead s.huf.freq b ≠ 0) → ∃ node root nint,
      exec (.hufBuild 0 0) s =
        .next (replied { s with huf := { s.huf with node := node, root := root, nint := nint, mode := .tree } } .ok
          (root.setWidth 64)) ∧
      TreeOk { s.huf with node := node, root := root, nint := nint })

/-- 41_huffman_tree.md R114, R115: at every merge the left child is the least live node in the order `(W, index)`, the
right child is the least of the others, and the new node's weight is the exact sum. -/
def Obligations.HufBuildMergesTheTwoLeast : Prop :=
  ∀ s t : State, s.huf.fault = 0 → s.huf.mode = .freq → (∃ b, tableRead s.huf.freq b ≠ 0) →
    exec (.hufBuild 0 0) s = .next t →
    ∀ k : Nat, k < t.huf.nint.toNat →
      let n := nodeAt t.huf (256 + k)
      let x := n.left.toNat
      let y := n.right.toNat
      Live t.huf k x ∧ Live t.huf k y ∧ x ≠ y ∧
      (∀ z, Live t.huf k z → z ≠ x → NodeLess t.huf x z) ∧
      (∀ z, Live t.huf k z → z ≠ x → z ≠ y → NodeLess t.huf y z) ∧
      n.w.toNat = (nodeAt t.huf x).w.toNat + (nodeAt t.huf y).w.toNat

/-- 41_huffman_tree.md section 3, an inference that the spec marks as its own ("is the sum of all frequencies"): the weight
of the root. -/
def Obligations.RootWeightIsTheSumOfFrequencies : Prop :=
  ∀ s t : State, s.huf.fault = 0 → s.huf.mode = .freq → (∃ b, tableRead s.huf.freq b ≠ 0) →
    exec (.hufBuild 0 0) s = .next t →
    (nodeAt t.huf t.huf.root.toNat).w.toNat = (s.huf.freq.toList.map BitVec.toNat).sum

/-- 41_huffman_tree.md R119: `HUF_GENCODES` on a built tree gives every leaf its root-to-leaf path, the single leaf the
code "0", every other byte no code, answers the longest length and enters mode `READY`. -/
def Obligations.GencodesWritesThePaths : Prop :=
  ∀ s : State, s.huf.fault = 0 → s.huf.mode = .tree → TreeOk s.huf →
    ∃ (code : CodeTable) (m : Nat),
      exec (.hufGencodes 0 0) s =
        .next (replied { s with huf := { s.huf with code := code, mode := .ready } } .ok (BitVec.ofNat 64 m)) ∧
      CodesOk { s.huf with code := code } ∧
      (∀ b path, IsCode s.huf b path → codeOf code b = path) ∧
      (∀ b, (tableRead code.clen b).toNat ≤ m) ∧ (∃ b, (tableRead code.clen b).toNat = m)

/-- 41_huffman_tree.md section 4, an inference that the spec marks as its own ("The table is prefix-free"): no code is a
prefix of another code of the same table. -/
def Obligations.CodeTableIsPrefixFree : Prop :=
  ∀ h : HufState, TreeOk h → CodesOk h →
    ∀ b c : Byte, b ≠ c → Coded h b → Coded h c → ¬ codeOf h.code b <+: codeOf h.code c

/-! ### Huffman packer -/

/-- 42_huffman_packer.md section 1, an inference that the spec marks as its own ("Packer facts"): `k` pushes from an empty packer append `k / 8` bytes and keep the last `k mod 8` bits; bit
`j` of the string is bit `7 - (j mod 8)` of appended byte `j / 8`; a flush then makes `ceil(k / 8)` bytes. -/
def Obligations.PackerFacts : Prop :=
  ∀ (cap : Option Nat) (out : List Byte) (bits : List Bool) (p : PackState),
    pushBits cap { pk := Packer.empty, out := out } bits = some p →
    ∃ new : List Byte, p.out = out ++ new ∧ new.length = bits.length / 8 ∧ p.pk.n.toNat = bits.length % 8 ∧
      (∀ j, j < 8 * (bits.length / 8) → bits[j]? = (new[j / 8]?).map fun b => b.getLsbD (7 - j % 8)) ∧
      (∀ j, j < bits.length % 8 →
        bits[8 * (bits.length / 8) + j]? = some (p.pk.acc.getLsbD (bits.length % 8 - 1 - j))) ∧
      padCount p.pk = (8 - bits.length % 8) % 8 ∧
      ∀ q, flushPacker cap p = some q →
        q.pk = Packer.empty ∧ q.out.length = out.length + (bits.length + 7) / 8

/-- 42_huffman_packer.md section 2, 43_huffman_unpacker.md section 4: `HUF_ENC_BEGIN` clears the output and the packer and
opens an encode; `HUF_DEC_END` closes a decode and keeps everything else. -/
def Obligations.HufEncBeginAndDecEnd : Prop :=
  (∀ s : State, s.huf.fault = 0 → s.huf.mode = .ready →
    exec (.hufEncBegin 0 0) s =
      .next (replied { s with huf := { s.huf with obuf := [], pk := { acc := 0, n := 0 }, mode := .enc } } .ok 0)) ∧
  (∀ s : State, s.huf.fault = 0 → s.huf.mode = .dec →
    exec (.hufDecEnd 0 0) s = .next (replied { s with huf := { s.huf with mode := .ready } } .ok 0))

/-- 42_huffman_packer.md section 3, `HUF_ENC_SYM`: the code of the byte is appended to the packed bit string and nothing
else changes; a byte with no code is `SymbolNotFound`, then bytes that do not fit are `BufferFull`. -/
def Obligations.HufEncSymAppendsTheCode : Prop :=
  ∀ (a : Byte) (s : State), s.huf.fault = 0 → s.huf.mode = .enc →
    let len := (tableRead s.huf.code.clen a).toNat
    let k := (s.huf.pk.n.toNat + len) / 8
    (len = 0 → exec (.hufEncSym a 0) s = .next (hufFaulted s .symbolNotFound)) ∧
    (len ≠ 0 → ¬ Room s.params.outCap s.huf.obuf.length k →
      exec (.hufEncSym a 0) s = .next (hufFaulted s .bufferFull)) ∧
    (len ≠ 0 → Room s.params.outCap s.huf.obuf.length k → ∃ pk out,
      exec (.hufEncSym a 0) s = .next (replied { s with huf := { s.huf with pk := pk, obuf := out } } .ok 0) ∧
      packedBits pk out = packedBits s.huf.pk s.huf.obuf ++ codeOf s.huf.code a ∧
      out.length = s.huf.obuf.length + k ∧ (∃ new, out = s.huf.obuf ++ new) ∧
      pk.n.toNat = (s.huf.pk.n.toNat + len) % 8)

/-- 42_huffman_packer.md section 4, `HUF_ENC_END`: in every state of mode `ENC` with no fault latched the held bits are
completed with zero bits to a byte, the padding count follows, the mode is `READY`; where the bytes do not fit nothing but
the latch changes. With no bit held the packer stays as it is (section 1); so a packer whose bits above its `N` collected
bits are 0 (`PackerOk`, part of the invariant) is left empty. -/
def Obligations.HufEncEndClosesThePayload : Prop :=
  ∀ s : State, s.huf.fault = 0 → s.huf.mode = .enc →
    let n := s.huf.pk.n.toNat
    let pad := (8 - n) % 8
    let tail : List Byte := (if n = 0 then [] else [s.huf.pk.acc <<< pad]) ++ [BitVec.ofNat 8 pad]
    let pk : Packer := if n = 0 then s.huf.pk else { acc := 0, n := 0 }
    (fitsCap s.params.outCap (s.huf.obuf.length + tail.length) = false →
      exec (.hufEncEnd 0 0) s = .next (hufFaulted s .bufferFull)) ∧
    (fitsCap s.params.outCap (s.huf.obuf.length + tail.length) = true →
      exec (.hufEncEnd 0 0) s =
        .next (replied
          { s with huf := { s.huf with obuf := s.huf.obuf ++ tail, pk := pk, mode := .ready } } .ok
          (BitVec.ofNat 64 pad))) ∧
    (PackerOk s.huf.pk → pk = { acc := 0, n := 0 })

/-! ### Huffman unpacker -/

/-- 43_huffman_unpacker.md section 1: `HUF_IN_BYTE` appends its byte to the input buffer or is `BufferFull`;
`HUF_IN_CLEAR` empties it; nothing else changes. -/
def Obligations.HufInputBufferCommands : Prop :=
  ∀ s : State, s.huf.fault = 0 → s.huf.mode ≠ .dec →
    (∀ a : Byte, fitsCap s.params.inCap (s.huf.ibuf.length + 1) = true →
      exec (.hufInByte a 0) s = .next (replied { s with huf := { s.huf with ibuf := s.huf.ibuf ++ [a] } } .ok 0)) ∧
    (∀ a : Byte, fitsCap s.params.inCap (s.huf.ibuf.length + 1) = false →
      exec (.hufInByte a 0) s = .next (hufFaulted s .bufferFull)) ∧
    exec (.hufInClear 0 0) s = .next (replied { s with huf := { s.huf with ibuf := [] } } .ok 0)

/-- 43_huffman_unpacker.md section 2, `HUF_DEC_BEGIN`: the last byte is the padding count; the number of code bits is
`8 * (n - 1) - pad`; the three malformed payloads are `InvalidArchive`; nothing else changes. -/
def Obligations.HufDecBeginReadsTheTrailer : Prop :=
  ∀ s : State, s.huf.fault = 0 → s.huf.mode = .ready →
    (s.huf.ibuf = [] → exec (.hufDecBegin 0 0) s = .next (hufFaulted s .invalidArchive)) ∧
    (∀ (data : List Byte) (pad : Byte), s.huf.ibuf = data ++ [pad] →
      (7 < pad.toNat ∨ (data = [] ∧ pad ≠ 0) → exec (.hufDecBegin 0 0) s = .next (hufFaulted s .invalidArchive)) ∧
      (pad.toNat ≤ 7 → (data = [] → pad = 0) → 8 * data.length < 2 ^ 64 →
        let n : Word := BitVec.ofNat 64 (8 * data.length - pad.toNat)
        exec (.hufDecBegin 0 0) s =
          .next (replied { s with huf := { s.huf with nbits := n, cur := 0, obuf := [], mode := .dec } } .ok n)))

/-- 43_huffman_unpacker.md section 3, `HUF_DEC_SYM` before the end of the stream: where the unread bits begin with the code
of a byte, that byte is appended to the output and returned and the cursor passes its code; where they begin with no
code, the payload is invalid. -/
def Obligations.HufDecSymDecodesOneByte : Prop :=
  ∀ s : State, s.huf.fault = 0 → Decoding s.huf → s.huf.cur ≠ s.huf.nbits →
    (∀ b : Byte, Coded s.huf b → codeOf s.huf.code b <+: unreadBits s.huf →
      (fitsCap s.params.outCap (s.huf.obuf.length + 1) = true →
        exec (.hufDecSym 0 0) s =
          .next (replied
            { s with huf := { s.huf with
              obuf := s.huf.obuf ++ [b],
              cur := BitVec.ofNat 64 (s.huf.cur.toNat + (codeOf s.huf.code b).length) } } .ok (b.setWidth 64))) ∧
      (fitsCap s.params.outCap (s.huf.obuf.length + 1) = false →
        exec (.hufDecSym 0 0) s = .next (hufFaulted s .bufferFull))) ∧
    ((∀ b : Byte, Coded s.huf b → ¬ codeOf s.huf.code b <+: unreadBits s.huf) →
      exec (.hufDecSym 0 0) s = .next (hufFaulted s .invalidArchive))

/-- 43_huffman_unpacker.md section 4, `HUF_DEC_ALL`: where the unread bits are the codes of a byte string, that string is
appended to the output in one command; where they are no string of complete codes, the payload is invalid. -/
def Obligations.HufDecAllDecodesTheRest : Prop :=
  ∀ s : State, s.huf.fault = 0 → Decoding s.huf →
    (∀ bs : List Byte, (∀ b ∈ bs, Coded s.huf b) → unreadBits s.huf = bs.flatMap (codeOf s.huf.code) →
      (fitsCap s.params.outCap (s.huf.obuf.length + bs.length) = true →
        exec (.hufDecAll 0 0) s =
          .next (replied
            { s with huf := { s.huf with obuf := s.huf.obuf ++ bs, cur := s.huf.nbits, mode := .ready } } .ok
            (BitVec.ofNat 64 bs.length))) ∧
      (fitsCap s.params.outCap (s.huf.obuf.length + bs.length) = false →
        exec (.hufDecAll 0 0) s = .next (hufFaulted s .bufferFull))) ∧
    ((∀ bs : List Byte, (∀ b ∈ bs, Coded s.huf b) → unreadBits s.huf ≠ bs.flatMap (codeOf s.huf.code)) →
      exec (.hufDecAll 0 0) s = .next (hufFaulted s .invalidArchive))

/-- 30_encoding.md section 1, end-of-stream marker: with nothing left to decode `HUF_DEC_SYM` and `AC_DEC_SYM` answer
`OK` with `RES = 0x100` and change nothing, whatever the probability table. -/
def Obligations.EndMarkerChangesNothing : Prop :=
  (∀ s : State, s.huf.fault = 0 → s.huf.mode = .dec → s.huf.cur = s.huf.nbits →
    exec (.hufDecSym 0 0) s = .next (replied s .ok 0x100)) ∧
  (∀ s : State, s.ac.fault = 0 → s.ac.mode = .dec → s.ac.remain = 0 →
    exec (.acDecSym 0 0) s = .next (replied s .ok 0x100))

/-- 43_huffman_unpacker.md section 5, an inference that the spec marks as its own ("Round trip"): a stream of coded bytes that is encoded and whose payload is then decoded
by an engine with the same tree and code table comes back. -/
def Obligations.HuffmanRoundTrip : Prop :=
  ∀ (s : State) (bs : List Byte), s.huf.fault = 0 → s.huf.mode = .ready → TreeOk s.huf → CodesOk s.huf →
    (∀ b ∈ bs, Coded s.huf b) →
    let bitCount := (bs.flatMap (codeOf s.huf.code)).length
    fitsCap s.params.outCap ((bitCount + 7) / 8 + 1) = true → bitCount < 2 ^ 64 - 8 →
    ∃ t : State,
      execAll ([.hufEncBegin 0 0] ++ bs.map (fun b => Instr.hufEncSym b 0) ++ [.hufEncEnd 0 0]) s = .next t ∧
      t.huf.mode = .ready ∧ t.huf.obuf.length = (bitCount + 7) / 8 + 1 ∧
      ∀ u : State, u.huf.fault = 0 → u.huf.mode = .ready → u.huf.freq = s.huf.freq → u.huf.node = s.huf.node →
        u.huf.root = s.huf.root → u.huf.nint = s.huf.nint → u.huf.code = s.huf.code → u.huf.ibuf = t.huf.obuf →
        fitsCap u.params.outCap bs.length = true →
        execAll [.hufDecBegin 0 0, .hufDecAll 0 0] u =
          .next { u with
            huf := { u.huf with
              nbits := BitVec.ofNat 64 bitCount, cur := BitVec.ofNat 64 bitCount, obuf := bs, mode := .ready },
            responses := [{ status := .ok, res := BitVec.ofNat 64 bs.length },
              { status := .ok, res := BitVec.ofNat 64 bitCount }] ++ u.responses }

/-- 43_huffman_unpacker.md section 6, `HUF_RD`: each selector returns its item and changes nothing. -/
def Obligations.HufRdReturnsTheItem : Prop :=
  (∀ s : State, exec (.hufRd 0 0) s =
    .next (replied s .ok (BitVec.ofNat 64 (256 * s.huf.fault.toNat + (hufModeCode s.huf.mode).toNat)))) ∧
  ∀ s : State, s.huf.fault = 0 →
    (∀ b : Byte, exec (.hufRd 1 (b.setWidth 64)) s = .next (replied s .ok ((tableRead s.huf.freq b).setWidth 64))) ∧
    (s.huf.mode ≠ .freq → ∀ i : Nat, i < 511 → ∀ n, n = nodeAt s.huf i →
      exec (.hufRd 2 (BitVec.ofNat 64 i)) s = .next (replied s .ok (BitVec.ofNat 64
        (if n.v then 1 + 2 * n.leaf.toNat + 2 ^ 2 * n.left.toNat + 2 ^ 11 * n.right.toNat + 2 ^ 20 * n.w.toNat
         else 0)))) ∧
    (s.huf.mode ≠ .freq →
      exec (.hufRd 3 0) s = .next (replied s .ok (BitVec.ofNat 64 (s.huf.root.toNat + 2 ^ 9 * s.huf.nint.toNat)))) ∧
    (s.huf.mode = .ready ∨ s.huf.mode = .enc ∨ s.huf.mode = .dec → ∀ b : Byte,
      exec (.hufRd 4 (b.setWidth 64)) s = .next (replied s .ok ((tableRead s.huf.code.clen b).setWidth 64)) ∧
      ∀ k : Nat, k < 4 → ∃ v : Word,
        exec (.hufRd 5 (BitVec.ofNat 64 (b.toNat + 256 * k))) s = .next (replied s .ok v) ∧
        ∀ i : Nat, i < 64 → v.getLsbD (63 - i) = ((codeOf s.huf.code b)[64 * k + i]?).getD false) ∧
    (s.huf.mode = .ready →
      (s.huf.obuf.length < 2 ^ 64 →
        exec (.hufRd 6 0) s = .next (replied s .ok (BitVec.ofNat 64 s.huf.obuf.length))) ∧
      ∀ (i : Nat) (b : Byte), i < 2 ^ 64 → s.huf.obuf[i]? = some b →
        exec (.hufRd 7 (BitVec.ofNat 64 i)) s = .next (replied s .ok (b.setWidth 64))) ∧
    (s.huf.ibuf.length < 2 ^ 64 →
      exec (.hufRd 8 0) s = .next (replied s .ok (BitVec.ofNat 64 s.huf.ibuf.length))) ∧
    (s.huf.mode = .dec →
      exec (.hufRd 9 0) s = .next (replied s .ok s.huf.nbits) ∧
      exec (.hufRd 10 0) s = .next (replied s .ok s.huf.cur))

/-- 20_memory.md R61: an index outside a memory's range never reaches the memory: a read whose index is out of its
selector's range (any `d` but 0 where the selector takes none) is refused with `BadOperand`. -/
def Obligations.ReadIndexOutOfRangeIsRefused : Prop :=
  (∀ (a : Byte) (d : Word) (s : State), a.toNat ≤ 10 → s.huf.fault = 0 ∨ a = 0 →
    hufTransition (.hufRd a d) s.huf.mode ≠ none → hufIndexCount s.huf a ≤ d.toNat →
    exec (.hufRd a d) s = .next (replied s .badOperand 0)) ∧
  (∀ (a : Byte) (d : Word) (s : State), a.toNat ≤ 12 → s.ac.fault = 0 ∨ a = 0 →
    acTransition (.acRd a d) s.ac.mode ≠ none → acIndexCount s.ac a ≤ d.toNat →
    exec (.acRd a d) s = .next (replied s .badOperand 0))

/-! ### Model port -/

/-- 44_ac_model_port.md section 2: `AC_MODEL_INIT` sets every count to 1 and the total to 256; nothing else changes. -/
def Obligations.AcModelInitIsLaplace : Prop :=
  ∀ s : State, s.ac.fault = 0 → ∃ cnt,
    exec (.acModelInit 0 0) s = .next (replied { s with ac := { s.ac with cnt := cnt, total := 256 } } .ok 0) ∧
    ∀ b, tableRead cnt b = 1

/-- 44_ac_model_port.md section 2: `AC_SETCNT` writes one count and does not adjust the total; `AC_SETTOTAL` writes the
total and no count; nothing else changes. -/
def Obligations.AcSetcntAndSettotalWrite : Prop :=
  ∀ s : State, s.ac.fault = 0 →
    (∀ (a : Byte) (d : Word), d.toNat < 2 ^ 32 → ∃ cnt,
      exec (.acSetcnt a d) s = .next (replied { s with ac := { s.ac with cnt := cnt } } .ok 0) ∧
      (tableRead cnt a).toNat = d.toNat ∧ ∀ b, b ≠ a → tableRead cnt b = tableRead s.ac.cnt b) ∧
    (∀ d : Word, d.toNat < 2 ^ 40 → ∃ total,
      exec (.acSettotal 0 d) s = .next (replied { s with ac := { s.ac with total := total } } .ok 0) ∧
      total.toNat = d.toNat)

/-- 44_ac_model_port.md section 2, `AC_INC`: one count and the total are incremented, or `CounterOverflow` at either
limit; nothing else changes, and a valid table stays valid (the spec's inference: "applied to a valid table it gives a valid
table"). -/
def Obligations.AcIncIncrementsCountAndTotal : Prop :=
  ∀ (a : Byte) (s : State), s.ac.fault = 0 →
    ((tableRead s.ac.cnt a).toNat = 2 ^ 32 - 1 ∨ s.ac.total.toNat = 2 ^ 40 - 1 →
      exec (.acInc a 0) s = .next (acFaulted s .counterOverflow)) ∧
    ((tableRead s.ac.cnt a).toNat ≠ 2 ^ 32 - 1 → s.ac.total.toNat ≠ 2 ^ 40 - 1 → ∃ cnt total,
      exec (.acInc a 0) s = .next (replied { s with ac := { s.ac with cnt := cnt, total := total } } .ok 0) ∧
      (tableRead cnt a).toNat = (tableRead s.ac.cnt a).toNat + 1 ∧ total.toNat = s.ac.total.toNat + 1 ∧
      (∀ b, b ≠ a → tableRead cnt b = tableRead s.ac.cnt b) ∧
      (tableValid s.ac.cnt s.ac.total = true → tableValid cnt total = true))

/-- 44_ac_model_port.md section 3: the table is valid exactly when every count is at least 1 and the total is their sum;
`cum` starts at 0, grows by the counts, and for a valid table ends at the total and lies in the stated bounds. -/
def Obligations.TableValidityAndCumulativeCounts : Prop :=
  ∀ (cnt : Vector (BitVec 32) 256) (total : BitVec 40),
    (tableValid cnt total = true ↔
      (∀ b : Byte, 1 ≤ (tableRead cnt b).toNat) ∧ total.toNat = (cnt.toList.map BitVec.toNat).sum) ∧
    cum cnt 0 = 0 ∧ (∀ b : Byte, cum cnt (b.toNat + 1) = cum cnt b.toNat + (tableRead cnt b).toNat) ∧
    (tableValid cnt total = true →
      cum cnt 256 = total.toNat ∧ 256 ≤ total.toNat ∧ total.toNat ≤ 256 * (2 ^ 32 - 1) ∧
      ∀ i j : Nat, i < j → j ≤ 256 → cum cnt i < cum cnt j)

/-! ### Arithmetic encoder -/

/-- 45_ac_encoder.md section 1, `AC_ENC_INIT`: the full range, zero counters, an empty packer, an 8-byte placeholder, mode
`ENC`; `BufferFull` where 8 bytes do not fit; the table and the decoder's registers are not touched. -/
def Obligations.AcEncInitOpensAnEncode : Prop :=
  ∀ s : State, s.ac.fault = 0 → s.ac.mode = .idle ∨ s.ac.mode = .done →
    (fitsCap s.params.outCap 8 = true →
      exec (.acEncInit 0 0) s =
        .next (replied
          { s with ac := { s.ac with
            low := 0, high := 0xFFFFFFFFFFFFFFFF, pending := 0, nsym := 0, pk := { acc := 0, n := 0 },
            obuf := [0, 0, 0, 0, 0, 0, 0, 0], mode := .enc } } .ok 0)) ∧
    (fitsCap s.params.outCap 8 = false → exec (.acEncInit 0 0) s = .next (acFaulted s .bufferFull))

/-- 45_ac_encoder.md section 2, `AC_ENC_SYM`: the interval is narrowed to the symbol's and renormalised, the emitted bits
are appended, the symbol is counted; the table is only read; the faults come in the order of 60_exceptions.md section 3. -/
def Obligations.AcEncSymNarrowsAndEmits : Prop :=
  ∀ (a : Byte) (s : State),
    (s.ac.fault = 0 → s.ac.mode = .enc → tableValid s.ac.cnt s.ac.total = false →
      exec (.acEncSym a 0) s = .next (acFaulted s .badModel)) ∧
    (s.ac.fault = 0 → s.ac.mode = .enc → tableValid s.ac.cnt s.ac.total = true → s.ac.nsym.toNat = 2 ^ 64 - 1 →
      exec (.acEncSym a 0) s = .next (acFaulted s .counterOverflow)) ∧
    (Coding s.ac .enc → s.ac.nsym.toNat ≠ 2 ^ 64 - 1 →
      let lo := narrowLow s.ac.low.toNat s.ac.high.toNat (cum s.ac.cnt a.toNat) s.ac.total.toNat
      let hi := narrowHigh s.ac.low.toNat s.ac.high.toNat (cum s.ac.cnt (a.toNat + 1)) s.ac.total.toNat
      let r := rnuEnc lo hi s.ac.pending.toNat
      let k := (s.ac.pk.n.toNat + r.bits.length) / 8
      lo ≤ hi ∧
      (2 ^ 64 - 1 < r.pending → exec (.acEncSym a 0) s = .next (acFaulted s .counterOverflow)) ∧
      (r.pending ≤ 2 ^ 64 - 1 → ¬ Room s.params.outCap s.ac.obuf.length k →
        exec (.acEncSym a 0) s = .next (acFaulted s .bufferFull)) ∧
      (r.pending ≤ 2 ^ 64 - 1 → Room s.params.outCap s.ac.obuf.length k → ∃ pk out,
        exec (.acEncSym a 0) s =
          .next (replied
            { s with ac := { s.ac with
              low := BitVec.ofNat 64 r.low, high := BitVec.ofNat 64 r.high, pending := BitVec.ofNat 64 r.pending,
              pk := pk, obuf := out, nsym := s.ac.nsym + 1 } } .ok 0) ∧
        packedBits pk out = packedBits s.ac.pk s.ac.obuf ++ r.bits ∧
        (∃ new, out = s.ac.obuf ++ new) ∧ out.length = s.ac.obuf.length + k))

/-- 45_ac_encoder.md section 2, an inference that the spec marks as its own ("Properties of narrowing"): with a valid table and an interval that satisfies 10_state.md R46, narrowing gives a non-empty
sub-interval nested in the interval, and the 256 sub-intervals tile it. -/
def Obligations.NarrowingTilesTheInterval : Prop :=
  ∀ (cnt : Vector (BitVec 32) 256) (total : BitVec 40) (low high : Nat),
    tableValid cnt total = true → IntervalOk low high → high ≤ 2 ^ 64 - 1 →
    (∀ b : Byte,
      let lo := narrowLow low high (cum cnt b.toNat) total.toNat
      let hi := narrowHigh low high (cum cnt (b.toNat + 1)) total.toNat
      narrow low high (cum cnt b.toNat) (cum cnt (b.toNat + 1)) total.toNat = some (lo, hi) ∧
      lo ≤ hi ∧ low ≤ lo ∧ hi ≤ high ∧ hi ≤ 2 ^ 64 - 1 ∧
      (b.toNat < 255 → hi + 1 = narrowLow low high (cum cnt (b.toNat + 1)) total.toNat)) ∧
    narrowLow low high (cum cnt 0) total.toNat = low ∧ narrowHigh low high (cum cnt 256) total.toNat = high

/-- 46_renorm_unit.md R191: the thresholds, the four cases, of which exactly one holds for a pair with `low <= high`, and
their offsets. -/
def Obligations.RnuCasesAreExclusive : Prop :=
  ∀ low high : Nat, low ≤ high →
    (rnuCase low high = .e1 ↔ high < 0x8000000000000000) ∧
    (rnuCase low high = .e2 ↔ 0x8000000000000000 ≤ low) ∧
    (rnuCase low high = .e3 ↔ low < 0x8000000000000000 ∧ 0x8000000000000000 ≤ high ∧
      0x4000000000000000 ≤ low ∧ high < 0xC000000000000000) ∧
    (rnuCase low high = .stop ↔ ¬ high < 0x8000000000000000 ∧ ¬ 0x8000000000000000 ≤ low ∧
      ¬ (0x4000000000000000 ≤ low ∧ high < 0xC000000000000000)) ∧
    rnuOff .e1 = 0 ∧ rnuOff .e2 = 0x8000000000000000 ∧ rnuOff .e3 = 0x4000000000000000 ∧
    half = 0x8000000000000000 ∧ quarter = 0x4000000000000000 ∧ threeQuarter = 0xC000000000000000 ∧
    maxV = 2 ^ 64 - 1

/-- 46_renorm_unit.md sections 2 and 3: both loops return their input in the stop case and otherwise take one step of
R192 with R193 or R194 and go on, for every interval of 64-bit bounds. -/
def Obligations.RnuLoopsTakeTheSteps : Prop :=
  ∀ low high : Nat, low ≤ high → high ≤ 2 ^ 64 - 1 →
    (rnuCase low high = .stop →
      (∀ p, rnuEnc low high p = { low := low, high := high, pending := p, bits := [] }) ∧
      (∀ ibuf v c, rnuDec ibuf low high v c = { low := low, high := high, value := v, cur := c })) ∧
    (rnuCase low high = .e1 →
      (∀ p, rnuEnc low high p =
        let r := rnuEnc (2 * low) (2 * high + 1) 0
        { r with bits := [false] ++ List.replicate p true ++ r.bits }) ∧
      (∀ ibuf v c, rnuDec ibuf low high v c =
        rnuDec ibuf (2 * low) (2 * high + 1) (2 * v + (abit ibuf c).toNat) (c + 1))) ∧
    (rnuCase low high = .e2 →
      (∀ p, rnuEnc low high p =
        let r := rnuEnc (2 * (low - 2 ^ 63)) (2 * (high - 2 ^ 63) + 1) 0
        { r with bits := [true] ++ List.replicate p false ++ r.bits }) ∧
      (∀ ibuf v c, rnuDec ibuf low high v c =
        rnuDec ibuf (2 * (low - 2 ^ 63)) (2 * (high - 2 ^ 63) + 1) (2 * (v - 2 ^ 63) + (abit ibuf c).toNat) (c + 1))) ∧
    (rnuCase low high = .e3 →
      (∀ p, rnuEnc low high p = rnuEnc (2 * (low - 2 ^ 62)) (2 * (high - 2 ^ 62) + 1) (p + 1)) ∧
      (∀ ibuf v c, rnuDec ibuf low high v c =
        rnuDec ibuf (2 * (low - 2 ^ 62)) (2 * (high - 2 ^ 62) + 1) (2 * (v - 2 ^ 62) + (abit ibuf c).toNat) (c + 1)))

/-- 46_renorm_unit.md section 4, an inference that the spec marks as its own ("Postconditions"): on return the interval is ordered, straddles `HALF`, is not inside the middle half, and has
more than a quarter of the full range. -/
def Obligations.RnuNormalises : Prop :=
  ∀ low high p : Nat, low ≤ high → high ≤ 2 ^ 64 - 1 →
    let r := rnuEnc low high p
    r.low ≤ r.high ∧ r.high ≤ 2 ^ 64 - 1 ∧ r.low < 2 ^ 63 ∧ 2 ^ 63 ≤ r.high ∧
    ¬ (2 ^ 62 ≤ r.low ∧ r.high < 3 * 2 ^ 62) ∧
    ((r.low < 2 ^ 62 ∧ 2 ^ 63 ≤ r.high) ∨ (3 * 2 ^ 62 ≤ r.high ∧ r.low < 2 ^ 63)) ∧
    2 ^ 62 + 1 ≤ r.high - r.low + 1 ∧
    (∀ c : RnuCase, c = rnuCase low high → stepLow c low ≤ stepHigh c high) ∧
    (rnuCase low high = .stop → r.low = low ∧ r.high = high ∧ r.pending = p ∧ r.bits = [])

/-- 46_renorm_unit.md section 4, an inference that the spec marks as its own ("Termination and bounds"): a call takes at most 64 steps, each doubling the range exactly; the decoder takes
the same steps as the encoder from the same interval and consumes one bit a step. -/
def Obligations.RnuDoublesAtMostSixtyFourTimes : Prop :=
  ∀ low high p : Nat, low ≤ high → high ≤ 2 ^ 64 - 1 →
    ∃ k : Nat, k ≤ 64 ∧
      (rnuEnc low high p).high - (rnuEnc low high p).low + 1 = 2 ^ k * (high - low + 1) ∧
      (rnuEnc low high p).bits.length ≤ p + k ∧ (rnuEnc low high p).pending ≤ p + k ∧
      ∀ ibuf v c, (rnuDec ibuf low high v c).low = (rnuEnc low high p).low ∧
        (rnuDec ibuf low high v c).high = (rnuEnc low high p).high ∧ (rnuDec ibuf low high v c).cur = c + k

/-- 46_renorm_unit.md section 4, an inference that the spec marks as its own ("Scale facts"): a value inside the interval stays inside it through the decoder's loop,
whichever bits are shifted in. -/
def Obligations.RnuKeepsTheValueInside : Prop :=
  ∀ (ibuf : List Byte) (low high v c : Nat), low ≤ v → v ≤ high → high ≤ 2 ^ 64 - 1 →
    (rnuDec ibuf low high v c).low ≤ (rnuDec ibuf low high v c).value ∧
    (rnuDec ibuf low high v c).value ≤ (rnuDec ibuf low high v c).high

/-- 45_ac_encoder.md section 3, `AC_ENC_FINISH`: the disambiguating bit and the inverted pending bits (and
`AC_FLUSH_EXTRA` more) follow the emitted bits, the last byte is completed with zero bits, the header gets `A_NSYM` most
significant byte first, the mode is `DONE`. -/
def Obligations.AcEncFinishClosesTheArchive : Prop :=
  ∀ s : State, s.ac.fault = 0 → s.ac.mode = .enc → 8 ≤ s.ac.obuf.length →
    let b : Bool := decide (2 ^ 62 ≤ s.ac.low.toNat)
    let bits := b :: List.replicate (s.ac.pending.toNat + s.params.acFlushExtra.val) (!b)
    let total := s.ac.pk.n.toNat + bits.length
    let len := s.ac.obuf.length + (total + 7) / 8
    (fitsCap s.params.outCap len = false → exec (.acEncFinish 0 0) s = .next (acFaulted s .bufferFull)) ∧
    (fitsCap s.params.outCap len = true → len < 2 ^ 64 → ∃ out header : List Byte,
      exec (.acEncFinish 0 0) s =
        .next (replied
          { s with ac := { s.ac with
            pending := 0, pk := { acc := 0, n := 0 }, obuf := header ++ out.drop 8, mode := .done } } .ok
          (BitVec.ofNat 64 len)) ∧
      out.length = len ∧
      out.flatMap byteBits =
        packedBits s.ac.pk s.ac.obuf ++ bits ++ List.replicate ((8 - total % 8) % 8) false ∧
      header.length = 8 ∧ unBe64 header = s.ac.nsym.toNat)

/-! ### Arithmetic decoder -/

/-- 47_ac_decoder.md sections 1 and 3: `AC_IN_BYTE` appends its byte or is `BufferFull`; `AC_IN_CLEAR` empties the input
buffer; `AC_DEC_END` goes to mode `IDLE`; nothing else changes. -/
def Obligations.AcInputBufferCommandsAndDecEnd : Prop :=
  (∀ s : State, s.ac.fault = 0 → s.ac.mode ≠ .dec →
    (∀ a : Byte, fitsCap s.params.inCap (s.ac.ibuf.length + 1) = true →
      exec (.acInByte a 0) s = .next (replied { s with ac := { s.ac with ibuf := s.ac.ibuf ++ [a] } } .ok 0)) ∧
    (∀ a : Byte, fitsCap s.params.inCap (s.ac.ibuf.length + 1) = false →
      exec (.acInByte a 0) s = .next (acFaulted s .bufferFull)) ∧
    exec (.acInClear 0 0) s = .next (replied { s with ac := { s.ac with ibuf := [] } } .ok 0)) ∧
  (∀ s : State, s.ac.fault = 0 → s.ac.mode = .dec →
    exec (.acDecEnd 0 0) s = .next (replied { s with ac := { s.ac with mode := .idle } } .ok 0))

/-- 47_ac_decoder.md section 2, `AC_DEC_INIT`: the header is the count of symbols, the first 64 bitstream bits (0 past the
end) are the value, the interval is the full range; fewer than 8 bytes are `InvalidArchive`. -/
def Obligations.AcDecInitReadsHeaderAndValue : Prop :=
  ∀ s : State, s.ac.fault = 0 → s.ac.mode = .idle ∨ s.ac.mode = .done →
    (s.ac.ibuf.length < 8 → exec (.acDecInit 0 0) s = .next (acFaulted s .invalidArchive)) ∧
    (8 ≤ s.ac.ibuf.length → ∃ remain value : Word,
      exec (.acDecInit 0 0) s =
        .next (replied
          { s with ac := { s.ac with
            remain := remain, low := 0, high := 0xFFFFFFFFFFFFFFFF, pending := 0, value := value, cur := 64,
            mode := .dec } } .ok remain) ∧
      remain.toNat = ((List.range 8).map fun i => ((s.ac.ibuf[i]?).getD 0).toNat * 2 ^ (8 * (7 - i))).sum ∧
      ∀ k : Nat, k < 64 →
        value.getLsbD (63 - k) = ((s.ac.ibuf[8 + k / 8]?).map fun b => b.getLsbD (7 - k % 8)).getD false)

/-- 47_ac_decoder.md section 3, with an inference that the spec marks as its own ("It is the exact inverse of narrowing"):
the decode target is `((value - low + 1) * T - 1) / R`, not ok only for `value < low`; the value
lies in a symbol's narrowed interval exactly when the target lies between its cumulative counts. -/
def Obligations.TargetInvertsNarrowing : Prop :=
  ∀ low high value total : Nat, low ≤ high → 0 < total →
    (value < low → targetOf low high value total = none) ∧
    (low ≤ value → ∃ target, targetOf low high value total = some target ∧
      target = ((value - low + 1) * total - 1) / (high - low + 1) ∧
      (value ≤ high → target ≤ total - 1) ∧
      ∀ cl ch lo hi : Nat, cl < ch → ch ≤ total → narrow low high cl ch total = some (lo, hi) →
        (lo ≤ value ↔ cl ≤ target) ∧ (value ≤ hi ↔ target < ch))

/-- 47_ac_decoder.md section 3, `AC_DEC_SYM` with symbols left: the symbol whose cumulative counts enclose the target is
returned, the interval is narrowed and renormalised with the value, one symbol fewer remains; an invalid table is
`BadModel`, a cursor past its width `CounterOverflow`. -/
def Obligations.AcDecSymFindsTheSymbol : Prop :=
  ∀ s : State, s.ac.remain ≠ 0 →
    (s.ac.fault = 0 → s.ac.mode = .dec → tableValid s.ac.cnt s.ac.total = false →
      exec (.acDecSym 0 0) s = .next (acFaulted s .badModel)) ∧
    (Coding s.ac .dec → s.ac.low.toNat ≤ s.ac.value.toNat → s.ac.value.toNat ≤ s.ac.high.toNat →
      ∃ sym : Byte,
        let low := s.ac.low.toNat
        let high := s.ac.high.toNat
        let total := s.ac.total.toNat
        let target := ((s.ac.value.toNat - low + 1) * total - 1) / (high - low + 1)
        let r := rnuDec s.ac.ibuf (narrowLow low high (cum s.ac.cnt sym.toNat) total)
          (narrowHigh low high (cum s.ac.cnt (sym.toNat + 1)) total) s.ac.value.toNat s.ac.cur.toNat
        cum s.ac.cnt sym.toNat ≤ target ∧ target < cum s.ac.cnt (sym.toNat + 1) ∧
        (2 ^ 64 - 1 < r.cur → exec (.acDecSym 0 0) s = .next (acFaulted s .counterOverflow)) ∧
        (r.cur ≤ 2 ^ 64 - 1 →
          exec (.acDecSym 0 0) s =
            .next (replied
              { s with ac := { s.ac with
                low := BitVec.ofNat 64 r.low, high := BitVec.ofNat 64 r.high, value := BitVec.ofNat 64 r.value,
                cur := BitVec.ofNat 64 r.cur, remain := s.ac.remain - 1 } } .ok (sym.setWidth 64))))

/-- 47_ac_decoder.md section 3, 46_renorm_unit.md section 4, an inference that the spec marks as its own ("the two sides'
`(low, high)` stay equal after every symbol"): where encoder and decoder have the same interval and
table and the decoder's value lies in the interval of the symbol that the encoder codes, the decoder returns that symbol
and both have the same interval again. -/
def Obligations.DecoderFollowsEncoder : Prop :=
  ∀ (e d e' d' : State) (a : Byte),
    Coding e.ac .enc → Coding d.ac .dec → e.ac.low = d.ac.low → e.ac.high = d.ac.high → e.ac.cnt = d.ac.cnt →
    e.ac.total = d.ac.total → d.ac.remain ≠ 0 →
    narrowLow e.ac.low.toNat e.ac.high.toNat (cum e.ac.cnt a.toNat) e.ac.total.toNat ≤ d.ac.value.toNat →
    d.ac.value.toNat ≤ narrowHigh e.ac.low.toNat e.ac.high.toNat (cum e.ac.cnt (a.toNat + 1)) e.ac.total.toNat →
    exec (.acEncSym a 0) e = .next e' → e'.ac.fault = 0 → exec (.acDecSym 0 0) d = .next d' → d'.ac.fault = 0 →
    d'.responses = { status := .ok, res := a.setWidth 64 } :: d.responses ∧
    d'.ac.low = e'.ac.low ∧ d'.ac.high = e'.ac.high

/-- 47_ac_decoder.md section 3, an inference that the spec marks as its own ("Decoder invariant"): in a state of the invariant `AC_DEC_SYM` never answers `DecodeDesync`, and it keeps the value
inside the interval. -/
def Obligations.DesyncIsUnreachable : Prop :=
  ∀ (s t : State) (a : Byte) (d : Word), Inv s → exec (.acDecSym a d) s = .next t →
    (∀ r : Response, t.responses = r :: s.responses → r.status ≠ .decodeDesync) ∧
    (t.ac.mode = .dec → t.ac.low.toNat ≤ t.ac.value.toNat ∧ t.ac.value.toNat ≤ t.ac.high.toNat)

/-- 47_ac_decoder.md section 3, an inference that the spec marks as its own ("Round trip"): with `AC_FLUSH_EXTRA = 1` a
stream of symbols that is encoded with one fixed valid table and whose archive is then decoded by an engine with the same table
comes back, followed by the end marker. (The bound on the length keeps the decoder's bit index within 64 bits.) -/
def Obligations.ArithmeticRoundTrip : Prop :=
  ∀ (s t u : State) (bs : List Byte), s.ac.fault = 0 → s.ac.mode = .idle ∨ s.ac.mode = .done →
    tableValid s.ac.cnt s.ac.total = true → s.params.acFlushExtra = 1 → bs.length < 2 ^ 57 →
    execAll ([.acEncInit 0 0] ++ bs.map (fun b => Instr.acEncSym b 0) ++ [.acEncFinish 0 0]) s = .next t →
    t.ac.fault = 0 →
    u.ac.fault = 0 → u.ac.mode = .idle ∨ u.ac.mode = .done → u.ac.cnt = s.ac.cnt → u.ac.total = s.ac.total →
    u.ac.ibuf = t.ac.obuf →
    ∃ v : State,
      execAll ([.acDecInit 0 0] ++ List.replicate (bs.length + 1) (.acDecSym 0 0)) u = .next v ∧
      v.ac.fault = 0 ∧ v.ac.mode = .dec ∧ v.ac.remain = 0 ∧
      v.responses =
        [{ status := .ok, res := 0x100 }] ++ (bs.map fun b => { status := .ok, res := b.setWidth 64 }).reverse ++
          [{ status := .ok, res := BitVec.ofNat 64 bs.length }] ++ u.responses

/-- 47_ac_decoder.md section 3, an inference that the spec marks as its own ("Round trip"): every symbol is coded with a table
of its own, and the decoder is presented the same tables in the same order. With `AC_FLUSH_EXTRA = 1`, or no symbol, or an
`A_LOW` at the finish that is 0 or at least `QUARTER`, the symbols come back, encoder and decoder have the same interval
after every symbol, and the next answer is the end marker. With `AC_FLUSH_EXTRA = 0` and `0 < A_LOW < QUARTER` no fault is
raised and at least one answer differs. (The bound on the length keeps the decoder's bit index within 64 bits.) -/
def Obligations.ArithmeticRoundTripWithTables : Prop :=
  ∀ (s m t u : State) (ms : List (Vector (BitVec 32) 256 × Byte)),
    s.ac.fault = 0 → s.ac.mode = .idle ∨ s.ac.mode = .done → ms.length < 2 ^ 57 →
    execAll (encodeCommands ms) s = .next m → exec (.acEncFinish 0 0) m = .next t → t.ac.fault = 0 →
    u.ac.fault = 0 → u.ac.mode = .idle ∨ u.ac.mode = .done → u.ac.ibuf = t.ac.obuf →
    (s.params.acFlushExtra = 1 ∨ ms = [] ∨ m.ac.low = 0 ∨ 2 ^ 62 ≤ m.ac.low.toNat →
      (∀ first rest, ms = first ++ rest → ∃ e d : State,
        execAll (encodeCommands first) s = .next e ∧ execAll (decodeCommands first) u = .next d ∧ d.ac.fault = 0 ∧
        d.ac.low = e.ac.low ∧ d.ac.high = e.ac.high ∧
        d.responses = decodeAnswers ms.length first ++ u.responses) ∧
      ∃ v : State, execAll (decodeCommands ms ++ [.acDecSym 0 0]) u = .next v ∧ v.ac.fault = 0 ∧ v.ac.mode = .dec ∧
        v.responses = [{ status := .ok, res := 0x100 }] ++ decodeAnswers ms.length ms ++ u.responses) ∧
    (s.params.acFlushExtra = 0 → 0 < m.ac.low.toNat → m.ac.low.toNat < 2 ^ 62 →
      ∃ d : State, execAll (decodeCommands ms) u = .next d ∧ d.ac.fault = 0 ∧
        d.responses ≠ decodeAnswers ms.length ms ++ u.responses)

/-- 47_ac_decoder.md section 4, `AC_RD`: each selector returns its item and changes nothing. -/
def Obligations.AcRdReturnsTheItem : Prop :=
  (∀ s : State, exec (.acRd 0 0) s =
    .next (replied s .ok (BitVec.ofNat 64 (256 * s.ac.fault.toNat + (acModeCode s.ac.mode).toNat)))) ∧
  ∀ s : State, s.ac.fault = 0 →
    exec (.acRd 1 0) s = .next (replied s .ok s.ac.low) ∧
    exec (.acRd 2 0) s = .next (replied s .ok s.ac.high) ∧
    exec (.acRd 3 0) s = .next (replied s .ok s.ac.pending) ∧
    exec (.acRd 4 0) s = .next (replied s .ok s.ac.value) ∧
    (∀ b : Byte, exec (.acRd 5 (b.setWidth 64)) s = .next (replied s .ok ((tableRead s.ac.cnt b).setWidth 64))) ∧
    exec (.acRd 6 0) s = .next (replied s .ok (s.ac.total.setWidth 64)) ∧
    (s.ac.mode = .done →
      (s.ac.obuf.length < 2 ^ 64 →
        exec (.acRd 7 0) s = .next (replied s .ok (BitVec.ofNat 64 s.ac.obuf.length))) ∧
      ∀ (i : Nat) (b : Byte), i < 2 ^ 64 → s.ac.obuf[i]? = some b →
        exec (.acRd 8 (BitVec.ofNat 64 i)) s = .next (replied s .ok (b.setWidth 64))) ∧
    (s.ac.ibuf.length < 2 ^ 64 → exec (.acRd 9 0) s = .next (replied s .ok (BitVec.ofNat 64 s.ac.ibuf.length))) ∧
    exec (.acRd 10 0) s = .next (replied s .ok s.ac.nsym) ∧
    exec (.acRd 11 0) s = .next (replied s .ok s.ac.remain) ∧
    exec (.acRd 12 0) s = .next (replied s .ok s.ac.cur)

/-! ### The machine -/

/-- The invariant, which 10_state.md marks as the spec's own inference ("that hold in every reachable state"), holds right
after reset, for every build with finite capacities; the capacities
and `AC_FLUSH_EXTRA` of `State.reset` are the model's choice (log 3). -/
def Obligations.ResetSatisfiesTheInvariant : Prop :=
  (∀ p : Params, p.wf = true → p.bounded = true → Inv (State.resetOf p)) ∧ Inv State.reset

/-- 10_state.md sections 2 and 3, an inference that the spec marks as its own ("that hold in every reachable state"): every
step keeps the invariant of both engines, from every state that has it. -/
def Obligations.StepKeepsTheInvariant : Prop := ∀ s t : State, Inv s → step s = .next t → Inv t

/-- 40_block_control.md section 1, an inference that the spec marks as its own ("Totality"): from a state of the invariant every step answers a next state, whatever
command word or reset is presented, and so does every run. -/
def Obligations.EveryStepAnswers : Prop :=
  (∀ s : State, Inv s → ∃ t, step s = .next t) ∧ (∀ (s : State) (k : Nat), Inv s → RunAnswers k s)
end

