-- ==== Sys2Proof/Laws/Assembly.lean ====
section
/-! SUPPORT. What running an expansion does, and the size of a model load. -/

namespace Sys2Proof.Machine

/-- A command that answers `OK` lets the expansion go on. -/
theorem runExpansion_cons_ok {i : Instr} {is : List Instr} {s t : State} {v : Word} {rs : List Response}
    (h : exec i s = .next t) (hr : t.responses = { status := .ok, res := v } :: rs) :
    runExpansion (i :: is) s = runExpansion is t := by
  simp [runExpansion, h, hr]

/-- A command that answers a fault or a refusal ends the expansion. -/
theorem runExpansion_cons_stop {i : Instr} {is : List Instr} {s t : State} {r : Response} {rs : List Response}
    (h : exec i s = .next t) (hr : t.responses = r :: rs) (hs : r.status ≠ .ok) :
    runExpansion (i :: is) s = .next t := by
  simp [runExpansion, h, hr, hs]

/-- A model load is 256 counts and the total. -/
@[simp] theorem length_expand_acModelLoad (cnt : Vector (BitVec 32) 256) :
    (Pseudo.acModelLoad cnt).expand.length = 257 := by
  simp [Pseudo.expand]

end Sys2Proof.Machine
end

