-- ==== Sys2Proof/Laws/State.lean ====
section
/-! SUPPORT. Every field of State after every update of it, so that no proof unfolds a record update. -/

namespace Sys2Proof.Machine

/-! ### `setHuf` -/

@[simp] theorem State.setHuf_huf (s : State) (h : HufState) : (s.setHuf h).huf = h := rfl
@[simp] theorem State.setHuf_ac (s : State) (h : HufState) : (s.setHuf h).ac = s.ac := rfl
@[simp] theorem State.setHuf_port (s : State) (h : HufState) : (s.setHuf h).port = s.port := rfl
@[simp] theorem State.setHuf_responses (s : State) (h : HufState) : (s.setHuf h).responses = s.responses := rfl
@[simp] theorem State.setHuf_params (s : State) (h : HufState) : (s.setHuf h).params = s.params := rfl

/-! ### `setAc` -/

@[simp] theorem State.setAc_huf (s : State) (c : AcState) : (s.setAc c).huf = s.huf := rfl
@[simp] theorem State.setAc_ac (s : State) (c : AcState) : (s.setAc c).ac = c := rfl
@[simp] theorem State.setAc_port (s : State) (c : AcState) : (s.setAc c).port = s.port := rfl
@[simp] theorem State.setAc_responses (s : State) (c : AcState) : (s.setAc c).responses = s.responses := rfl
@[simp] theorem State.setAc_params (s : State) (c : AcState) : (s.setAc c).params = s.params := rfl

/-! ### `respond` -/

@[simp] theorem State.respond_huf (s : State) (st : Status) (v : Word) : (s.respond st v).huf = s.huf := rfl
@[simp] theorem State.respond_ac (s : State) (st : Status) (v : Word) : (s.respond st v).ac = s.ac := rfl
@[simp] theorem State.respond_port (s : State) (st : Status) (v : Word) : (s.respond st v).port = s.port := rfl
@[simp] theorem State.respond_responses (s : State) (st : Status) (v : Word) :
    (s.respond st v).responses = { status := st, res := v } :: s.responses := rfl
@[simp] theorem State.respond_params (s : State) (st : Status) (v : Word) : (s.respond st v).params = s.params := rfl

/-! ### `resetEngine` and `hardwareReset` -/

@[simp] theorem resetEngine_huf_huf (s : State) : (resetEngine .huf s).huf = HufState.reset := rfl
@[simp] theorem resetEngine_huf_ac (s : State) : (resetEngine .huf s).ac = s.ac := rfl
@[simp] theorem resetEngine_ac_huf (s : State) : (resetEngine .ac s).huf = s.huf := rfl
@[simp] theorem resetEngine_ac_ac (s : State) : (resetEngine .ac s).ac = AcState.reset := rfl
@[simp] theorem resetEngine_port (e : Engine) (s : State) : (resetEngine e s).port = s.port := by cases e <;> rfl
@[simp] theorem resetEngine_responses (e : Engine) (s : State) : (resetEngine e s).responses = s.responses := by
  cases e <;> rfl
@[simp] theorem resetEngine_params (e : Engine) (s : State) : (resetEngine e s).params = s.params := by cases e <;> rfl
@[simp] theorem hardwareReset_huf (s : State) : (hardwareReset s).huf = HufState.reset := rfl
@[simp] theorem hardwareReset_ac (s : State) : (hardwareReset s).ac = AcState.reset := rfl
@[simp] theorem hardwareReset_port (s : State) : (hardwareReset s).port = s.port := rfl
@[simp] theorem hardwareReset_responses (s : State) : (hardwareReset s).responses = s.responses := rfl
@[simp] theorem hardwareReset_params (s : State) : (hardwareReset s).params = s.params := rfl

/-! ### The port -/

@[simp] theorem presentCommand_huf (s : State) (w : CmdWord) : (presentCommand s w).huf = s.huf := rfl
@[simp] theorem presentCommand_ac (s : State) (w : CmdWord) : (presentCommand s w).ac = s.ac := rfl
@[simp] theorem presentCommand_port (s : State) (w : CmdWord) : (presentCommand s w).port = .command w :: s.port := rfl
@[simp] theorem presentCommand_responses (s : State) (w : CmdWord) :
    (presentCommand s w).responses = s.responses := rfl
@[simp] theorem presentCommand_params (s : State) (w : CmdWord) : (presentCommand s w).params = s.params := rfl

/-- What the block takes is the first event of the port, and only the port changes. -/
theorem takeEvent_eq_some {s t : State} {e : HostEvent} :
    takeEvent s = some (e, t) ↔ ∃ rest, s.port = e :: rest ∧ t = { s with port := rest } := by
  unfold takeEvent
  cases h : s.port with
  | nil => simp
  | cons x xs =>
    simp only [Option.some.injEq, Prod.mk.injEq, List.cons.injEq]
    constructor
    · rintro ⟨rfl, rfl⟩; exact ⟨xs, ⟨rfl, rfl⟩, rfl⟩
    · rintro ⟨rest, ⟨rfl, rfl⟩, rfl⟩; exact ⟨rfl, rfl⟩

/-- Nothing is taken exactly where the port is empty. -/
theorem takeEvent_eq_none {s : State} : takeEvent s = none ↔ s.port = [] := by
  unfold takeEvent; cases s.port <;> simp

/-- A presented command is the next event taken, and the rest of the state is as before. -/
@[simp] theorem takeEvent_presentCommand (s : State) (w : CmdWord) :
    takeEvent (presentCommand s w) = some (.command w, s) := rfl

end Sys2Proof.Machine
end

