-- ==== Sys2Proof/Laws/Ops.lean ====
section
/-! SUPPORT. For each shared operation, once, everything that it can do. -/

namespace Sys2Proof.Machine

/-! ### Outcomes -/

@[simp] theorem answer_eq (s : State) (v : Word) : answer s v = .next (s.respond .ok v) := rfl
@[simp] theorem refuse_eq (s : State) (code : Status) : refuse s code = .next (s.respond code 0) := rfl
@[simp] theorem illegalCommand_eq (s : State) : illegalCommand s = .next (s.respond .illegalCommand 0) := rfl
@[simp] theorem raiseFault_huf (s : State) (code : Status) :
    raiseFault .huf s code = .next ((s.setHuf { s.huf with fault := statusCode code }).respond code 0) := rfl
@[simp] theorem raiseFault_ac (s : State) (code : Status) :
    raiseFault .ac s code = .next ((s.setAc { s.ac with fault := statusCode code }).respond code 0) := rfl

/-- Taking a fault writes the engine's latch and adds a response; nothing else changes. -/
theorem raiseFault_frame {e : Engine} {s t : State} {code : Status} (h : raiseFault e s code = .next t) :
    t.responses = { status := code, res := 0 } :: s.responses ∧ t.port = s.port ∧ t.params = s.params ∧
    faultLatch e t = statusCode code ∧
    t.huf = (if e = .huf then { s.huf with fault := statusCode code } else s.huf) ∧
    t.ac = (if e = .ac then { s.ac with fault := statusCode code } else s.ac) := by
  cases e <;> simp only [raiseFault_huf, raiseFault_ac, Host.Outcome.next.injEq] at h <;> subst h <;> simp [faultLatch]

/-- The operand check: the command goes on, or is refused with `BadOperand`. -/
theorem checkOperands_cases (ok : Bool) (s : State) (k : Result) :
    (ok = true ∧ checkOperands ok s k = k) ∨
    (ok = false ∧ checkOperands ok s k = .next (s.respond .badOperand 0)) := by
  cases ok <;> simp [checkOperands]

/-- The checks of a command of an engine: the command goes on, or is refused by the first check that fails. -/
theorem engineCommand_cases (e : Engine) (operandsOk modeOk : Bool) (s : State) (k : Result) :
    (operandsOk = true ∧ faultLatch e s = 0 ∧ modeOk = true ∧ engineCommand e operandsOk modeOk s k = k) ∨
    (operandsOk = false ∧ engineCommand e operandsOk modeOk s k = .next (s.respond .badOperand 0)) ∨
    (operandsOk = true ∧ faultLatch e s ≠ 0 ∧
      engineCommand e operandsOk modeOk s k = .next (s.respond .faulted 0)) ∨
    (operandsOk = true ∧ faultLatch e s = 0 ∧ modeOk = false ∧
      engineCommand e operandsOk modeOk s k = .next (s.respond .sequenceError 0)) := by
  unfold engineCommand checkOperands
  cases operandsOk
  · simp
  · by_cases h : faultLatch e s = 0
    · cases modeOk <;> simp [h]
    · have hb : (faultLatch e s != 0) = true := by simpa using h
      simp only [if_true, hb, refuse_eq]
      exact .inr (.inr (.inl ⟨trivial, h, trivial⟩))

/-- A command whose checks all pass goes on. -/
theorem engineCommand_pass {e : Engine} {operandsOk modeOk : Bool} {s : State} {k : Result}
    (ho : operandsOk = true) (hf : faultLatch e s = 0) (hm : modeOk = true) :
    engineCommand e operandsOk modeOk s k = k := by
  subst ho hm
  simp [engineCommand, checkOperands, hf]

/-! ### Buffers -/

/-- A capacity with room for a length has room for a shorter one. -/
theorem fitsCap_mono {cap : Option Nat} {m n : Nat} (h : fitsCap cap n = true) (hmn : m ≤ n) :
    fitsCap cap m = true := by
  cases cap with
  | none => rfl
  | some c => simp only [fitsCap, decide_eq_true_eq] at *; omega

@[simp] theorem fitsCap_zero (cap : Option Nat) : fitsCap cap 0 = true := by
  cases cap with
  | none => rfl
  | some c => exact decide_eq_true (Nat.zero_le c)

theorem appendBytes_eq_some {cap : Option Nat} {buf bytes out : List Byte} :
    appendBytes cap buf bytes = some out ↔
      fitsCap cap (buf.length + bytes.length) = true ∧ out = buf ++ bytes := by
  unfold appendBytes
  split
  · rename_i h
    exact ⟨fun e => ⟨h, (Option.some.inj e).symm⟩, fun e => e.2 ▸ rfl⟩
  · rename_i h
    exact ⟨fun e => (nomatch e), fun e => absurd e.1 h⟩

theorem appendBytes_eq_none {cap : Option Nat} {buf bytes : List Byte} :
    appendBytes cap buf bytes = none ↔ fitsCap cap (buf.length + bytes.length) = false := by
  unfold appendBytes
  split <;> simp_all

theorem count64_of_lt {n : Nat} (h : n < 2 ^ 64) : count64 n = BitVec.ofNat 64 n := if_pos h

theorem toNat_count64_of_lt {n : Nat} (h : n < 2 ^ 64) : (count64 n).toNat = n := by
  rw [count64_of_lt h, BitVec.toNat_ofNat, Nat.mod_eq_of_lt h]

/-! ### The bit packer -/

/-- One pushed bit: a bit more is held, or a byte is completed and appended. -/
theorem pushBit_cases {cap : Option Nat} {p q : PackState} {b : Bool} (h : pushBit cap p b = some q) :
    (p.pk.n.toNat + 1 < 8 ∧ q.pk.n.toNat = p.pk.n.toNat + 1 ∧ q.out = p.out ∧
      q.pk.acc = (p.pk.acc <<< 1) ||| (BitVec.ofBool b).setWidth 8) ∨
    (p.pk.n.toNat + 1 = 8 ∧ q.pk = Packer.empty ∧ fitsCap cap (p.out.length + 1) = true ∧
      q.out = p.out ++ [(p.pk.acc <<< 1) ||| (BitVec.ofBool b).setWidth 8]) := by
  have hn := p.pk.n.isLt
  unfold pushBit at h
  split at h
  · right
    rw [Option.map_eq_some_iff] at h
    obtain ⟨out, ho, rfl⟩ := h
    obtain ⟨hf, rfl⟩ := appendBytes_eq_some.mp ho
    exact ⟨by assumption, rfl, by simpa using hf, rfl⟩
  · left
    simp only [Option.some.injEq] at h
    subst h
    refine ⟨by omega, ?_, rfl, rfl⟩
    simp only [BitVec.toNat_ofNat]
    omega

/-- A push fails exactly where the byte that it completes does not fit. -/
theorem pushBit_eq_none {cap : Option Nat} {p : PackState} {b : Bool} :
    pushBit cap p b = none ↔ p.pk.n.toNat = 7 ∧ fitsCap cap (p.out.length + 1) = false := by
  unfold pushBit
  split
  · rw [Option.map_eq_none_iff, appendBytes_eq_none]
    simp only [List.length_cons, List.length_nil, Nat.zero_add, iff_and_self]
    intro; omega
  · simp only [reduceCtorEq, false_iff, not_and]
    intro; omega

@[simp] theorem pushBits_nil (cap : Option Nat) (p : PackState) : pushBits cap p [] = some p := rfl

theorem pushBits_cons_eq_some {cap : Option Nat} {p q : PackState} {b : Bool} {bits : List Bool} :
    pushBits cap p (b :: bits) = some q ↔ ∃ r, pushBit cap p b = some r ∧ pushBits cap r bits = some q := by
  rw [pushBits]
  cases pushBit cap p b <;> simp

/-- Pushing two strings one after the other. -/
theorem pushBits_append_eq_some {cap : Option Nat} {xs ys : List Bool} {p q : PackState} :
    pushBits cap p (xs ++ ys) = some q ↔ ∃ r, pushBits cap p xs = some r ∧ pushBits cap r ys = some q := by
  induction xs generalizing p with
  | nil => simp
  | cons x xs ih =>
    simp only [List.cons_append, pushBits_cons_eq_some, ih]
    constructor
    · rintro ⟨r, hr, r', hr', h⟩; exact ⟨r', ⟨r, hr, hr'⟩, h⟩
    · rintro ⟨r', ⟨r, hr, hr'⟩, h⟩; exact ⟨r, hr, r', hr', h⟩

/-- Pushing keeps what the buffer holds, counts the bits, and appends only bytes that fit. -/
theorem pushBits_counts {cap : Option Nat} {bits : List Bool} {p q : PackState} (h : pushBits cap p bits = some q) :
    q.pk.n.toNat = (p.pk.n.toNat + bits.length) % 8 ∧
    (∃ new, q.out = p.out ++ new ∧ new.length = (p.pk.n.toNat + bits.length) / 8) ∧
    (q.out = p.out ∨ fitsCap cap q.out.length = true) := by
  induction bits generalizing p with
  | nil =>
    have hn := p.pk.n.isLt
    simp only [pushBits_nil, Option.some.injEq] at h
    subst h
    refine ⟨by simp; omega, ⟨[], by simp, by simp; omega⟩, .inl rfl⟩
  | cons b bits ih =>
    obtain ⟨r, hr, hq⟩ := pushBits_cons_eq_some.mp h
    obtain ⟨hn, ⟨new, ho, hl⟩, hf⟩ := ih hq
    rcases pushBit_cases hr with ⟨hlt, hrn, hro, -⟩ | ⟨h8, hrp, hfit, hro⟩
    · refine ⟨by rw [hn, hrn, List.length_cons]; congr 1; omega,
        ⟨new, by rw [ho, hro], by rw [hl, hrn, List.length_cons]; congr 1; omega⟩, by rwa [hro] at hf⟩
    · have h0 : r.pk.n.toNat = 0 := by rw [hrp]; rfl
      rw [h0] at hn hl
      refine ⟨by rw [hn, List.length_cons]; omega, ⟨_ :: new, by rw [ho, hro, List.append_assoc]; rfl, ?_⟩, .inr ?_⟩
      · rw [List.length_cons, hl, List.length_cons]; omega
      · rcases hf with hf | hf
        · rw [hf, hro]; simpa using hfit
        · exact hf

/-- A flush gives an empty packer; it appends one byte, which fits, or nothing where no bit is held. -/
theorem flushPacker_cases {cap : Option Nat} {p q : PackState} (h : flushPacker cap p = some q) :
    (p.pk.n = 0 ∧ q = p) ∨
    (p.pk.n ≠ 0 ∧ q.pk = Packer.empty ∧ fitsCap cap (p.out.length + 1) = true ∧
      q.out = p.out ++ [p.pk.acc <<< padCount p.pk]) := by
  unfold flushPacker at h
  split at h
  · left; simp_all
  · right
    rw [Option.map_eq_some_iff] at h
    obtain ⟨out, ho, rfl⟩ := h
    obtain ⟨hf, rfl⟩ := appendBytes_eq_some.mp ho
    exact ⟨by assumption, rfl, by simpa using hf, rfl⟩

/-! ### Narrowing -/

/-- Where narrowing answers, it answers the interval of R178, which is not empty, inside a non-empty interval. -/
theorem narrow_eq_some {low high cl ch total lo hi : Nat} (h : narrow low high cl ch total = some (lo, hi)) :
    low ≤ high ∧ (high + 1 - low) * cl / total < (high + 1 - low) * ch / total ∧
    lo = low + (high + 1 - low) * cl / total ∧ hi = low + (high + 1 - low) * ch / total - 1 ∧ lo ≤ hi := by
  unfold narrow at h
  simp only at h
  split at h
  · simp only [Option.some.injEq, Prod.mk.injEq] at h
    obtain ⟨rfl, rfl⟩ := h
    rename_i hc
    refine ⟨hc.1, hc.2, rfl, rfl, by omega⟩
  · cases h

/-- Every Renorm step but the stop doubles the length of the interval. -/
theorem step_doubles {low high : Nat} (h : low ≤ high) (hc : rnuCase low high ≠ .stop) :
    stepHigh (rnuCase low high) high + 1 - stepLow (rnuCase low high) low = 2 * (high + 1 - low) := by
  unfold rnuCase at *
  split
  · simp only [stepHigh, stepLow, rnuOff]; omega
  · split
    · simp only [stepHigh, stepLow, rnuOff]; omega
    · split
      · simp only [stepHigh, stepLow, rnuOff]; omega
      · simp_all

end Sys2Proof.Machine
end

