-- ==== Sys2Proof/Laws/Memory.lean ====
section
/-! SUPPORT. Every operation on a buffer keeps it within its capacity, and so does every command. -/

namespace Sys2Proof.Machine

theorem appendBytes_fits {cap : Option Nat} {buf bytes out : List Byte} (h : appendBytes cap buf bytes = some out) :
    fitsCap cap out.length = true := by
  obtain ⟨hf, rfl⟩ := appendBytes_eq_some.mp h
  simpa using hf

theorem pushBits_fits {cap : Option Nat} {bits : List Bool} {p q : PackState} (h : pushBits cap p bits = some q)
    (hp : fitsCap cap p.out.length = true) : fitsCap cap q.out.length = true := by
  rcases (pushBits_counts h).2.2 with ho | hf
  · rwa [ho]
  · exact hf

theorem flushPacker_fits {cap : Option Nat} {p q : PackState} (h : flushPacker cap p = some q)
    (hp : fitsCap cap p.out.length = true) : fitsCap cap q.out.length = true := by
  rcases flushPacker_cases h with ⟨-, rfl⟩ | ⟨-, -, hf, ho⟩
  · exact hp
  · rw [ho]; simpa using hf

theorem resetEngine_memory_wf {e : Engine} {s : State} (h : Memory.wf s) : Memory.wf (resetEngine e s) := by
  obtain ⟨h1, h2, h3, h4⟩ := h
  cases e
  · exact ⟨fitsCap_zero _, fitsCap_zero _, h3, h4⟩
  · exact ⟨h1, h2, fitsCap_zero _, fitsCap_zero _⟩

theorem reset_memory_wf (p : Params) : Memory.wf (State.resetOf p) :=
  ⟨fitsCap_zero _, fitsCap_zero _, fitsCap_zero _, fitsCap_zero _⟩

theorem raiseFault_memory_wf {e : Engine} {s t : State} {code : Status} (h : Memory.wf s)
    (hr : raiseFault e s code = .next t) : Memory.wf t := by
  cases e <;> simp only [raiseFault_huf, raiseFault_ac, Host.Outcome.next.injEq] at hr <;> subst hr <;> exact h

/-- Overwriting the first 8 bytes of a buffer of at least 8 bytes keeps its length. -/
theorem header_length {n : Word} {out : List Byte} (h : 8 ≤ out.length) :
    (be64 n ++ out.drop 8).length = out.length := by
  simp [be64]; omega

end Sys2Proof.Machine
end

