-- ==== Sys2Proof/Laws/PerInstr.lean ====
section
/-! SUPPORT. A fact about the syntax of every command, one lemma for each constructor: the high half of its opcode names
the unit that processes it, and the low half is assigned (30_encoding.md R84, R86). -/

namespace Sys2Proof.Laws

/-- The unit of a command, by the families of the opcode map (R84): 0 block control, 1 Huffman engine, 2 AC engine. -/
def UnitOfOpcode.unit : Instr → BitVec 4
  | .nop _ _ | .resetAll _ _ => 0
  | .hufReset _ _ | .hufCount _ _ | .hufSetfreq _ _ | .hufBuild _ _ | .hufGencodes _ _ | .hufEncBegin _ _
  | .hufEncSym _ _ | .hufEncEnd _ _ | .hufInByte _ _ | .hufInClear _ _ | .hufDecBegin _ _ | .hufDecSym _ _
  | .hufDecAll _ _ | .hufDecEnd _ _ | .hufRd _ _ => 1
  | .acReset _ _ | .acModelInit _ _ | .acSetcnt _ _ | .acSettotal _ _ | .acInc _ _ | .acEncInit _ _
  | .acEncSym _ _ | .acEncFinish _ _ | .acInByte _ _ | .acInClear _ _ | .acDecInit _ _ | .acDecSym _ _
  | .acDecEnd _ _ | .acRd _ _ => 2

/-- Bits 7:4 of the opcode are the unit, and bits 3:0 are below the number of commands that the unit has. -/
def UnitOfOpcode.Statement (i : Instr) : Prop :=
  (opcode i).extractLsb' 4 4 = UnitOfOpcode.unit i ∧
  ((opcode i).extractLsb' 0 4).toNat <
    (if UnitOfOpcode.unit i = 0 then 2 else if UnitOfOpcode.unit i = 1 then 15 else 14)

theorem UnitOfOpcode.nop (a : Byte) (d : Word) : UnitOfOpcode.Statement (.nop a d) := by
  simp [UnitOfOpcode.Statement, opcode, UnitOfOpcode.unit]
theorem UnitOfOpcode.resetAll (a : Byte) (d : Word) : UnitOfOpcode.Statement (.resetAll a d) := by
  simp [UnitOfOpcode.Statement, opcode, UnitOfOpcode.unit]
theorem UnitOfOpcode.hufReset (a : Byte) (d : Word) : UnitOfOpcode.Statement (.hufReset a d) := by
  simp [UnitOfOpcode.Statement, opcode, UnitOfOpcode.unit]
theorem UnitOfOpcode.hufCount (a : Byte) (d : Word) : UnitOfOpcode.Statement (.hufCount a d) := by
  simp [UnitOfOpcode.Statement, opcode, UnitOfOpcode.unit]
theorem UnitOfOpcode.hufSetfreq (a : Byte) (d : Word) : UnitOfOpcode.Statement (.hufSetfreq a d) := by
  simp [UnitOfOpcode.Statement, opcode, UnitOfOpcode.unit]
theorem UnitOfOpcode.hufBuild (a : Byte) (d : Word) : UnitOfOpcode.Statement (.hufBuild a d) := by
  simp [UnitOfOpcode.Statement, opcode, UnitOfOpcode.unit]
theorem UnitOfOpcode.hufGencodes (a : Byte) (d : Word) : UnitOfOpcode.Statement (.hufGencodes a d) := by
  simp [UnitOfOpcode.Statement, opcode, UnitOfOpcode.unit]
theorem UnitOfOpcode.hufEncBegin (a : Byte) (d : Word) : UnitOfOpcode.Statement (.hufEncBegin a d) := by
  simp [UnitOfOpcode.Statement, opcode, UnitOfOpcode.unit]
theorem UnitOfOpcode.hufEncSym (a : Byte) (d : Word) : UnitOfOpcode.Statement (.hufEncSym a d) := by
  simp [UnitOfOpcode.Statement, opcode, UnitOfOpcode.unit]
theorem UnitOfOpcode.hufEncEnd (a : Byte) (d : Word) : UnitOfOpcode.Statement (.hufEncEnd a d) := by
  simp [UnitOfOpcode.Statement, opcode, UnitOfOpcode.unit]
theorem UnitOfOpcode.hufInByte (a : Byte) (d : Word) : UnitOfOpcode.Statement (.hufInByte a d) := by
  simp [UnitOfOpcode.Statement, opcode, UnitOfOpcode.unit]
theorem UnitOfOpcode.hufInClear (a : Byte) (d : Word) : UnitOfOpcode.Statement (.hufInClear a d) := by
  simp [UnitOfOpcode.Statement, opcode, UnitOfOpcode.unit]
theorem UnitOfOpcode.hufDecBegin (a : Byte) (d : Word) : UnitOfOpcode.Statement (.hufDecBegin a d) := by
  simp [UnitOfOpcode.Statement, opcode, UnitOfOpcode.unit]
theorem UnitOfOpcode.hufDecSym (a : Byte) (d : Word) : UnitOfOpcode.Statement (.hufDecSym a d) := by
  simp [UnitOfOpcode.Statement, opcode, UnitOfOpcode.unit]
theorem UnitOfOpcode.hufDecAll (a : Byte) (d : Word) : UnitOfOpcode.Statement (.hufDecAll a d) := by
  simp [UnitOfOpcode.Statement, opcode, UnitOfOpcode.unit]
theorem UnitOfOpcode.hufDecEnd (a : Byte) (d : Word) : UnitOfOpcode.Statement (.hufDecEnd a d) := by
  simp [UnitOfOpcode.Statement, opcode, UnitOfOpcode.unit]
theorem UnitOfOpcode.hufRd (a : Byte) (d : Word) : UnitOfOpcode.Statement (.hufRd a d) := by
  simp [UnitOfOpcode.Statement, opcode, UnitOfOpcode.unit]
theorem UnitOfOpcode.acReset (a : Byte) (d : Word) : UnitOfOpcode.Statement (.acReset a d) := by
  simp [UnitOfOpcode.Statement, opcode, UnitOfOpcode.unit]
theorem UnitOfOpcode.acModelInit (a : Byte) (d : Word) : UnitOfOpcode.Statement (.acModelInit a d) := by
  simp [UnitOfOpcode.Statement, opcode, UnitOfOpcode.unit]
theorem UnitOfOpcode.acSetcnt (a : Byte) (d : Word) : UnitOfOpcode.Statement (.acSetcnt a d) := by
  simp [UnitOfOpcode.Statement, opcode, UnitOfOpcode.unit]
theorem UnitOfOpcode.acSettotal (a : Byte) (d : Word) : UnitOfOpcode.Statement (.acSettotal a d) := by
  simp [UnitOfOpcode.Statement, opcode, UnitOfOpcode.unit]
theorem UnitOfOpcode.acInc (a : Byte) (d : Word) : UnitOfOpcode.Statement (.acInc a d) := by
  simp [UnitOfOpcode.Statement, opcode, UnitOfOpcode.unit]
theorem UnitOfOpcode.acEncInit (a : Byte) (d : Word) : UnitOfOpcode.Statement (.acEncInit a d) := by
  simp [UnitOfOpcode.Statement, opcode, UnitOfOpcode.unit]
theorem UnitOfOpcode.acEncSym (a : Byte) (d : Word) : UnitOfOpcode.Statement (.acEncSym a d) := by
  simp [UnitOfOpcode.Statement, opcode, UnitOfOpcode.unit]
theorem UnitOfOpcode.acEncFinish (a : Byte) (d : Word) : UnitOfOpcode.Statement (.acEncFinish a d) := by
  simp [UnitOfOpcode.Statement, opcode, UnitOfOpcode.unit]
theorem UnitOfOpcode.acInByte (a : Byte) (d : Word) : UnitOfOpcode.Statement (.acInByte a d) := by
  simp [UnitOfOpcode.Statement, opcode, UnitOfOpcode.unit]
theorem UnitOfOpcode.acInClear (a : Byte) (d : Word) : UnitOfOpcode.Statement (.acInClear a d) := by
  simp [UnitOfOpcode.Statement, opcode, UnitOfOpcode.unit]
theorem UnitOfOpcode.acDecInit (a : Byte) (d : Word) : UnitOfOpcode.Statement (.acDecInit a d) := by
  simp [UnitOfOpcode.Statement, opcode, UnitOfOpcode.unit]
theorem UnitOfOpcode.acDecSym (a : Byte) (d : Word) : UnitOfOpcode.Statement (.acDecSym a d) := by
  simp [UnitOfOpcode.Statement, opcode, UnitOfOpcode.unit]
theorem UnitOfOpcode.acDecEnd (a : Byte) (d : Word) : UnitOfOpcode.Statement (.acDecEnd a d) := by
  simp [UnitOfOpcode.Statement, opcode, UnitOfOpcode.unit]
theorem UnitOfOpcode.acRd (a : Byte) (d : Word) : UnitOfOpcode.Statement (.acRd a d) := by
  simp [UnitOfOpcode.Statement, opcode, UnitOfOpcode.unit]

end Sys2Proof.Laws
end

