-- ==== Sys2Proof/Laws/Table.lean ====
section
/-! SUPPORT. The fixed tables: reading back what was written, and all other entries as before. -/

namespace Sys2Proof.Machine

@[simp] theorem tableRead_tableWrite_same {α : Type} (t : Vector α 256) (b : Byte) (x : α) :
    tableRead (tableWrite t b x) b = x := by
  simp [tableRead, tableWrite]

theorem tableRead_tableWrite_ne {α : Type} (t : Vector α 256) {b c : Byte} (x : α) (h : c ≠ b) :
    tableRead (tableWrite t b x) c = tableRead t c := by
  have hn : b.toNat ≠ c.toNat := fun e => h (BitVec.eq_of_toNat_eq e.symm)
  simp [tableRead, tableWrite, hn]

@[simp] theorem tableRead_replicate {α : Type} (x : α) (b : Byte) : tableRead (Vector.replicate 256 x) b = x := by
  simp [tableRead]

/-- An entry of a table as an element of its list. -/
theorem tableRead_eq_toList {α : Type} (t : Vector α 256) (b : Byte) :
    t.toList[b.toNat]? = some (tableRead t b) := by
  have hb := b.isLt
  simp only [tableRead]
  rw [List.getElem?_eq_getElem (by simp; omega), Vector.getElem_toList]

/-- Two tables with the same entries are equal. -/
theorem table_ext {α : Type} {t u : Vector α 256} (h : ∀ b : Byte, tableRead t b = tableRead u b) : t = u := by
  apply Vector.ext
  intro i hi
  have := h (BitVec.ofNat 8 i)
  simpa [tableRead, Nat.mod_eq_of_lt hi] using this

/-- Writing one entry changes the code table at that byte only. -/
theorem clen_codeWrite_ne (t : CodeTable) {b c : Byte} (code : List Bool) (h : c ≠ b) :
    tableRead (codeWrite t b code).clen c = tableRead t.clen c := tableRead_tableWrite_ne t.clen _ h

@[simp] theorem clen_codeWrite_same (t : CodeTable) (b : Byte) (code : List Bool) :
    tableRead (codeWrite t b code).clen b = BitVec.ofNat 8 code.length := tableRead_tableWrite_same t.clen b _

theorem cbits_codeWrite_ne (t : CodeTable) {b c : Byte} (code : List Bool) (h : c ≠ b) :
    tableRead (codeWrite t b code).cbits c = tableRead t.cbits c := tableRead_tableWrite_ne t.cbits _ h

@[simp] theorem cbits_codeWrite_same (t : CodeTable) (b : Byte) (code : List Bool) :
    tableRead (codeWrite t b code).cbits b = packCode code := tableRead_tableWrite_same t.cbits b _

end Sys2Proof.Machine
end

