-- ==== Sys2Proof/Tests/Slice0.lean ====
section
/-! SUPPORT. Tests: words and single commands with the results that spec/ gives, and for every statement with hypotheses a
state that meets them. -/

namespace Sys2Proof.Tests

open Sys2Proof.Machine Sys2Proof.Statements

-- The kernel checks these many small theorems one after another, not each in a thread of its own.
set_option Elab.async false

/-! ### WellFormed: an ill-formed command for each check is refused (30_encoding.md R81, R85) -/

theorem test_illformed_nop : Instr.wellFormed (.nop 1 0) = false := by decide
theorem test_illformed_nop_d : Instr.wellFormed (.nop 0 1) = false := by decide
theorem test_illformed_resetAll : Instr.wellFormed (.resetAll 0 1) = false := by decide
theorem test_illformed_hufReset : Instr.wellFormed (.hufReset 1 0) = false := by decide
theorem test_illformed_hufCount : Instr.wellFormed (.hufCount 65 1) = false := by decide
theorem test_illformed_hufSetfreq : Instr.wellFormed (.hufSetfreq 65 0x100000000) = false := by decide
theorem test_illformed_hufBuild : Instr.wellFormed (.hufBuild 1 0) = false := by decide
theorem test_illformed_hufGencodes : Instr.wellFormed (.hufGencodes 0 1) = false := by decide
theorem test_illformed_hufEncBegin : Instr.wellFormed (.hufEncBegin 1 0) = false := by decide
theorem test_illformed_hufEncSym : Instr.wellFormed (.hufEncSym 0 1) = false := by decide
theorem test_illformed_hufEncEnd : Instr.wellFormed (.hufEncEnd 1 0) = false := by decide
theorem test_illformed_hufInByte : Instr.wellFormed (.hufInByte 0 1) = false := by decide
theorem test_illformed_hufInClear : Instr.wellFormed (.hufInClear 1 0) = false := by decide
theorem test_illformed_hufDecBegin : Instr.wellFormed (.hufDecBegin 0 1) = false := by decide
theorem test_illformed_hufDecSym : Instr.wellFormed (.hufDecSym 1 0) = false := by decide
theorem test_illformed_hufDecAll : Instr.wellFormed (.hufDecAll 0 1) = false := by decide
theorem test_illformed_hufDecEnd : Instr.wellFormed (.hufDecEnd 1 0) = false := by decide
theorem test_illformed_hufRd : Instr.wellFormed (.hufRd 11 0) = false := by decide
theorem test_illformed_acReset : Instr.wellFormed (.acReset 1 0) = false := by decide
theorem test_illformed_acModelInit : Instr.wellFormed (.acModelInit 0 1) = false := by decide
theorem test_illformed_acSetcnt : Instr.wellFormed (.acSetcnt 0 0x100000000) = false := by decide
theorem test_illformed_acSettotal : Instr.wellFormed (.acSettotal 0 0x10000000000) = false := by decide
theorem test_illformed_acSettotal_a : Instr.wellFormed (.acSettotal 1 0) = false := by decide
theorem test_illformed_acInc : Instr.wellFormed (.acInc 0 1) = false := by decide
theorem test_illformed_acEncInit : Instr.wellFormed (.acEncInit 1 0) = false := by decide
theorem test_illformed_acEncSym : Instr.wellFormed (.acEncSym 1 1) = false := by decide
theorem test_illformed_acEncFinish : Instr.wellFormed (.acEncFinish 1 0) = false := by decide
theorem test_illformed_acInByte : Instr.wellFormed (.acInByte 0 1) = false := by decide
theorem test_illformed_acInClear : Instr.wellFormed (.acInClear 1 0) = false := by decide
theorem test_illformed_acDecInit : Instr.wellFormed (.acDecInit 1 0) = false := by decide
theorem test_illformed_acDecSym : Instr.wellFormed (.acDecSym 0 1) = false := by decide
theorem test_illformed_acDecEnd : Instr.wellFormed (.acDecEnd 1 0) = false := by decide
theorem test_illformed_acRd : Instr.wellFormed (.acRd 13 0) = false := by decide
theorem test_wellformed_limits :
    Instr.wellFormed (.hufSetfreq 65 0xFFFFFFFF) = true ∧ Instr.wellFormed (.acSettotal 0 0xFFFFFFFFFF) = true ∧
      Instr.wellFormed (.hufRd 10 7) = true ∧ Instr.wellFormed (.acRd 12 7) = true := by decide

/-! ### Decode: a word of every command, written out from the opcode map (30_encoding.md R80, R84) -/

theorem test_decode_nop : decode 0x00000000000000000000#80 = .ok (.nop 0 0) := by decide
theorem test_decode_resetAll : decode 0x01000000000000000000#80 = .ok (.resetAll 0 0) := by decide
theorem test_decode_hufReset : decode 0x10000000000000000000#80 = .ok (.hufReset 0 0) := by decide
theorem test_decode_hufCount : decode 0x11410000000000000000#80 = .ok (.hufCount 65 0) := by decide
theorem test_decode_hufSetfreq : decode 0x12610000000000000005#80 = .ok (.hufSetfreq 97 5) := by decide
theorem test_decode_hufBuild : decode 0x13000000000000000000#80 = .ok (.hufBuild 0 0) := by decide
theorem test_decode_hufGencodes : decode 0x14000000000000000000#80 = .ok (.hufGencodes 0 0) := by decide
theorem test_decode_hufEncBegin : decode 0x15000000000000000000#80 = .ok (.hufEncBegin 0 0) := by decide
theorem test_decode_hufEncSym : decode 0x16430000000000000000#80 = .ok (.hufEncSym 67 0) := by decide
theorem test_decode_hufEncEnd : decode 0x17000000000000000000#80 = .ok (.hufEncEnd 0 0) := by decide
theorem test_decode_hufInByte : decode 0x18AA0000000000000000#80 = .ok (.hufInByte 170 0) := by decide
theorem test_decode_hufInClear : decode 0x19000000000000000000#80 = .ok (.hufInClear 0 0) := by decide
theorem test_decode_hufDecBegin : decode 0x1A000000000000000000#80 = .ok (.hufDecBegin 0 0) := by decide
theorem test_decode_hufDecSym : decode 0x1B000000000000000000#80 = .ok (.hufDecSym 0 0) := by decide
theorem test_decode_hufDecAll : decode 0x1C000000000000000000#80 = .ok (.hufDecAll 0 0) := by decide
theorem test_decode_hufDecEnd : decode 0x1D000000000000000000#80 = .ok (.hufDecEnd 0 0) := by decide
theorem test_decode_hufRd : decode 0x1E020000000000000100#80 = .ok (.hufRd 2 256) := by decide
theorem test_decode_acReset : decode 0x20000000000000000000#80 = .ok (.acReset 0 0) := by decide
theorem test_decode_acModelInit : decode 0x21000000000000000000#80 = .ok (.acModelInit 0 0) := by decide
theorem test_decode_acSetcnt : decode 0x22070000000000000064#80 = .ok (.acSetcnt 7 100) := by decide
theorem test_decode_acSettotal : decode 0x23000000000000000163#80 = .ok (.acSettotal 0 355) := by decide
theorem test_decode_acInc : decode 0x24070000000000000000#80 = .ok (.acInc 7 0) := by decide
theorem test_decode_acEncInit : decode 0x25000000000000000000#80 = .ok (.acEncInit 0 0) := by decide
theorem test_decode_acEncSym : decode 0x26010000000000000000#80 = .ok (.acEncSym 1 0) := by decide
theorem test_decode_acEncFinish : decode 0x27000000000000000000#80 = .ok (.acEncFinish 0 0) := by decide
theorem test_decode_acInByte : decode 0x28610000000000000000#80 = .ok (.acInByte 97 0) := by decide
theorem test_decode_acInClear : decode 0x29000000000000000000#80 = .ok (.acInClear 0 0) := by decide
theorem test_decode_acDecInit : decode 0x2A000000000000000000#80 = .ok (.acDecInit 0 0) := by decide
theorem test_decode_acDecSym : decode 0x2B000000000000000000#80 = .ok (.acDecSym 0 0) := by decide
theorem test_decode_acDecEnd : decode 0x2C000000000000000000#80 = .ok (.acDecEnd 0 0) := by decide
theorem test_decode_acRd : decode 0x2D050000000000000061#80 = .ok (.acRd 5 97) := by decide
/-- V-CTL-3. -/
theorem test_decode_illegal : decode 0x1F000000000000000000#80 = .error (.illegalCommand 0x1F) := by decide
/-- An ill-formed operand is decoded; the command refuses it (V-CTL-2). -/
theorem test_decode_ill_formed_word : decode 0x00010000000000000000#80 = .ok (.nop 1 0) := by decide
theorem test_decodeTableWord : decodeTableWord 80 0x11410000000000000000 = some (.hufCount 65 0) := by decide

/-! ### Assembler syntax (30_encoding.md R88) and pseudo-commands (R89) -/

theorem test_asmRows_opcodes :
    asmRows.map (fun r => (opcode (r.command 0 0)).toNat) = [0, 1] ++ (List.range 15).map (0x10 + ·) ++
      (List.range 14).map (0x20 + ·) := by decide
theorem test_asmRows_mnemonics : (asmRows.map AsmRow.mnemonic).Nodup := by decide +kernel
/-- V-HT-13: an operand that fits its field but not the command assembles; blank and comment lines give no word. -/
theorem test_assemble :
    assemble ["HUF_SETFREQ 65, 2^32 ; too wide", "; a comment", "", "HUF_COUNT 0b11"] =
      some [0x12410000000100000000#80, 0x11030000000000000000#80] := by decide +kernel
theorem test_assemble_malformed :
    assemble ["HUF_COUNT 256"] = none ∧ assemble ["HUF_COUNT 1, 2"] = none ∧ assemble ["HUF_CONUT 1"] = none ∧
    assemble ["HUF_COUNT 0x"] = none := by decide +kernel
theorem test_hufEncode_expansion :
    (Pseudo.hufEncode [65, 66]).expand = [.hufReset 0 0, .hufCount 65 0, .hufCount 66 0, .hufBuild 0 0,
      .hufGencodes 0 0, .hufEncBegin 0 0, .hufEncSym 65 0, .hufEncSym 66 0, .hufEncEnd 0 0] := by decide

/-! ### States -/

/-- A build with small buffers. -/
def build : Params := { inCap := some 16, outCap := some 16, acFlushExtra := 0 }

/-- That build after reset. -/
def start : State := State.resetOf build

/-- A leaf of weight 1. -/
def leaf1 : HufNode := { v := true, leaf := true, left := 0, right := 0, w := 1 }

/-- The table `{65:1, 66:1}` of V-HT-2. -/
def abFreq : State :=
  { start with huf := { start.huf with freq := tableWrite (tableWrite (Vector.replicate 256 0) 65#8 1) 66#8 1 } }

/-- Its tree: `N256 = (65, 66, 2)` (V-HT-2). -/
def abTree : State :=
  { abFreq with huf := { abFreq.huf with
    node := (((Vector.replicate 511 HufNode.zero).set 65 leaf1).set 66 leaf1).set 256
      { v := true, leaf := false, left := 65, right := 66, w := 2 }
    root := 256, nint := 1, mode := .tree } }

/-- Its codes: 65 has "0", 66 has "1" (V-HT-2). -/
def abReady : State :=
  { abTree with huf := { abTree.huf with
    code := { clen := tableWrite (tableWrite (Vector.replicate 256 0) 65#8 1) 66#8 1
              cbits := tableWrite (Vector.replicate 256 0) 66#8 (1#255 <<< 254) }
    mode := .ready } }

/-- The single-leaf table `{65:1}` with its tree and code (V-HT-1). -/
def aReady : State :=
  { start with huf := { start.huf with
    freq := tableWrite (Vector.replicate 256 0) 65#8 1
    node := (Vector.replicate 511 HufNode.zero).set 65 leaf1
    root := 65, nint := 0
    code := { clen := tableWrite (Vector.replicate 256 0) 65#8 1, cbits := Vector.replicate 256 0 }
    mode := .ready } }

/-- The single-leaf tree before its code is generated. -/
def aTree : State := { aReady with huf := { aReady.huf with code := CodeTable.empty, mode := .tree } }

/-- A Huffman encode with `n` collected bits `acc` and output `out`. -/
def abEnc (n : BitVec 3) (acc : Byte) (out : List Byte) : State :=
  { abReady with huf := { abReady.huf with pk := { acc := acc, n := n }, obuf := out, mode := .enc } }

/-- A Huffman decode with a payload, its bit count, a cursor and output. -/
def decoding (s : State) (ibuf : List Byte) (nbits cur : Word) (out : List Byte) : State :=
  { s with huf := { s.huf with ibuf := ibuf, nbits := nbits, cur := cur, obuf := out, mode := .dec } }

/-- A Huffman engine with a payload in its input buffer. -/
def holding (s : State) (ibuf : List Byte) : State := { s with huf := { s.huf with ibuf := ibuf } }

/-- A latched Huffman fault. -/
def hufFault (s : State) : State := { s with huf := { s.huf with fault := 4 } }

/-- A latched AC fault. -/
def acFault (s : State) : State := { s with ac := { s.ac with fault := 6 } }

/-- An arithmetic encode of the reset table with an output buffer, an interval and pending bits. -/
def acEnc (low high pending : Word) (out : List Byte) : State :=
  { start with ac := { start.ac with low := low, high := high, pending := pending, obuf := out, mode := .enc } }

/-- An arithmetic encode right after `AC_ENC_INIT`. -/
def acEnc0 : State := acEnc 0 0xFFFFFFFFFFFFFFFF 0 [0, 0, 0, 0, 0, 0, 0, 0]

/-- An arithmetic decode of the reset table over the full range. -/
def acDec (ibuf : List Byte) (value cur remain : Word) : State :=
  { start with ac := { start.ac with ibuf := ibuf, value := value, cur := cur, remain := remain, mode := .dec } }

/-- The decode of V-AD-1 after `AC_DEC_INIT`. -/
def acDec1 : State := acDec [0, 0, 0, 0, 0, 0, 0, 1, 0x61, 0] 0x6100000000000000 64 1

/-- A closed archive. -/
def acDone : State :=
  { start with ac := { start.ac with obuf := [0, 0, 0, 0, 0, 0, 0, 1, 0x61, 0], nsym := 1, mode := .done } }

/-- The response of a command. -/
def reply (r : Result) : Option Response :=
  match r with
  | .next t => t.responses.head?
  | .fault _ | .refused _ => none

/-- The state after a command. -/
def after (r : Result) : State :=
  match r with
  | .next t => t
  | .fault _ | .refused _ => start

/-- A word presented at the port of a state. -/
def present (s : State) (w : CmdWord) : State := { s with port := [.command w] }

/-! ### The trees and code tables of the test states satisfy their invariant -/

theorem read_abFreq (b : Byte) : tableRead abFreq.huf.freq b = if b = 65#8 ∨ b = 66#8 then 1 else 0 := by
  simp only [abFreq]
  by_cases h : b = 66#8
  · subst h; simp
  · rw [tableRead_tableWrite_ne _ _ h]
    by_cases h' : b = 65#8
    · subst h'; simp
    · rw [tableRead_tableWrite_ne _ _ h']; simp [h, h']

theorem present_abFreq : presentBytes abFreq.huf.freq = [65, 66] := by
  have : (fun b => tableRead abFreq.huf.freq b != 0) = fun b => decide (b = 65#8 ∨ b = 66#8) := by
    funext b
    rw [read_abFreq]
    by_cases h : b = 65#8 ∨ b = 66#8 <;> simp [h]
  rw [presentBytes, this]
  decide +kernel

theorem node_abTree (i : Nat) :
    nodeAt abTree.huf i = if i = 65 ∨ i = 66 then leaf1
      else if i = 256 then { v := true, leaf := false, left := 65, right := 66, w := 2 } else HufNode.zero := by
  simp only [nodeAt, abTree, Vector.getElem?_set, Vector.getElem?_replicate]
  split
  · subst_vars; simp
  · split
    · subst_vars; simp
    · split
      · subst_vars; simp
      · have h1 : i ≠ 65 := by omega
        have h2 : i ≠ 66 := by omega
        have h3 : i ≠ 256 := by omega
        simp only [h1, h2, h3, or_self, if_false]
        split <;> rfl

theorem abTree_treeOk : TreeOk abTree.huf := by
  refine ⟨?_, ?_, ?_, ?_, ?_⟩
  · show _ = (presentBytes abFreq.huf.freq).length
    rw [present_abFreq]; rfl
  · intro b
    show _ = if tableRead abFreq.huf.freq b = 0 then _ else leafNode (tableRead abFreq.huf.freq b)
    have hb := b.isLt
    rw [node_abTree, read_abFreq]
    by_cases h1 : b = 65#8
    · subst h1; decide
    · by_cases h2 : b = 66#8
      · subst h2; decide
      · have n1 : b.toNat ≠ 65 := fun e => h1 (BitVec.eq_of_toNat_eq e)
        have n2 : b.toNat ≠ 66 := fun e => h2 (BitVec.eq_of_toNat_eq e)
        have n3 : b.toNat ≠ 256 := by omega
        simp [h1, h2, n1, n2, n3]
  · intro i _ hi
    by_cases h : i = 256
    · subst h
      simp only [node_abTree]
      decide
    · have h' : ¬ i < 256 + abTree.huf.nint.toNat := by
        show ¬ i < 256 + 1
        omega
      rw [if_neg h', node_abTree, if_neg (by omega), if_neg h]
  · intro i _ hv hr
    rw [node_abTree] at hv
    have hr' : i ≠ 256 := hr
    by_cases h1 : i = 65
    · subst h1; simp only [parents, node_abTree]; decide
    · by_cases h2 : i = 66
      · subst h2; simp only [parents, node_abTree]; decide
      · simp [h1, h2, hr', HufNode.zero] at hv
  · decide

theorem clen_abReady (b : Byte) : tableRead abReady.huf.code.clen b = if b = 65#8 ∨ b = 66#8 then 1 else 0 := by
  simp only [abReady]
  by_cases h : b = 66#8
  · subst h; simp
  · rw [tableRead_tableWrite_ne _ _ h]
    by_cases h' : b = 65#8
    · subst h'; simp
    · rw [tableRead_tableWrite_ne _ _ h']; simp [h, h']

theorem cbits_abReady (b : Byte) : tableRead abReady.huf.code.cbits b = if b = 66#8 then 1#255 <<< 254 else 0 := by
  simp only [abReady]
  by_cases h : b = 66#8
  · subst h; simp
  · rw [tableRead_tableWrite_ne _ _ h]; simp [h]

theorem codeOf_abReady (b : Byte) :
    codeOf abReady.huf.code b = if b = 65#8 then [false] else if b = 66#8 then [true] else [] := by
  unfold codeOf
  rw [clen_abReady, cbits_abReady]
  by_cases h1 : b = 65#8
  · subst h1; decide
  · by_cases h2 : b = 66#8
    · subst h2; decide +kernel
    · simp [h1, h2]

theorem abReady_codesOk : CodesOk abReady.huf := by
  intro b
  have hf : tableRead abReady.huf.freq b = _ := read_abFreq b
  rw [codeOf_abReady, cbits_abReady, clen_abReady, hf]
  by_cases h1 : b = 65#8
  · subst h1; decide +kernel
  · by_cases h2 : b = 66#8
    · subst h2; decide +kernel
    · simp only [h1, h2, or_self, if_false]
      exact ⟨by decide +kernel, trivial⟩

theorem abReady_treeOk : TreeOk abReady.huf := abTree_treeOk

theorem read_aReady (b : Byte) : tableRead aReady.huf.freq b = if b = 65#8 then 1 else 0 := by
  simp only [aReady]
  by_cases h : b = 65#8
  · subst h; simp
  · rw [tableRead_tableWrite_ne _ _ h]; simp [h]

theorem present_aReady : presentBytes aReady.huf.freq = [65] := by
  have : (fun b => tableRead aReady.huf.freq b != 0) = fun b => decide (b = 65#8) := by
    funext b
    rw [read_aReady]
    by_cases h : b = 65#8 <;> simp [h]
  rw [presentBytes, this]
  decide +kernel

theorem node_aReady (i : Nat) : nodeAt aReady.huf i = if i = 65 then leaf1 else HufNode.zero := by
  simp only [nodeAt, aReady, Vector.getElem?_set, Vector.getElem?_replicate]
  split
  · subst_vars; simp
  · have h1 : i ≠ 65 := by omega
    simp only [h1, if_false]
    split <;> rfl

theorem aReady_treeOk : TreeOk aReady.huf := by
  refine ⟨?_, ?_, ?_, ?_, ?_⟩
  · rw [present_aReady]; rfl
  · intro b
    rw [node_aReady, read_aReady]
    by_cases h1 : b = 65#8
    · subst h1; decide
    · have n1 : b.toNat ≠ 65 := fun e => h1 (BitVec.eq_of_toNat_eq e)
      simp [h1, n1]
  · intro i _ hi
    have h' : ¬ i < 256 + aReady.huf.nint.toNat := by
      show ¬ i < 256 + 0
      omega
    rw [if_neg h', node_aReady, if_neg (by omega)]
  · intro i _ hv hr
    have hr' : i ≠ 65 := hr
    rw [node_aReady, if_neg hr'] at hv
    cases hv
  · rw [RootOk, node_aReady]; decide

theorem clen_aReady (b : Byte) : tableRead aReady.huf.code.clen b = if b = 65#8 then 1 else 0 := by
  simp only [aReady]
  by_cases h : b = 65#8
  · subst h; simp
  · rw [tableRead_tableWrite_ne _ _ h]; simp [h]

theorem codeOf_aReady (b : Byte) : codeOf aReady.huf.code b = if b = 65#8 then [false] else [] := by
  have hc : tableRead aReady.huf.code.cbits b = 0 := tableRead_replicate 0 b
  unfold codeOf
  rw [clen_aReady, hc]
  by_cases h1 : b = 65#8
  · subst h1; decide
  · simp [h1]

theorem aReady_codesOk : CodesOk aReady.huf := by
  intro b
  have hc : tableRead aReady.huf.code.cbits b = 0 := tableRead_replicate 0 b
  rw [codeOf_aReady, clen_aReady, hc, read_aReady]
  by_cases h1 : b = 65#8
  · subst h1; decide +kernel
  · simp only [h1, if_false]
    exact ⟨by decide +kernel, trivial⟩

theorem present_start : presentBytes start.huf.freq = [] := by
  have : (fun b => tableRead start.huf.freq b != 0) = fun _ => false := by
    funext b
    show (tableRead (Vector.replicate 256 (0 : BitVec 32)) b != 0) = false
    rw [tableRead_replicate]; rfl
  rw [presentBytes, this]
  decide +kernel

/-! ### One step of each command: the results that 95_test_vectors.md gives -/

theorem test_step_runs_the_presented_word :
    reply (step (start.withFetchWord 80 0x11410000000000000000)) = some ⟨.ok, 0⟩ := by decide +kernel
/-- V-CTL-3, V-CTL-5. -/
theorem test_step_illegal :
    reply (step (present (hufFault start) 0x1F000000000000000000#80)) = some ⟨.illegalCommand, 0⟩ := by decide +kernel
/-- V-CTL-1. -/
theorem test_nop : reply (exec (.nop 0 0) (hufFault start)) = some ⟨.ok, 0⟩ := by decide +kernel
/-- V-CTL-2. -/
theorem test_nop_operand : reply (exec (.nop 1 0) start) = some ⟨.badOperand, 0⟩ := by decide +kernel
theorem test_resetAll :
    reply (exec (.resetAll 0 0) (acFault (hufFault start))) = some ⟨.ok, 0⟩ ∧
    (after (exec (.resetAll 0 0) (acFault (hufFault start)))).ac.fault = 0 := by decide +kernel
/-- V-CTL-4. -/
theorem test_resetAll_operand : reply (exec (.resetAll 0 1) start) = some ⟨.badOperand, 0⟩ := by decide +kernel
theorem test_hufReset :
    (after (exec (.hufReset 0 0) (hufFault abReady))).huf.fault = 0 ∧
    (after (exec (.hufReset 0 0) (hufFault abReady))).huf.mode = .freq := by decide +kernel
theorem test_hufCount :
    tableRead (after (exec (.hufCount 65 0) abFreq)).huf.freq 65 = 2 ∧
    tableRead (after (exec (.hufCount 65 0) abFreq)).huf.freq 66 = 1 := by decide +kernel
/-- V-HT-13. -/
theorem test_hufCount_limit :
    reply (exec (.hufCount 65 0) (after (exec (.hufSetfreq 65 0xFFFFFFFF) start))) = some ⟨.counterOverflow, 0⟩ := by
  decide +kernel
/-- V-HT-13. -/
theorem test_hufSetfreq_operand : reply (exec (.hufSetfreq 65 0x100000000) start) = some ⟨.badOperand, 0⟩ := by
  decide +kernel
/-- V-HT-14. -/
theorem test_hufSetfreq_sequence : reply (exec (.hufSetfreq 65 2) abTree) = some ⟨.sequenceError, 0⟩ := by
  decide +kernel
/-- V-HT-2: the root is 256, with children 65 and 66 and weight 2. -/
theorem test_hufBuild :
    reply (exec (.hufBuild 0 0) abFreq) = some ⟨.ok, 0x100⟩ ∧
    packNode (nodeAt (after (exec (.hufBuild 0 0) abFreq)).huf 256) = 0x221105 := by
  simp only [exec, execHufBuild, buildTree, liveLeaves, leafArena, present_abFreq]
  decide +kernel
/-- V-HT-12. -/
theorem test_hufBuild_empty : reply (exec (.hufBuild 0 0) start) = some ⟨.corruptHuffmanTree, 0⟩ := by
  have h : buildTree start.huf.freq = none := by rw [buildTree, liveLeaves, present_start]; rfl
  simp only [exec, execHufBuild, h]
  decide +kernel
/-- V-HT-2: the longest code has 1 bit; 66 has the code "1". -/
theorem test_hufGencodes :
    reply (exec (.hufGencodes 0 0) abTree) = some ⟨.ok, 1⟩ ∧
    codeOf (after (exec (.hufGencodes 0 0) abTree)).huf.code 66 = [true] := by decide +kernel
/-- V-HT-1: a single leaf has the code "0". -/
theorem test_hufGencodes_single :
    reply (exec (.hufGencodes 0 0) aTree) = some ⟨.ok, 1⟩ ∧
    codeOf (after (exec (.hufGencodes 0 0) aTree)).huf.code 65 = [false] := by decide +kernel
theorem test_hufEncBegin : (after (exec (.hufEncBegin 0 0) abReady)).huf.mode = .enc := by decide +kernel
/-- V-HP-7: the eighth bit of `ABABABAB` completes the byte 0x55. -/
theorem test_hufEncSym : (after (exec (.hufEncSym 66 0) (abEnc 7 0x2A []))).huf.obuf = [0x55] := by decide +kernel
/-- V-HP-6. -/
theorem test_hufEncSym_not_found :
    reply (exec (.hufEncSym 67 0) (abEnc 1 0 [])) = some ⟨.symbolNotFound, 0⟩ := by decide +kernel
/-- V-HP-2. -/
theorem test_hufEncEnd :
    reply (exec (.hufEncEnd 0 0) (abEnc 1 0 [])) = some ⟨.ok, 7⟩ ∧
    (after (exec (.hufEncEnd 0 0) (abEnc 1 0 []))).huf.obuf = [0x00, 0x07] := by decide +kernel
/-- V-HP-7: no padding when the stream divides evenly. -/
theorem test_hufEncEnd_even :
    (after (exec (.hufEncEnd 0 0) (abEnc 0 0 [0x55]))).huf.obuf = [0x55, 0x00] := by decide +kernel
theorem test_hufInByte : (after (exec (.hufInByte 6 0) (holding start [0x40]))).huf.ibuf = [0x40, 6] := by
  decide +kernel
/-- V-HU-9. -/
theorem test_hufInByte_sequence :
    reply (exec (.hufInByte 1 0) (decoding abReady [0x55, 0] 8 0 [])) = some ⟨.sequenceError, 0⟩ := by decide +kernel
theorem test_hufInClear : (after (exec (.hufInClear 0 0) (holding start [0x40]))).huf.ibuf = [] := by decide +kernel
/-- V-HP-7 read back. -/
theorem test_hufDecBegin : reply (exec (.hufDecBegin 0 0) (holding abReady [0x55, 0])) = some ⟨.ok, 8⟩ := by
  decide +kernel
/-- V-HU-3, V-HU-4. -/
theorem test_hufDecBegin_invalid :
    reply (exec (.hufDecBegin 0 0) (holding abReady [0, 8])) = some ⟨.invalidArchive, 0⟩ ∧
    reply (exec (.hufDecBegin 0 0) (holding abReady [3])) = some ⟨.invalidArchive, 0⟩ := by decide +kernel
/-- V-HU-10: the second bit of 0x55 is the code of 66. -/
theorem test_hufDecSym :
    reply (exec (.hufDecSym 0 0) (decoding abReady [0x55, 0] 8 1 [65])) = some ⟨.ok, 66⟩ ∧
    (after (exec (.hufDecSym 0 0) (decoding abReady [0x55, 0] 8 1 [65]))).huf.cur = 2 := by decide +kernel
/-- V-HU-8: a 1 bit matches no code of a single-leaf table. -/
theorem test_hufDecSym_single :
    reply (exec (.hufDecSym 0 0) (decoding aReady [0x40, 6] 2 0 [])) = some ⟨.ok, 65⟩ ∧
    reply (exec (.hufDecSym 0 0) (decoding aReady [0x40, 6] 2 1 [65])) = some ⟨.invalidArchive, 0⟩ := by decide +kernel
/-- V-HU-10. -/
theorem test_hufDecAll :
    (after (exec (.hufDecAll 0 0) (decoding abReady [0x55, 0] 8 0 []))).huf.obuf =
      [65, 66, 65, 66, 65, 66, 65, 66] := by decide +kernel
/-- V-HU-8. -/
theorem test_hufDecAll_single :
    reply (exec (.hufDecAll 0 0) (decoding aReady [0x00, 5] 3 0 [])) = some ⟨.ok, 3⟩ ∧
    reply (exec (.hufDecAll 0 0) (decoding aReady [0x40, 6] 2 0 [])) = some ⟨.invalidArchive, 0⟩ := by decide +kernel
theorem test_hufDecEnd :
    (after (exec (.hufDecEnd 0 0) (decoding abReady [0x55, 0] 8 2 [65, 66]))).huf.mode = .ready := by decide +kernel
/-- V-HT-15. -/
theorem test_hufRd :
    reply (exec (.hufRd 2 256) abReady) = some ⟨.ok, 0x221105⟩ ∧
    reply (exec (.hufRd 5 66) abReady) = some ⟨.ok, 0x8000000000000000⟩ ∧
    reply (exec (.hufRd 5 1024) abReady) = some ⟨.badOperand, 0⟩ := by decide +kernel
/-- V-CTL-5, V-CTL-6. -/
theorem test_hufRd_order :
    reply (exec (.hufRd 0 0) (hufFault start)) = some ⟨.ok, 0x400⟩ ∧
    reply (exec (.hufRd 11 0) (hufFault start)) = some ⟨.badOperand, 0⟩ ∧
    reply (exec (.hufRd 1 0) (hufFault start)) = some ⟨.faulted, 0⟩ ∧
    reply (exec (.hufRd 2 511) start) = some ⟨.sequenceError, 0⟩ ∧
    reply (exec (.hufRd 1 256) start) = some ⟨.badOperand, 0⟩ := by decide +kernel
/-- V-EX-1. -/
theorem test_acReset : (after (exec (.acReset 0 0) (acFault acEnc0))).ac.fault = 0 ∧
    (after (exec (.acReset 0 0) (acFault acEnc0))).ac.mode = .idle := by decide +kernel
/-- V-MP-1. -/
theorem test_acModelInit :
    tableRead (after (exec (.acModelInit 0 0) (after (exec (.acSetcnt 7 100) start)))).ac.cnt 7 = 1 := by decide +kernel
/-- V-MP-1: the total is not recomputed. -/
theorem test_acSetcnt :
    tableRead (after (exec (.acSetcnt 7 100) start)).ac.cnt 7 = 100 ∧
    (after (exec (.acSetcnt 7 100) start)).ac.total = 256 := by decide +kernel
/-- V-MP-2. -/
theorem test_acSetcnt_operand : reply (exec (.acSetcnt 0 0x100000000) start) = some ⟨.badOperand, 0⟩ := by
  decide +kernel
/-- V-MP-1. -/
theorem test_acSettotal : (after (exec (.acSettotal 0 355) start)).ac.total = 355 := by decide +kernel
/-- V-MP-2. -/
theorem test_acSettotal_operand :
    reply (exec (.acSettotal 0 0x10000000000) start) = some ⟨.badOperand, 0⟩ ∧
    reply (exec (.acSettotal 1 5) start) = some ⟨.badOperand, 0⟩ := by decide +kernel
theorem test_acInc :
    tableRead (after (exec (.acInc 7 0) start)).ac.cnt 7 = 2 ∧ (after (exec (.acInc 7 0) start)).ac.total = 257 := by
  decide +kernel
/-- V-MP-3. -/
theorem test_acInc_limit :
    reply (exec (.acInc 0 0) (after (exec (.acSettotal 0 0xFFFFFFFFFF) start))) = some ⟨.counterOverflow, 0⟩ := by
  decide +kernel
theorem test_acEncInit :
    (after (exec (.acEncInit 0 0) start)).ac.obuf = [0, 0, 0, 0, 0, 0, 0, 0] ∧
    (after (exec (.acEncInit 0 0) start)).ac.mode = .enc := by decide +kernel
/-- V-EX-9 (b). -/
theorem test_acEncInit_full :
    reply (exec (.acEncInit 0 0) { start with params := { build with outCap := some 7 } }) =
      some ⟨.bufferFull, 0⟩ := by decide +kernel
/-- V-AC-2. -/
theorem test_acEncSym :
    (after (exec (.acEncSym 97 0) acEnc0)).ac.obuf = [0, 0, 0, 0, 0, 0, 0, 0, 0x61] ∧
    (after (exec (.acEncSym 97 0) acEnc0)).ac.high = 0xFFFFFFFFFFFFFFFF ∧
    (after (exec (.acEncSym 97 0) acEnc0)).ac.nsym = 1 := by decide +kernel
/-- V-EX-2. -/
theorem test_acEncSym_model :
    reply (exec (.acEncSym 0 0) (after (exec (.acSettotal 0 257) acEnc0))) = some ⟨.badModel, 0⟩ := by decide +kernel
/-- V-AC-10: the pending bits follow inverted. -/
theorem test_acEncFinish :
    (after (exec (.acEncFinish 0 0)
      (acEnc 0x2E147AE147AE1458 0xD1EB851EB851EB5F 6 [0, 0, 0, 0, 0, 0, 0, 0]))).ac.obuf.drop 8 = [0x7E] := by
  decide +kernel
/-- V-AC-1, with `AC_FLUSH_EXTRA = 1`. -/
theorem test_acEncFinish_extra :
    (after (exec (.acEncFinish 0 0) { acEnc0 with params := { build with acFlushExtra := 1 } })).ac.obuf =
      [0, 0, 0, 0, 0, 0, 0, 0, 0x40] := by decide +kernel
theorem test_acInByte : (after (exec (.acInByte 0x61 0) start)).ac.ibuf = [0x61] := by decide +kernel
/-- V-AD-13. -/
theorem test_acInByte_sequence : reply (exec (.acInByte 0 0) acDec1) = some ⟨.sequenceError, 0⟩ := by decide +kernel
theorem test_acInClear : (after (exec (.acInClear 0 0) acDone)).ac.ibuf = [] := by decide +kernel
/-- V-AD-1. -/
theorem test_acDecInit :
    let s := { start with ac := { start.ac with ibuf := [0, 0, 0, 0, 0, 0, 0, 1, 0x61, 0] } }
    reply (exec (.acDecInit 0 0) s) = some ⟨.ok, 1⟩ ∧
    (after (exec (.acDecInit 0 0) s)).ac.value = 0x6100000000000000 ∧
    (after (exec (.acDecInit 0 0) s)).ac.cur = 64 := by decide +kernel
/-- V-AD-10. -/
theorem test_acDecInit_short :
    reply (exec (.acDecInit 0 0) { start with ac := { start.ac with ibuf := [0, 0, 0, 0, 0, 0, 0] } }) =
      some ⟨.invalidArchive, 0⟩ := by decide +kernel
/-- V-AD-1. -/
theorem test_acDecSym :
    reply (exec (.acDecSym 0 0) acDec1) = some ⟨.ok, 0x61⟩ ∧
    (after (exec (.acDecSym 0 0) acDec1)).ac.value = 0 ∧ (after (exec (.acDecSym 0 0) acDec1)).ac.cur = 72 ∧
    (after (exec (.acDecSym 0 0) acDec1)).ac.remain = 0 := by decide +kernel
/-- V-AD-11. -/
theorem test_acDecSym_end : reply (exec (.acDecSym 0 0) (acDec [] 0 64 0)) = some ⟨.ok, 0x100⟩ := by decide +kernel
theorem test_acDecEnd : (after (exec (.acDecEnd 0 0) acDec1)).ac.mode = .idle := by decide +kernel
/-- V-EX-1. -/
theorem test_acRd :
    reply (exec (.acRd 0 0) (acFault acEnc0)) = some ⟨.ok, 0x601⟩ ∧
    reply (exec (.acRd 1 0) (acFault acEnc0)) = some ⟨.faulted, 0⟩ := by decide +kernel
/-- V-MP-1. -/
theorem test_acRd_count : reply (exec (.acRd 5 7) (after (exec (.acSetcnt 7 100) start))) = some ⟨.ok, 100⟩ := by
  decide +kernel
/-- V-RN-3, V-RN-4. -/
theorem test_renorm_pending :
    (rnuEnc 0x1999999999999998 0x75C28F5C28F5C28A 3).bits = [false, true, true, true] ∧
    (rnuEnc 0x8A3D70A3D70A3D6C 0xB295E9E1B089A021 3).bits = [true, false, false, false, false] ∧
    (rnuEnc 0x8A3D70A3D70A3D6C 0xB295E9E1B089A021 3).high = 0xCA57A786C2268087 := by decide +kernel
/-- V-RN-2, V-RN-10. -/
theorem test_renorm_e3 :
    rnuEnc 0x7333333333333333 0x8CCCCCCCCCCCCCCB 0 =
      { low := 0x1999999999999998, high := 0xE66666666666665F, pending := 3, bits := [] } ∧
    rnuCase 0x3FFFFFFFFFFFFFFF 0xBFFFFFFFFFFFFFFF = .stop := by decide +kernel

/-! ### Every statement with hypotheses has a state and operands that meet them -/

/-- A command that answers in a state with no response yet gives a next state with that one response. -/
theorem next_of_reply {r : Result} {x : Response} (h : reply r = some x) (hl : (after r).responses.length = 1) :
    ∃ t, r = .next t ∧ t.responses = [x] := by
  cases r with
  | next t =>
    refine ⟨t, rfl, ?_⟩
    simp only [reply, after] at h hl
    match ht : t.responses, h, hl with
    | [y], h, _ => simp only [List.head?_cons, Option.some.injEq] at h; rw [h]
  | fault f => cases h
  | refused f => cases h

/-- A test of the next state that a result answers. -/
def nextHas (p : State → Bool) (r : Result) : Bool :=
  match r with
  | .next t => p t
  | .fault _ | .refused _ => false

theorem exists_of_nextHas {p : State → Bool} {r : Result} (h : nextHas p r = true) : ∃ t, r = .next t ∧ p t = true := by
  cases r with
  | next t => exact ⟨t, rfl, h⟩
  | fault f => cases h
  | refused f => cases h

theorem witness_EncodeInvertsDecode :
    decode 0x11410000000000000000#80 = .ok (.hufCount 65 0) ∧
    (0x11FF0000000000000001#80).extractLsb' 72 8 = (0x11410000000000000000#80).extractLsb' 72 8 := by decide
/-- Opcodes at the ends of the illegal ranges, presented at the port. -/
theorem witness_UnlistedOpcodesAreIllegal :
    [0x02000000000000000000#80, 0x0F000000000000000000#80, 0x1F000000000000000000#80, 0x2E000000000000000000#80,
      0xFF000000000000000000#80].all (fun w =>
        let op := (w.extractLsb' 72 8).toNat
        decide ((0x02 ≤ op ∧ op ≤ 0x0F) ∨ op = 0x1F ∨ 0x2E ≤ op)) = true ∧
    (present start 0x02000000000000000000#80).port = .command 0x02000000000000000000#80 :: [] := ⟨by decide, rfl⟩
theorem witness_StepProcessesTheCommand :
    (present start 0x11410000000000000000#80).port = .command 0x11410000000000000000#80 :: [] ∧
    decode 0x11410000000000000000#80 = .ok (.hufCount 65 0) ∧
    decode (BitVec.ofNat 80 0x11410000000000000000) = .ok (.hufCount 65 0) := by decide
theorem witness_IdleAndHardwareResetSteps :
    start.port = [] ∧ ({ abReady with port := [.hardwareReset] } : State).port = .hardwareReset :: [] := ⟨rfl, rfl⟩
theorem witness_NopAnswersAndChangesNothing : ((0 : Byte) = 0 ∧ (0 : Word) = 0) ∧ ¬ ((1 : Byte) = 0 ∧ (0 : Word) = 0) := by
  decide
theorem witness_ChecksInFixedOrder_operand : (Instr.hufBuild 1 0).wellFormed = false := by decide
theorem witness_ChecksInFixedOrder_latch :
    (Instr.hufBuild 0 0).wellFormed = true ∧ isReset (.hufBuild 0 0) = false ∧ unitOf (.hufBuild 0 0) = some .huf ∧
    faultLatch .huf (hufFault start) ≠ 0 ∧ isStatusRead (.hufBuild 0 0) = false := by decide
theorem witness_ChecksInFixedOrder_mode :
    (Instr.acEncSym 1 0).wellFormed = true ∧ isReset (.acEncSym 1 0) = false ∧ unitOf (.acEncSym 1 0) = some .ac ∧
    faultLatch .ac start = 0 ∧ acTransition (.acEncSym 1 0) start.ac.mode = none := by decide
theorem witness_ModeTablesHold_ok :
    (∃ t, exec (.hufEncBegin 0 0) abReady = .next t ∧ t.responses = ⟨.ok, 0⟩ :: abReady.responses) ∧
    (∃ t, exec (.hufEncSym 67 0) (abEnc 1 0 []) = .next t ∧
      t.responses = ⟨.symbolNotFound, 0⟩ :: (abEnc 1 0 []).responses) :=
  ⟨next_of_reply (by decide +kernel) (by decide +kernel), next_of_reply (by decide +kernel) (by decide +kernel)⟩
theorem witness_ModeTablesHold_dash :
    (Instr.hufGencodes 0 0).wellFormed = true ∧ start.huf.fault = 0 ∧ start.ac.fault = 0 ∧
    hufTransition (.hufGencodes 0 0) start.huf.mode = none := by decide
theorem witness_RefusalChangesNothing :
    (∃ t, exec (.hufBuild 1 0) start = .next t ∧ t.responses = ⟨.badOperand, 0⟩ :: start.responses) ∧
    isRefusalStatus .badOperand = true :=
  ⟨next_of_reply (by decide +kernel) (by decide +kernel), rfl⟩
theorem witness_FaultOnlyLatchesItsCode :
    (∃ t, exec (.hufEncSym 67 0) (abEnc 1 0 []) = .next t ∧
      t.responses = ⟨.symbolNotFound, 0⟩ :: (abEnc 1 0 []).responses) ∧ isFaultStatus .symbolNotFound = true :=
  ⟨next_of_reply (by decide +kernel) (by decide +kernel), rfl⟩
theorem witness_FaultOnlyLatchesItsCode_ac :
    (∃ t, exec (.acDecInit 0 0) start = .next t ∧ t.responses = ⟨.invalidArchive, 0⟩ :: start.responses) ∧
    isFaultStatus .invalidArchive = true :=
  ⟨next_of_reply (by decide +kernel) (by decide +kernel), rfl⟩
theorem witness_OneResponsePerCommand : ∃ t, exec (.nop 0 0) start = .next t ∧ t.responses = [⟨.ok, 0⟩] :=
  next_of_reply (by decide +kernel) (by decide +kernel)
theorem witness_LatchedFaultIsSticky :
    ((hufFault start).huf.fault ≠ 0 ∧ unitOf (.hufCount 65 0) = some .huf ∧ (Instr.hufCount 65 0).wellFormed = true ∧
      isReset (.hufCount 65 0) = false ∧ isStatusRead (.hufCount 65 0) = false) ∧
    ((acFault start).ac.fault ≠ 0 ∧ unitOf (.acInc 7 0) = some .ac ∧ (Instr.acInc 7 0).wellFormed = true ∧
      isReset (.acInc 7 0) = false ∧ isStatusRead (.acInc 7 0) = false) := by decide
theorem witness_LatchedFaultIsSticky_next :
    (hufFault start).huf.fault ≠ 0 ∧ (∃ t, exec (.hufReset 0 0) (hufFault start) = .next t ∧ t.responses = [⟨.ok, 0⟩]) ∧
    (acFault start).ac.fault ≠ 0 ∧ (∃ t, exec (.acReset 0 0) (acFault start) = .next t ∧ t.responses = [⟨.ok, 0⟩]) :=
  ⟨by decide, next_of_reply (by decide +kernel) (by decide +kernel), by decide,
    next_of_reply (by decide +kernel) (by decide +kernel)⟩
theorem witness_EnginesAreIndependent :
    unitOf (.hufCount 65 0) = some .huf ∧ unitOf (.acInc 7 0) = some .ac ∧
    (∃ t, exec (.hufCount 65 0) start = .next t ∧ t.responses = [⟨.ok, 0⟩]) ∧
    (∃ t, exec (.acInc 7 0) start = .next t ∧ t.responses = [⟨.ok, 0⟩]) ∧
    (∃ t, exec (.nop 0 0) start = .next t ∧ t.responses = [⟨.ok, 0⟩]) ∧
    (∃ t, exec (.resetAll 0 0) start = .next t ∧ t.responses = [⟨.ok, 0⟩]) :=
  ⟨rfl, rfl, next_of_reply (by decide +kernel) (by decide +kernel), next_of_reply (by decide +kernel) (by decide +kernel),
    next_of_reply (by decide +kernel) (by decide +kernel), next_of_reply (by decide +kernel) (by decide +kernel)⟩

/-- The frequency of 65 at its largest value, and one below. -/
def freqOf65 (f : BitVec 32) : State := { start with huf := { start.huf with freq := tableWrite start.huf.freq 65 f } }

theorem witness_HufCountIncrementsOneEntry :
    (freqOf65 0xFFFFFFFF).huf.fault = 0 ∧ (freqOf65 0xFFFFFFFF).huf.mode = .freq ∧
    (tableRead (freqOf65 0xFFFFFFFF).huf.freq 65).toNat = 2 ^ 32 - 1 ∧
    (freqOf65 0xFFFFFFFE).huf.fault = 0 ∧ (freqOf65 0xFFFFFFFE).huf.mode = .freq ∧
    (tableRead (freqOf65 0xFFFFFFFE).huf.freq 65).toNat ≠ 2 ^ 32 - 1 := by decide +kernel
theorem witness_HufSetfreqWritesOneEntry :
    start.huf.fault = 0 ∧ start.huf.mode = .freq ∧ (0xFFFFFFFF : Word).toNat < 2 ^ 32 := by decide
theorem witness_HufBuildMakesTheTree_empty :
    start.huf.fault = 0 ∧ start.huf.mode = .freq ∧ ∀ b, tableRead start.huf.freq b = 0 :=
  ⟨rfl, rfl, fun b => tableRead_replicate 0 b⟩
theorem witness_HufBuildMakesTheTree :
    abFreq.huf.fault = 0 ∧ abFreq.huf.mode = .freq ∧ ∃ b, tableRead abFreq.huf.freq b ≠ 0 :=
  ⟨rfl, rfl, 65, by decide +kernel⟩
/-- The build of `{65:1, 66:1}` makes one merge. -/
theorem witness_HufBuildMergesTheTwoLeast :
    abFreq.huf.fault = 0 ∧ abFreq.huf.mode = .freq ∧ (∃ b, tableRead abFreq.huf.freq b ≠ 0) ∧
    (∃ t, exec (.hufBuild 0 0) abFreq = .next t ∧ 0 < t.huf.nint.toNat) := by
  refine ⟨rfl, rfl, ⟨65, by decide +kernel⟩, ?_⟩
  simp only [exec, execHufBuild, buildTree, liveLeaves, leafArena, present_abFreq]
  exact ⟨_, rfl, by decide +kernel⟩
theorem witness_RootWeightIsTheSumOfFrequencies :
    abFreq.huf.fault = 0 ∧ abFreq.huf.mode = .freq ∧ (∃ b, tableRead abFreq.huf.freq b ≠ 0) ∧
    (∃ t, exec (.hufBuild 0 0) abFreq = .next t ∧ t.huf.root = 256) := by
  refine ⟨rfl, rfl, ⟨65, by decide +kernel⟩, ?_⟩
  simp only [exec, execHufBuild, buildTree, liveLeaves, leafArena, present_abFreq]
  exact ⟨_, rfl, by decide +kernel⟩
theorem witness_GencodesWritesThePaths :
    (abTree.huf.fault = 0 ∧ abTree.huf.mode = .tree ∧ TreeOk abTree.huf) ∧
    (aTree.huf.fault = 0 ∧ aTree.huf.mode = .tree ∧ TreeOk aTree.huf) :=
  ⟨⟨rfl, rfl, abTree_treeOk⟩, ⟨rfl, rfl, aReady_treeOk⟩⟩
/-- The path of 66 in the tree of V-HT-2, and of 65 in a single-leaf tree. -/
theorem witness_GencodesWritesThePaths_path : IsCode abTree.huf 66 [true] ∧ IsCode aTree.huf 65 [false] := by
  decide +kernel
theorem witness_CodeTableIsPrefixFree :
    TreeOk abReady.huf ∧ CodesOk abReady.huf ∧ (65 : Byte) ≠ 66 ∧ Coded abReady.huf 65 ∧ Coded abReady.huf 66 :=
  ⟨abReady_treeOk, abReady_codesOk, by decide, by unfold Coded; decide +kernel, by unfold Coded; decide +kernel⟩
/-- 7, 8 and 9 bits: below, at and above a byte; each flush fits. -/
theorem witness_PackerFacts :
    (∃ p, pushBits none { pk := Packer.empty, out := [] } (List.replicate 7 true) = some p ∧
      (∃ q, flushPacker none p = some q)) ∧
    (∃ p, pushBits none { pk := Packer.empty, out := [] } (List.replicate 8 true) = some p ∧
      (∃ q, flushPacker none p = some q)) ∧
    (∃ p, pushBits (some 2) { pk := Packer.empty, out := [] } (List.replicate 9 true) = some p ∧
      (∃ q, flushPacker (some 2) p = some q)) :=
  ⟨⟨_, rfl, _, rfl⟩, ⟨_, rfl, _, rfl⟩, ⟨_, rfl, _, rfl⟩⟩
theorem witness_HufEncBeginAndDecEnd :
    (abReady.huf.fault = 0 ∧ abReady.huf.mode = .ready) ∧
    ((decoding abReady [0x55, 0] 8 2 [65, 66]).huf.fault = 0 ∧
      (decoding abReady [0x55, 0] 8 2 [65, 66]).huf.mode = .dec) := ⟨⟨rfl, rfl⟩, ⟨rfl, rfl⟩⟩
/-- A byte without a code; a full buffer with the last bit of a byte to come; the same with room. -/
theorem witness_HufEncSymAppendsTheCode :
    ((abEnc 7 0x2A []).huf.fault = 0 ∧ (abEnc 7 0x2A []).huf.mode = .enc) ∧
    (tableRead (abEnc 7 0x2A []).huf.code.clen 67).toNat = 0 ∧
    (tableRead (abEnc 7 0x2A []).huf.code.clen 66).toNat = 1 ∧
    ¬ Room build.outCap (List.replicate 16 (0 : Byte)).length ((7 + 1) / 8) ∧
    (abEnc 7 0x2A (List.replicate 16 0)).huf.mode = .enc ∧ Room build.outCap 15 ((7 + 1) / 8) := by
  unfold Room; decide +kernel
/-- No room and room for two bytes with one bit held; a packer with no bit held, empty and not empty. -/
theorem witness_HufEncEndClosesThePayload :
    ((abEnc 1 0 (List.replicate 15 0)).huf.fault = 0 ∧ (abEnc 1 0 (List.replicate 15 0)).huf.mode = .enc ∧
      fitsCap build.outCap (15 + 2) = false) ∧
    ((abEnc 1 0 (List.replicate 14 0)).huf.mode = .enc ∧ fitsCap build.outCap (14 + 2) = true) ∧
    (PackerOk (abEnc 0 0 []).huf.pk ∧ ¬ PackerOk (abEnc 0 1 []).huf.pk ∧ fitsCap build.outCap (0 + 1) = true) := by
  decide
theorem witness_HufInputBufferCommands :
    (holding start (List.replicate 15 0)).huf.fault = 0 ∧ (holding start (List.replicate 15 0)).huf.mode ≠ .dec ∧
    fitsCap build.inCap ((holding start (List.replicate 15 0)).huf.ibuf.length + 1) = true ∧
    fitsCap build.inCap ((holding start (List.replicate 16 0)).huf.ibuf.length + 1) = false := by decide
/-- An empty payload; padding counts 8 and, with no data, 1; padding counts 7 and, with no data, 0. -/
theorem witness_HufDecBeginReadsTheTrailer :
    ((holding abReady []).huf.fault = 0 ∧ (holding abReady []).huf.mode = .ready ∧ (holding abReady []).huf.ibuf = []) ∧
    ((holding abReady [0, 8]).huf.ibuf = [0] ++ [8] ∧ 7 < (8 : Byte).toNat) ∧
    ((holding abReady [1]).huf.ibuf = [] ++ [1] ∧ (1 : Byte) ≠ 0) ∧
    ((holding abReady [0, 7]).huf.ibuf = [0] ++ [7] ∧ (7 : Byte).toNat ≤ 7 ∧ 8 * [(0 : Byte)].length < 2 ^ 64) ∧
    ((holding abReady [0]).huf.ibuf = [] ++ [0] ∧ (0 : Byte).toNat ≤ 7 ∧ 8 * ([] : List Byte).length < 2 ^ 64) := by
  decide

theorem decoding_ab (nbits cur : Word) (out : List Byte) (ibuf : List Byte) (h : payloadBits ibuf = some nbits.toNat)
    (hc : cur.toNat ≤ nbits.toNat) : Decoding (decoding abReady ibuf nbits cur out).huf :=
  ⟨rfl, abReady_treeOk, abReady_codesOk, h, hc⟩

theorem decoding_a (nbits cur : Word) (out : List Byte) (ibuf : List Byte) (h : payloadBits ibuf = some nbits.toNat)
    (hc : cur.toNat ≤ nbits.toNat) : Decoding (decoding aReady ibuf nbits cur out).huf :=
  ⟨rfl, aReady_treeOk, aReady_codesOk, h, hc⟩

/-- The last code bit of a payload, with room for one byte and without. -/
theorem witness_HufDecSymDecodesOneByte :
    Decoding (decoding abReady [0x55, 0] 8 7 (List.replicate 15 0)).huf ∧
    (decoding abReady [0x55, 0] 8 7 (List.replicate 15 0)).huf.cur ≠ 8 ∧
    Coded abReady.huf 66 ∧
    codeOf abReady.huf.code 66 <+: unreadBits (decoding abReady [0x55, 0] 8 7 (List.replicate 15 0)).huf ∧
    fitsCap build.outCap (15 + 1) = true ∧ fitsCap build.outCap (16 + 1) = false :=
  ⟨decoding_ab 8 7 _ _ (by decide) (by decide), by decide, by unfold Coded; decide +kernel, by decide +kernel, by decide,
    by decide⟩
/-- A 1 bit where the only code is "0". -/
theorem witness_HufDecSymDecodesOneByte_invalid :
    Decoding (decoding aReady [0x80, 7] 1 0 []).huf ∧ (decoding aReady [0x80, 7] 1 0 []).huf.cur ≠ 1 ∧
    ∀ b : Byte, Coded aReady.huf b → ¬ codeOf aReady.huf.code b <+: unreadBits (decoding aReady [0x80, 7] 1 0 []).huf := by
  refine ⟨decoding_a 1 0 _ _ (by decide) (by decide), by decide, ?_⟩
  intro b hb
  have hu : unreadBits (decoding aReady [0x80, 7] 1 0 []).huf = [true] := by decide +kernel
  rw [hu, codeOf_aReady]
  by_cases h : b = 65#8
  · subst h; decide
  · exact absurd (by rw [clen_aReady, if_neg h]) hb
/-- The whole payload of V-HP-7 into a buffer with room for 8 bytes and without; the empty rest. -/
theorem witness_HufDecAllDecodesTheRest :
    Decoding (decoding abReady [0x55, 0] 8 0 (List.replicate 8 0)).huf ∧
    unreadBits (decoding abReady [0x55, 0] 8 0 (List.replicate 8 0)).huf =
      [65, 66, 65, 66, 65, 66, 65, 66].flatMap (codeOf abReady.huf.code) ∧
    (∀ b ∈ [(65 : Byte), 66, 65, 66, 65, 66, 65, 66], Coded abReady.huf b) ∧
    fitsCap build.outCap (8 + 8) = true ∧ fitsCap build.outCap (9 + 8) = false ∧
    Decoding (decoding abReady [0x55, 0] 8 8 []).huf ∧ unreadBits (decoding abReady [0x55, 0] 8 8 []).huf = [] :=
  ⟨decoding_ab 8 0 _ _ (by decide) (by decide), by decide +kernel, by unfold Coded; decide +kernel, by decide, by decide,
    decoding_ab 8 8 _ _ (by decide) (by decide), by decide +kernel⟩
theorem witness_HufDecAllDecodesTheRest_invalid :
    Decoding (decoding aReady [0x80, 7] 1 0 []).huf ∧
    ∀ bs : List Byte, (∀ b ∈ bs, Coded aReady.huf b) →
      unreadBits (decoding aReady [0x80, 7] 1 0 []).huf ≠ bs.flatMap (codeOf aReady.huf.code) := by
  refine ⟨decoding_a 1 0 _ _ (by decide) (by decide), ?_⟩
  intro bs hbs
  have hu : unreadBits (decoding aReady [0x80, 7] 1 0 []).huf = [true] := by decide +kernel
  rw [hu]
  cases bs with
  | nil => simp
  | cons b bs =>
    have hb : b = 65#8 := by
      by_contra h
      exact hbs b (by simp) (by rw [clen_aReady, if_neg h])
    rw [List.flatMap_cons, codeOf_aReady, if_pos hb]
    simp
theorem witness_EndMarkerChangesNothing :
    ((decoding abReady [0x55, 0] 8 8 []).huf.fault = 0 ∧ (decoding abReady [0x55, 0] 8 8 []).huf.mode = .dec ∧
      (decoding abReady [0x55, 0] 8 8 []).huf.cur = (decoding abReady [0x55, 0] 8 8 []).huf.nbits) ∧
    ((acDec [] 0 64 0).ac.fault = 0 ∧ (acDec [] 0 64 0).ac.mode = .dec ∧ (acDec [] 0 64 0).ac.remain = 0) := by decide
/-- "AB" encoded by one engine, its payload `[40 06]` held by another. -/
theorem witness_HuffmanRoundTrip :
    abReady.huf.fault = 0 ∧ abReady.huf.mode = .ready ∧ TreeOk abReady.huf ∧ CodesOk abReady.huf ∧
    (∀ b ∈ [(65 : Byte), 66], Coded abReady.huf b) ∧
    fitsCap abReady.params.outCap ((([(65 : Byte), 66].flatMap (codeOf abReady.huf.code)).length + 7) / 8 + 1) = true ∧
    ([(65 : Byte), 66].flatMap (codeOf abReady.huf.code)).length < 2 ^ 64 - 8 ∧
    (∃ t, execAll [.hufEncBegin 0 0, .hufEncSym 65 0, .hufEncSym 66 0, .hufEncEnd 0 0] abReady = .next t ∧
      (holding abReady [0x40, 6]).huf.ibuf = t.huf.obuf) ∧
    (holding abReady [0x40, 6]).huf.fault = 0 ∧ (holding abReady [0x40, 6]).huf.mode = .ready ∧
    fitsCap (holding abReady [0x40, 6]).params.outCap [(65 : Byte), 66].length = true := by
  refine ⟨rfl, rfl, abReady_treeOk, abReady_codesOk, by unfold Coded; decide +kernel, by decide +kernel, by decide +kernel,
    ?_, rfl, rfl, by decide⟩
  obtain ⟨t, ht, hp⟩ := exists_of_nextHas (p := fun t => decide ([0x40, 6] = t.huf.obuf))
    (r := execAll [.hufEncBegin 0 0, .hufEncSym 65 0, .hufEncSym 66 0, .hufEncEnd 0 0] abReady) (by decide +kernel)
  exact ⟨t, ht, of_decide_eq_true hp⟩
theorem witness_HufRdReturnsTheItem :
    abReady.huf.fault = 0 ∧ abReady.huf.mode ≠ .freq ∧ (510 : Nat) < 511 ∧ abReady.huf.mode = .ready ∧
    ({ abReady with huf := { abReady.huf with obuf := [1, 2] } } : State).huf.obuf[1]? = some 2 ∧
    ({ abReady with huf := { abReady.huf with obuf := [1, 2] } } : State).huf.obuf.length < 2 ^ 64 ∧
    abReady.huf.ibuf.length < 2 ^ 64 ∧ (decoding abReady [0x55, 0] 8 2 []).huf.mode = .dec ∧
    (decoding abReady [0x55, 0] 8 2 []).huf.fault = 0 ∧ (3 : Nat) < 4 ∧ (63 : Nat) < 64 := by decide
/-- Each kind of index at the end of its range, and `d = 1` where a selector takes no index. -/
theorem witness_ReadIndexOutOfRangeIsRefused :
    abReady.huf.fault = 0 ∧
    [((0 : Byte), (1 : Word)), (1, 256), (2, 511), (3, 1), (4, 256), (5, 1024), (6, 1), (7, 0), (8, 1)].all (fun p =>
      decide (hufTransition (.hufRd p.1 p.2) abReady.huf.mode ≠ none ∧
        hufIndexCount abReady.huf p.1 ≤ p.2.toNat)) = true ∧
    [((9 : Byte), (1 : Word)), (10, 1)].all (fun p =>
      decide (hufTransition (.hufRd p.1 p.2) (decoding abReady [0x55, 0] 8 2 []).huf.mode ≠ none ∧
        hufIndexCount abReady.huf p.1 ≤ p.2.toNat)) = true ∧
    acDone.ac.fault = 0 ∧
    [((0 : Byte), (1 : Word)), (5, 256), (7, 1), (8, 10), (12, 1)].all (fun p =>
      decide (acTransition (.acRd p.1 p.2) acDone.ac.mode ≠ none ∧ acIndexCount acDone.ac p.1 ≤ p.2.toNat)) = true := by
  decide +kernel
theorem witness_AcModelInitIsLaplace : acEnc0.ac.fault = 0 := rfl
theorem witness_AcSetcntAndSettotalWrite :
    start.ac.fault = 0 ∧ (0xFFFFFFFF : Word).toNat < 2 ^ 32 ∧ (0xFFFFFFFFFF : Word).toNat < 2 ^ 40 := by decide

/-- A count and a total of one's choice. -/
def model (c : BitVec 32) (total : BitVec 40) : State :=
  { start with ac := { start.ac with cnt := tableWrite start.ac.cnt 7 c, total := total } }

theorem witness_AcIncIncrementsCountAndTotal :
    start.ac.fault = 0 ∧ (tableRead (model 0xFFFFFFFF 256).ac.cnt 7).toNat = 2 ^ 32 - 1 ∧
    (model 1 0xFFFFFFFFFF).ac.total.toNat = 2 ^ 40 - 1 ∧
    (tableRead (model 0xFFFFFFFE 0xFFFFFFFFFE).ac.cnt 7).toNat ≠ 2 ^ 32 - 1 ∧
    (model 0xFFFFFFFE 0xFFFFFFFFFE).ac.total.toNat ≠ 2 ^ 40 - 1 ∧ tableValid start.ac.cnt start.ac.total = true := by
  decide +kernel
theorem witness_TableValidityAndCumulativeCounts :
    tableValid start.ac.cnt start.ac.total = true ∧ (255 : Nat) < 256 ∧ 256 ≤ 256 := by decide +kernel
theorem witness_AcEncInitOpensAnEncode :
    (start.ac.fault = 0 ∧ start.ac.mode = .idle) ∧ acDone.ac.mode = .done ∧ fitsCap (some 8) 8 = true ∧
    fitsCap (some 7) 8 = false := by decide
/-- A table with a zero count; the symbol counter at its end; the pending counter overflows; no room; room. -/
theorem witness_AcEncSymNarrowsAndEmits :
    tableValid (model 0 256).ac.cnt (model 0 256).ac.total = false ∧
    ({ acEnc0 with ac := { acEnc0.ac with nsym := 0xFFFFFFFFFFFFFFFF } } : State).ac.nsym.toNat = 2 ^ 64 - 1 ∧
    Coding acEnc0.ac .enc ∧ acEnc0.ac.nsym.toNat ≠ 2 ^ 64 - 1 ∧
    (rnuEnc (narrowLow 0 (2 ^ 64 - 1) 97 256) (narrowHigh 0 (2 ^ 64 - 1) 98 256) 0).pending ≤ 2 ^ 64 - 1 ∧
    (rnuEnc (narrowLow 0 (2 ^ 64 - 1) 97 256) (narrowHigh 0 (2 ^ 64 - 1) 98 256) 0).bits.length / 8 = 1 ∧
    Room build.outCap 15 1 ∧ ¬ Room build.outCap 16 1 := by
  unfold Room Coding; decide +kernel
/-- The symbol 127 with 101 of 356 counts, in the middle half of the interval: a full pending counter overflows. -/
theorem witness_AcEncSymNarrowsAndEmits_pending :
    let s := { acEnc0 with ac := { acEnc0.ac with
      cnt := tableWrite start.ac.cnt 127 101, total := 356, pending := 0xFFFFFFFFFFFFFFFF } }
    Coding s.ac .enc ∧ s.ac.nsym.toNat ≠ 2 ^ 64 - 1 ∧
    2 ^ 64 - 1 < (rnuEnc (narrowLow 0 (2 ^ 64 - 1) (cum s.ac.cnt 127) 356)
      (narrowHigh 0 (2 ^ 64 - 1) (cum s.ac.cnt 128) 356) s.ac.pending.toNat).pending := by
  unfold Coding; decide +kernel
theorem witness_NarrowingTilesTheInterval :
    tableValid start.ac.cnt start.ac.total = true ∧ IntervalOk 0 (2 ^ 64 - 1) ∧
    IntervalOk (2 ^ 62 - 1) (2 ^ 63) ∧ (254 : Byte).toNat < 255 := by decide +kernel
/-- The ends of the four cases (46_renorm_unit.md R191). -/
theorem witness_RnuCasesAreExclusive :
    (∀ p ∈ [(0, 2 ^ 63 - 1), (2 ^ 63, 2 ^ 64 - 1), (2 ^ 62, 3 * 2 ^ 62 - 1), (2 ^ 62 - 1, 3 * 2 ^ 62 - 1),
        (2 ^ 62, 3 * 2 ^ 62)], p.1 ≤ p.2) ∧
    [(0, 2 ^ 63 - 1), (2 ^ 63, 2 ^ 64 - 1), (2 ^ 62, 3 * 2 ^ 62 - 1), (2 ^ 62 - 1, 3 * 2 ^ 62 - 1),
        (2 ^ 62, 3 * 2 ^ 62)].map (fun p => rnuCase p.1 p.2) = [.e1, .e2, .e3, .stop, .stop] := by decide +kernel
/-- The shortest intervals of the three steps and the longest that stops. -/
theorem witness_RnuLoopsTakeTheSteps :
    rnuCase 0 (2 ^ 64 - 1) = .stop ∧ rnuCase (2 ^ 63 - 1) (2 ^ 63 - 1) = .e1 ∧ rnuCase (2 ^ 63) (2 ^ 63) = .e2 ∧
    rnuCase (2 ^ 63 - 1) (2 ^ 63) = .e3 := by decide +kernel
theorem witness_RnuNormalises : (2 ^ 63 - 1 : Nat) ≤ 2 ^ 63 ∧ (2 ^ 63 : Nat) ≤ 2 ^ 64 - 1 ∧ rnuCase 0 (2 ^ 64 - 1) = .stop := by
  decide +kernel
theorem witness_RnuDoublesAtMostSixtyFourTimes : (2 ^ 63 - 1 : Nat) ≤ 2 ^ 63 - 1 ∧ (2 ^ 63 - 1 : Nat) ≤ 2 ^ 64 - 1 := by
  decide
theorem witness_RnuKeepsTheValueInside :
    (2 ^ 63 - 1 : Nat) ≤ 2 ^ 63 - 1 ∧ (2 ^ 63 - 1 : Nat) ≤ 2 ^ 63 ∧ (2 ^ 63 : Nat) ≤ 2 ^ 64 - 1 := by decide
/-- The finish of V-AC-1 needs 9 bytes. -/
theorem witness_AcEncFinishClosesTheArchive :
    acEnc0.ac.fault = 0 ∧ acEnc0.ac.mode = .enc ∧ 8 ≤ acEnc0.ac.obuf.length ∧
    acEnc0.ac.obuf.length + (0 + 1 + 7) / 8 = 9 ∧ fitsCap (some 8) 9 = false ∧ fitsCap (some 9) 9 = true := by decide
theorem witness_AcInputBufferCommandsAndDecEnd :
    start.ac.fault = 0 ∧ start.ac.mode ≠ .dec ∧ fitsCap (some 1) (start.ac.ibuf.length + 1) = true ∧
    fitsCap build.inCap (16 + 1) = false ∧ acDec1.ac.fault = 0 ∧ acDec1.ac.mode = .dec := by decide
theorem witness_AcDecInitReadsHeaderAndValue :
    start.ac.fault = 0 ∧ start.ac.mode = .idle ∧ (List.replicate 7 (0 : Byte)).length < 8 ∧
    8 ≤ (List.replicate 8 (0 : Byte)).length ∧ (63 : Nat) < 64 := by decide
/-- A value below the interval and a value at each end of a symbol's interval. -/
theorem witness_TargetInvertsNarrowing :
    (10 ≤ (19 : Nat) ∧ 0 < (5 : Nat)) ∧ (9 : Nat) < 10 ∧ (10 : Nat) ≤ 12 ∧ (10 : Nat) ≤ 13 ∧ (1 : Nat) < 2 ∧ 2 ≤ (5 : Nat) ∧
    narrow 10 19 1 2 5 = some (12, 13) := by decide
theorem witness_AcDecSymFindsTheSymbol :
    acDec1.ac.remain ≠ 0 ∧ Coding acDec1.ac .dec ∧ acDec1.ac.low.toNat ≤ acDec1.ac.value.toNat ∧
    acDec1.ac.value.toNat ≤ acDec1.ac.high.toNat ∧
    tableValid (model 0 256).ac.cnt (model 0 256).ac.total = false ∧
    (rnuDec [] (narrowLow 0 (2 ^ 64 - 1) 97 256) (narrowHigh 0 (2 ^ 64 - 1) 98 256) 0x6100000000000000 64).cur ≤ 2 ^ 64 - 1 ∧
    2 ^ 64 - 1 < (rnuDec [] (narrowLow 0 (2 ^ 64 - 1) 97 256) (narrowHigh 0 (2 ^ 64 - 1) 98 256) 0x6100000000000000
      (2 ^ 64 - 1)).cur := by
  unfold Coding; decide +kernel
/-- An encoder and a decoder of the reset table at the full range, the symbol 97 of V-AC-2 and V-AD-1. -/
theorem witness_DecoderFollowsEncoder :
    Coding acEnc0.ac .enc ∧ Coding acDec1.ac .dec ∧ acEnc0.ac.low = acDec1.ac.low ∧ acEnc0.ac.high = acDec1.ac.high ∧
    acEnc0.ac.cnt = acDec1.ac.cnt ∧ acEnc0.ac.total = acDec1.ac.total ∧ acDec1.ac.remain ≠ 0 ∧
    narrowLow acEnc0.ac.low.toNat acEnc0.ac.high.toNat (cum acEnc0.ac.cnt 97) acEnc0.ac.total.toNat ≤
      acDec1.ac.value.toNat ∧
    acDec1.ac.value.toNat ≤
      narrowHigh acEnc0.ac.low.toNat acEnc0.ac.high.toNat (cum acEnc0.ac.cnt 98) acEnc0.ac.total.toNat ∧
    (∃ t, exec (.acEncSym 97 0) acEnc0 = .next t ∧ t.responses = [⟨.ok, 0⟩]) ∧
    (after (exec (.acEncSym 97 0) acEnc0)).ac.fault = 0 ∧
    (∃ t, exec (.acDecSym 0 0) acDec1 = .next t ∧ t.responses = [⟨.ok, 97⟩]) ∧
    (after (exec (.acDecSym 0 0) acDec1)).ac.fault = 0 :=
  ⟨by unfold Coding; decide +kernel, by unfold Coding; decide +kernel, rfl, rfl, rfl, rfl, by decide, by decide +kernel,
    by decide +kernel, next_of_reply (by decide +kernel) (by decide +kernel), by decide +kernel,
    next_of_reply (by decide +kernel) (by decide +kernel), by decide +kernel⟩

/-- The machine with a Huffman decode and an arithmetic decode under way, and a command at the port. -/
def busy : State :=
  { decoding abReady [0x55, 0] 8 2 [65, 66] with ac := acDec1.ac, port := [.command 0x1B000000000000000000#80] }

theorem busy_inv : Inv busy := by
  refine ⟨by decide, by decide, by decide, ?_, by decide +kernel⟩
  exact ⟨by decide, by decide, fun _ => rfl, fun _ => abReady_treeOk, fun _ => abReady_codesOk, fun _ => by decide⟩
theorem witness_DesyncIsUnreachable :
    Inv busy ∧ busy.ac.mode = .dec ∧ (∃ t, exec (.acDecSym 0 0) busy = .next t ∧ t.responses = [⟨.ok, 97⟩]) :=
  ⟨busy_inv, rfl, next_of_reply (by decide +kernel) (by decide +kernel)⟩
/-- The symbol 97 of V-AC-2 with `AC_FLUSH_EXTRA = 1`: the archive ends in `61 40`. -/
theorem witness_ArithmeticRoundTrip :
    let s := { start with params := { build with acFlushExtra := 1 } }
    let u := { start with ac := { start.ac with ibuf := [0, 0, 0, 0, 0, 0, 0, 1, 0x61, 0x40] } }
    (s.ac.fault = 0 ∧ s.ac.mode = .idle ∧ tableValid s.ac.cnt s.ac.total = true ∧ s.params.acFlushExtra = 1) ∧
    (∃ t, execAll [.acEncInit 0 0, .acEncSym 97 0, .acEncFinish 0 0] s = .next t ∧
      t.ac.fault = 0 ∧ u.ac.ibuf = t.ac.obuf) ∧
    u.ac.fault = 0 ∧ u.ac.mode = .idle ∧ u.ac.cnt = s.ac.cnt ∧ u.ac.total = s.ac.total := by
  refine ⟨⟨rfl, rfl, by decide +kernel, rfl⟩, ?_, rfl, rfl, rfl, rfl⟩
  obtain ⟨t, ht, hp⟩ := exists_of_nextHas
    (p := fun t => decide (t.ac.fault = 0 ∧ [0, 0, 0, 0, 0, 0, 0, 1, 0x61, 0x40] = t.ac.obuf))
    (r := execAll [.acEncInit 0 0, .acEncSym 97 0, .acEncFinish 0 0]
      { start with params := { build with acFlushExtra := 1 } }) (by decide +kernel)
  exact ⟨t, ht, of_decide_eq_true hp⟩
/-- The table of V-AC-9: 97 has the count 2, every other symbol 1. -/
def ac9 : Vector (BitVec 32) 256 := tableWrite (Vector.replicate 256 1) 97 2

/-- The symbol 97 of V-AC-9, at whose finish `0 < A_LOW < QUARTER`, for both values of `AC_FLUSH_EXTRA`. -/
theorem witness_ArithmeticRoundTripWithTables (extra : Fin 2) :
    let s := { start with params := { build with acFlushExtra := extra } }
    s.ac.fault = 0 ∧ s.ac.mode = .idle ∧ s.params.acFlushExtra = extra ∧
    ∃ m t u : State, execAll (encodeCommands [(ac9, 97)]) s = .next m ∧ exec (.acEncFinish 0 0) m = .next t ∧ t.ac.fault = 0 ∧
      u.ac.fault = 0 ∧ u.ac.mode = .idle ∧ u.ac.ibuf = t.ac.obuf ∧ 0 < m.ac.low.toNat ∧ m.ac.low.toNat < 2 ^ 62 := by
  refine ⟨rfl, rfl, rfl, ?_⟩
  obtain ⟨m, hm, hp⟩ := exists_of_nextHas
    (p := fun m => decide (0 < m.ac.low.toNat ∧ m.ac.low.toNat < 2 ^ 62) &&
      nextHas (fun t => t.ac.fault == 0) (exec (.acEncFinish 0 0) m))
    (r := execAll (encodeCommands [(ac9, 97)]) { start with params := { build with acFlushExtra := extra } })
    (by revert extra; decide +kernel)
  obtain ⟨hlow, hf⟩ := Bool.and_eq_true_iff.mp hp
  obtain ⟨t, ht, hp'⟩ := exists_of_nextHas hf
  exact ⟨m, t, { start with ac := { start.ac with ibuf := t.ac.obuf } }, hm, ht, eq_of_beq hp', rfl, rfl, rfl,
    of_decide_eq_true hlow⟩
theorem witness_AcRdReturnsTheItem :
    acDone.ac.fault = 0 ∧ acDone.ac.mode = .done ∧ acDone.ac.obuf.length < 2 ^ 64 ∧ acDone.ac.obuf[9]? = some 0 ∧
    acDone.ac.ibuf.length < 2 ^ 64 := by decide
theorem witness_ResetSatisfiesTheInvariant :
    build.wf = true ∧ build.bounded = true ∧ Params.default.wf = true ∧ Params.default.bounded = true ∧
    ({ build with outCap := some 1 } : Params).wf = true := by decide
theorem witness_StepKeepsTheInvariant : Inv busy ∧ ∃ t, step busy = .next t ∧ t.responses = [⟨.ok, 65⟩] :=
  ⟨busy_inv, next_of_reply (by decide +kernel) (by decide +kernel)⟩
theorem witness_EveryStepAnswers : Inv busy := busy_inv

end Sys2Proof.Tests
end

/-! SUPPORT. The reset values of 10_state.md R48, piece by piece, and what every form of reset does with them. -/

namespace Sys2Proof.Proofs

open Sys2Proof.Machine Sys2Proof.Statements

/-! ### The reset values -/

/-- The Huffman column of the table of R48. -/
theorem hufIsReset_reset : HufIsReset HufState.reset := by
  have hfreq : ∀ b, tableRead HufState.reset.freq b = 0 := tableRead_replicate 0
  have hnode : ∀ i (hi : i < 511), HufState.reset.node[i] = HufNode.zero := fun _ hi => Vector.getElem_replicate hi
  have hclen : ∀ b, tableRead HufState.reset.code.clen b = 0 := tableRead_replicate 0
  have hcbits : ∀ b, tableRead HufState.reset.code.cbits b = 0 := tableRead_replicate 0
  exact ⟨rfl, rfl, hfreq, hnode, rfl, rfl, hclen, hcbits, rfl, rfl, rfl, rfl, rfl⟩

/-- The arithmetic-coder column of the table of R48. -/
theorem acIsReset_reset : AcIsReset AcState.reset := by
  have hcnt : ∀ b, tableRead AcState.reset.cnt b = 1 := tableRead_replicate 1
  exact ⟨rfl, rfl, rfl, rfl, rfl, rfl, hcnt, rfl, rfl, rfl, rfl, rfl, rfl, rfl⟩

/-! ### The forms of reset -/

/-- `RESET_ALL` does what hardware reset does, and answers (40_block_control.md R105). -/
theorem exec_resetAll_eq (s : State) : exec (.resetAll 0 0) s = .next (replied (hardwareReset s) .ok 0) := rfl

/-- `HUF_RESET` is not refused in any mode or with a fault latched (41_huffman_tree.md R110). -/
theorem exec_hufReset_eq (s : State) : exec (.hufReset 0 0) s = .next (replied (resetEngine .huf s) .ok 0) := rfl

/-- `AC_RESET` is not refused in any mode or with a fault latched (44_ac_model_port.md R165). -/
theorem exec_acReset_eq (s : State) : exec (.acReset 0 0) s = .next (replied (resetEngine .ac s) .ok 0) := rfl

/-- Settles O7: each form of reset writes `HufState.reset` or `AcState.reset`, and those are the values of R48. -/
theorem resetLeavesTheListedValues : Obligations.ResetLeavesTheListedValues := by
  refine ⟨fun _ => ⟨hufIsReset_reset, acIsReset_reset⟩, fun s => ?hardware, fun s => ?all, fun s => ?huf, fun s => ?ac⟩
  case hardware =>
    rw [hardwareReset_huf, hardwareReset_ac]
    exact ⟨hufIsReset_reset, acIsReset_reset⟩
  case all => exact ⟨HufState.reset, AcState.reset, exec_resetAll_eq s, hufIsReset_reset, acIsReset_reset⟩
  case huf => exact ⟨HufState.reset, exec_hufReset_eq s, hufIsReset_reset⟩
  case ac => exact ⟨AcState.reset, exec_acReset_eq s, acIsReset_reset⟩

end Sys2Proof.Proofs

/-! SUPPORT. The selectors of `HUF_RD` and `AC_RD` (43_huffman_unpacker.md R158, 47_ac_decoder.md R218): the byte that
names each, its legal modes and index range in the terms of the statements, and what a read past its checks answers. -/

namespace Sys2Proof.Proofs

open Sys2Proof.Machine Sys2Proof.Statements

/-- The range of a selector that takes no index holds one operand, `d = 0`. -/
theorem word_beq_zero_eq_lt_one (d : Word) : (d == 0) = decide (d.toNat < 1) := by
  rw [Bool.eq_iff_iff, beq_iff_eq, decide_eq_true_iff, Nat.lt_one_iff, ← BitVec.toNat_inj, BitVec.ofNat_eq_ofNat,
    BitVec.toNat_zero]

/-! ### The selectors of `HUF_RD` -/

/-- The operand `a` that names a selector of `HUF_RD` (R158). -/
def hufSelCode : HufSel → Byte
  | .status => 0
  | .freq => 1
  | .node => 2
  | .root => 3
  | .clen => 4
  | .cword => 5
  | .outLen => 6
  | .out => 7
  | .inLen => 8
  | .nbits => 9
  | .cur => 10

@[simp] theorem hufSel_hufSelCode (sel : HufSel) : hufSel (hufSelCode sel) = some sel := by cases sel <;> rfl

theorem hufSelCode_eq_zero {sel : HufSel} : hufSelCode sel = 0 ↔ sel = .status := by cases sel <;> decide

/-- Every operand up to 10 names a selector (30_encoding.md R85). -/
theorem exists_hufSelCode_eq {a : Byte} (h : a.toNat ≤ 10) : ∃ sel, hufSelCode sel = a := by
  have hall : ∀ n ≤ 10, ∃ sel ∈ [HufSel.status, .freq, .node, .root, .clen, .cword, .outLen, .out, .inLen, .nbits, .cur],
      (hufSelCode sel).toNat = n := by decide
  obtain ⟨sel, -, hsel⟩ := hall a.toNat h
  exact ⟨sel, BitVec.eq_of_toNat_eq hsel⟩

/-- The row of `HUF_RD` in the mode table of 70_reset_and_hazards.md R252 is the selector's own list of modes. -/
theorem hufTransition_hufRd (sel : HufSel) (d : Word) (m : HufMode) :
    hufTransition (.hufRd (hufSelCode sel) d) m = if hufSelModeOk sel m then some m else none := by
  cases sel <;> cases m <;> rfl

/-- A selector's index range is the numbers below its index count. -/
theorem hufSelIndexOk_eq (h : HufState) (d : Word) (sel : HufSel) :
    hufSelIndexOk h d sel = decide (d.toNat < hufIndexCount h (hufSelCode sel)) := by
  cases sel with
  | freq | node | clen | cword | out => rfl
  | status | root | outLen | inLen | nbits | cur => exact word_beq_zero_eq_lt_one d

/-- Past the latch and the mode, the index alone decides what a read of the Huffman engine answers (60_exceptions.md
R231 steps 4 to 6). -/
theorem exec_hufRd_pass {s : State} {sel : HufSel} (d : Word) (hlatch : s.huf.fault = 0 ∨ sel = .status)
    (hmode : hufSelModeOk sel s.huf.mode = true) :
    exec (.hufRd (hufSelCode sel) d) s =
      if hufSelIndexOk s.huf d sel then answer s (hufSelValue s.huf d sel) else refuse s .badOperand := by
  have hpass : (sel != .status && faultLatch .huf s != 0) = false := by
    obtain h | h := hlatch <;> simp [faultLatch, h]
  have hexec : exec (.hufRd (hufSelCode sel) d) s = execHufRd (hufSelCode sel) d s := rfl
  rw [hexec, execHufRd, hufSel_hufSelCode]
  simp only [hpass, hmode]
  cases hufSelIndexOk s.huf d sel <;> rfl

/-! ### The selectors of `AC_RD` -/

/-- The operand `a` that names a selector of `AC_RD` (R218). -/
def acSelCode : AcSel → Byte
  | .status => 0
  | .low => 1
  | .high => 2
  | .pending => 3
  | .value => 4
  | .cnt => 5
  | .total => 6
  | .outLen => 7
  | .out => 8
  | .inLen => 9
  | .nsym => 10
  | .remain => 11
  | .cur => 12

@[simp] theorem acSel_acSelCode (sel : AcSel) : acSel (acSelCode sel) = some sel := by cases sel <;> rfl

theorem acSelCode_eq_zero {sel : AcSel} : acSelCode sel = 0 ↔ sel = .status := by cases sel <;> decide

/-- Every operand up to 12 names a selector (30_encoding.md R85). -/
theorem exists_acSelCode_eq {a : Byte} (h : a.toNat ≤ 12) : ∃ sel, acSelCode sel = a := by
  have hall : ∀ n ≤ 12, ∃ sel ∈ [AcSel.status, .low, .high, .pending, .value, .cnt, .total, .outLen, .out, .inLen, .nsym,
      .remain, .cur], (acSelCode sel).toNat = n := by decide
  obtain ⟨sel, -, hsel⟩ := hall a.toNat h
  exact ⟨sel, BitVec.eq_of_toNat_eq hsel⟩

/-- The row of `AC_RD` in the mode table of 70_reset_and_hazards.md R253 is the selector's own list of modes. -/
theorem acTransition_acRd (sel : AcSel) (d : Word) (m : AcMode) :
    acTransition (.acRd (acSelCode sel) d) m = if acSelModeOk sel m then some m else none := by
  cases sel <;> cases m <;> rfl

/-- A selector's index range is the numbers below its index count. -/
theorem acSelIndexOk_eq (c : AcState) (d : Word) (sel : AcSel) :
    acSelIndexOk c d sel = decide (d.toNat < acIndexCount c (acSelCode sel)) := by
  cases sel with
  | cnt | out => rfl
  | status | low | high | pending | value | total | outLen | inLen | nsym | remain | cur => exact word_beq_zero_eq_lt_one d

/-- Past the latch and the mode, the index alone decides what a read of the arithmetic coder answers (60_exceptions.md
R231 steps 4 to 6). -/
theorem exec_acRd_pass {s : State} {sel : AcSel} (d : Word) (hlatch : s.ac.fault = 0 ∨ sel = .status)
    (hmode : acSelModeOk sel s.ac.mode = true) :
    exec (.acRd (acSelCode sel) d) s =
      if acSelIndexOk s.ac d sel then answer s (acSelValue s.ac d sel) else refuse s .badOperand := by
  have hpass : (sel != .status && faultLatch .ac s != 0) = false := by
    obtain h | h := hlatch <;> simp [faultLatch, h]
  have hexec : exec (.acRd (acSelCode sel) d) s = execAcRd (acSelCode sel) d s := rfl
  rw [hexec, execAcRd, acSel_acSelCode]
  simp only [hpass, hmode]
  cases acSelIndexOk s.ac d sel <;> rfl

/-! ### An index out of range -/

/-- A read of the Huffman engine past the latch and the mode refuses an index at or beyond the selector's count. -/
theorem exec_hufRd_index_out_of_range {s : State} {sel : HufSel} {d : Word} (hlatch : s.huf.fault = 0 ∨ sel = .status)
    (hmode : hufSelModeOk sel s.huf.mode = true) (hindex : hufIndexCount s.huf (hufSelCode sel) ≤ d.toNat) :
    exec (.hufRd (hufSelCode sel) d) s = refuse s .badOperand := by
  have hbad : hufSelIndexOk s.huf d sel = false := by
    rw [hufSelIndexOk_eq]
    exact decide_eq_false hindex.not_gt
  simp only [exec_hufRd_pass d hlatch hmode, hbad, Bool.false_eq_true, if_false]

/-- A read of the arithmetic coder past the latch and the mode refuses an index at or beyond the selector's count. -/
theorem exec_acRd_index_out_of_range {s : State} {sel : AcSel} {d : Word} (hlatch : s.ac.fault = 0 ∨ sel = .status)
    (hmode : acSelModeOk sel s.ac.mode = true) (hindex : acIndexCount s.ac (acSelCode sel) ≤ d.toNat) :
    exec (.acRd (acSelCode sel) d) s = refuse s .badOperand := by
  have hbad : acSelIndexOk s.ac d sel = false := by
    rw [acSelIndexOk_eq]
    exact decide_eq_false hindex.not_gt
  simp only [exec_acRd_pass d hlatch hmode, hbad, Bool.false_eq_true, if_false]

/-- Settles O34: each assigned operand `a` is the code of a selector, whose modes and index range are those of the
statement, and with the latch and the mode passed the selector's index check is the one that refuses. -/
theorem readIndexOutOfRangeIsRefused : Obligations.ReadIndexOutOfRangeIsRefused := by
  refine ⟨fun a d s ha hlatch hmode hindex => ?huf, fun a d s ha hlatch hmode hindex => ?ac⟩
  case huf =>
    obtain ⟨sel, rfl⟩ := exists_hufSelCode_eq ha
    rw [hufSelCode_eq_zero] at hlatch
    rw [hufTransition_hufRd, ite_ne_right_iff] at hmode
    exact exec_hufRd_index_out_of_range hlatch hmode.1 hindex
  case ac =>
    obtain ⟨sel, rfl⟩ := exists_acSelCode_eq ha
    rw [acSelCode_eq_zero] at hlatch
    rw [acTransition_acRd, ite_ne_right_iff] at hmode
    exact exec_acRd_index_out_of_range hlatch hmode.1 hindex

end Sys2Proof.Proofs

/-! SUPPORT. The command word (30_encoding.md R80, R84, R86): its three fields and what they determine; the opcodes that
no command has; what the decoder can answer, once; what a step does with a rejected word. -/

namespace Sys2Proof.Proofs

open Sys2Proof.Machine Sys2Proof.Statements

/-! ### The fields of the word -/

/-- The three fields fill the word and do not overlap. -/
theorem append_fields_eq (w : CmdWord) : (wordOp w ++ wordA w) ++ wordD w = w := by
  unfold wordOp wordA wordD
  rw [BitVec.extractLsb'_append_extractLsb'_eq_extractLsb' (show 72 = 64 + 8 from rfl),
    BitVec.extractLsb'_append_extractLsb'_eq_extractLsb' (show 64 = 0 + 64 from rfl)]
  exact BitVec.extractLsb'_eq_self

/-- A command whose opcode and operands are the fields of a word has that word as its encoding. -/
theorem encode_eq_of_fields {i : Instr} {w : CmdWord} (hop : opcode i = wordOp w) (ha : operandA i = wordA w)
    (hd : operandD i = wordD w) : encode i = w := by
  rw [encode, hop, ha, hd, append_fields_eq]

/-! ### Opcodes -/

/-- The opcodes that the map R84 leaves out, in the ranges in which R86 lists them. -/
abbrev IsUnlisted (op : Byte) : Prop :=
  (0x02 ≤ op.toNat ∧ op.toNat ≤ 0x0F) ∨ op.toNat = 0x1F ∨ 0x2E ≤ op.toNat

/-- The opcode of every command is listed. -/
theorem not_isUnlisted_opcode (i : Instr) : ¬ IsUnlisted (opcode i) := by
  cases i <;> simp [opcode]

/-! ### The decoder -/

/-- Everything that the decoder can do: it gives the command of a listed opcode with the operand fields as they stand in
the word, or rejects an unlisted opcode. -/
theorem decode_cases (w : CmdWord) :
    (∃ i, decode w = .ok i ∧ opcode i = wordOp w ∧ operandA i = wordA w ∧ operandD i = wordD w) ∨
    (decode w = .error (.illegalCommand (wordOp w)) ∧ IsUnlisted (wordOp w)) := by
  unfold decode
  split
  case h_32 =>
    refine .inr ⟨rfl, ?_⟩
    simp only [imp_false, ← BitVec.toNat_inj, BitVec.toNat_ofNat] at *
    omega
  all_goals
    rename_i hop
    exact .inl ⟨_, rfl, hop.symm, rfl, rfl⟩

/-- The command that a word decodes to has the fields of the word. -/
theorem fields_of_decode_eq_ok {w : CmdWord} {i : Instr} (h : decode w = .ok i) :
    opcode i = wordOp w ∧ operandA i = wordA w ∧ operandD i = wordD w := by
  obtain ⟨j, hj, hfields⟩ | ⟨herr, -⟩ := decode_cases w
  · obtain rfl : i = j := Except.ok.inj (h.symm.trans hj)
    exact hfields
  · exact absurd (h.symm.trans herr) nofun

/-- A word whose `op` is the opcode of a command decodes to a command with that opcode, whatever `a` and `d` are. -/
theorem exists_decode_eq_ok_of_opcode {w : CmdWord} {i : Instr} (h : wordOp w = opcode i) :
    ∃ j, decode w = .ok j ∧ opcode j = opcode i := by
  obtain ⟨j, hj, hop, -⟩ | ⟨-, hbad⟩ := decode_cases w
  · exact ⟨j, hj, hop.trans h⟩
  · exact absurd (h ▸ hbad) (not_isUnlisted_opcode i)

/-- The decoder rejects exactly the words with an unlisted opcode. -/
theorem decode_eq_error_iff {w : CmdWord} : (∃ r, decode w = .error r) ↔ IsUnlisted (wordOp w) := by
  obtain ⟨i, hok, hop, -⟩ | ⟨herr, hbad⟩ := decode_cases w
  · have hlisted : ¬ IsUnlisted (wordOp w) := hop ▸ not_isUnlisted_opcode i
    simp only [hok, hlisted, reduceCtorEq, exists_false]
  · exact ⟨fun _ => hbad, fun _ => ⟨_, herr⟩⟩

/-- Settles O2: a decoded word and its command have the same three fields, and the decoder's choice between a command
and a rejection is a property of `op`. -/
theorem encodeInvertsDecode : Obligations.EncodeInvertsDecode := by
  refine ⟨fun w i h => ?encoding, fun w v i h hv => ?opcode⟩
  case encoding =>
    obtain ⟨hop, ha, hd⟩ := fields_of_decode_eq_ok h
    exact ⟨encode_eq_of_fields hop ha hd, hop, ha, hd⟩
  case opcode =>
    obtain ⟨hop, -⟩ := fields_of_decode_eq_ok h
    exact exists_decode_eq_ok_of_opcode (hv.trans hop.symm)

/-! ### The refusal of a rejected word -/

/-- A step on a word that the decoder rejects takes the word from the port and answers `IllegalCommand`. -/
theorem step_of_decode_eq_error {s : State} {w : CmdWord} {rest : List HostEvent} {r : DecodeReject}
    (hport : s.port = .command w :: rest) (hdec : decode w = .error r) :
    step s = .next (replied { s with port := rest } .illegalCommand 0) := by
  have htake : takeEvent s = some (.command w, { s with port := rest }) := takeEvent_eq_some.mpr ⟨rest, hport, rfl⟩
  simp only [step, htake, hdec]
  exact illegalCommand_eq _

/-- Settles O3: the words that the decoder rejects are those of R86, and a step refuses a rejected word. -/
theorem unlistedOpcodesAreIllegal : Obligations.UnlistedOpcodesAreIllegal := by
  refine fun w => ⟨decode_eq_error_iff, fun hbad s rest hport => ?_⟩
  obtain ⟨r, hdec⟩ := decode_eq_error_iff.mpr hbad
  exact step_of_decode_eq_error hport hdec

end Sys2Proof.Proofs

/-! SUPPORT. The merge loop of `HUF_BUILD` (41_huffman_tree.md R113 to R115): what one pass of the loop does, the
invariant that relates its list of live nodes to the arena, and what every merge leaves in the finished arena. -/

namespace Sys2Proof.Proofs

open Sys2Proof.Machine Sys2Proof.Statements

/-! ### Extracting the least live node -/

/-- No node of the list comes before `m` in the order of R114. -/
def NoneBefore (m : LiveNode) (live : List LiveNode) : Prop := ∀ z ∈ live, liveLess z m = false

/-- The order of R114 on weights as numbers. -/
theorem liveLess_iff {x y : LiveNode} :
    liveLess x y = true ↔ x.w.toNat < y.w.toNat ∨ (x.w.toNat = y.w.toNat ∧ x.index < y.index) := by
  simp [liveLess, BitVec.toNat_inj]

theorem liveLess_irrefl (x : LiveNode) : liveLess x x = false := by
  rw [← Bool.not_eq_true, liveLess_iff]; omega

/-- A node that comes before `x` comes before every node that `x` does not come after. -/
theorem liveLess_false_of_le {x m z : LiveNode} (hxm : liveLess x m = false) (hzx : liveLess z x = false) :
    liveLess z m = false := by
  rw [← Bool.not_eq_true, liveLess_iff] at *; omega

/-- The order of R114 is total: of two nodes with distinct indices one comes before the other. -/
theorem liveLess_total {x z : LiveNode} (hzx : liveLess z x = false) (hne : z.index ≠ x.index) :
    liveLess x z = true := by
  rw [← Bool.not_eq_true, liveLess_iff] at hzx
  rw [liveLess_iff]; omega

/-- The extraction splits off a node that no other node comes before, and loses none. -/
theorem extractLeast_spec (x : LiveNode) (q : List LiveNode) :
    ((extractLeast x q).1 :: (extractLeast x q).2).Perm (x :: q) ∧ NoneBefore (extractLeast x q).1 (x :: q) := by
  induction q generalizing x with
  | nil => exact ⟨.refl _, List.forall_mem_singleton.mpr (liveLess_irrefl x)⟩
  | cons y q ih =>
    rw [extractLeast]
    split
    next hyx =>
      obtain ⟨hperm, hnone⟩ := ih y
      have hxy : liveLess x y = false := by
        rw [← Bool.not_eq_true, liveLess_iff]; rw [liveLess_iff] at hyx; omega
      refine ⟨(List.Perm.swap ..).trans (hperm.cons x), List.forall_mem_cons.mpr ⟨?_, hnone⟩⟩
      exact liveLess_false_of_le (hnone y List.mem_cons_self) hxy
    next hyx =>
      obtain ⟨hperm, hnone⟩ := ih x
      obtain ⟨hx, hq⟩ := List.forall_mem_cons.mp hnone
      refine ⟨(List.Perm.swap ..).trans ((hperm.cons y).trans (List.Perm.swap ..)),
        List.forall_mem_cons.mpr ⟨hx, List.forall_mem_cons.mpr ⟨?_, hq⟩⟩⟩
      exact liveLess_false_of_le hx (Bool.eq_false_of_not_eq_true hyx)

/-! ### One pass of the loop -/

/-- The internal node that a merge of `x` and `y` creates (R113). -/
def mergedNode (x y : LiveNode) : HufNode :=
  { v := true, leaf := false, left := BitVec.ofNat 9 x.index, right := BitVec.ofNat 9 y.index, w := x.w + y.w }

/-- A pass of the loop finds one live node and ends, or merges the least with the least of the others. -/
theorem mergeLoop_succ_cases (passes : Nat) (node : Vector HufNode 511) (x : LiveNode) (q : List LiveNode) (n : Nat) :
    (∃ root, mergeLoop (passes + 1) node x q n = { node := node, root := root, next := n }) ∨
    (∃ x' y' q', (x' :: y' :: q').Perm (x :: q) ∧ NoneBefore x' (x' :: y' :: q') ∧ NoneBefore y' (y' :: q') ∧
      mergeLoop (passes + 1) node x q n =
        mergeLoop passes (node.setIfInBounds n (mergedNode x' y')) { w := x'.w + y'.w, index := n } q' (n + 1)) := by
  obtain ⟨hperm, hnone⟩ := extractLeast_spec x q
  rw [mergeLoop]
  cases hq : (extractLeast x q).2 with
  | nil => exact .inl ⟨(extractLeast x q).1.index, by simp only [hq]⟩
  | cons y q2 =>
    obtain ⟨hperm', hnone'⟩ := extractLeast_spec y q2
    rw [hq] at hperm
    have hall := (hperm'.cons (extractLeast x q).1).trans hperm
    refine .inr ⟨(extractLeast x q).1, (extractLeast y q2).1, (extractLeast y q2).2, hall, ?_, ?_, ?_⟩
    · exact fun z hz => hnone z (hall.subset hz)
    · exact fun z hz => hnone' z (hperm'.subset hz)
    · simp only [hq, mergedNode]

/-! ### Entries of an arena -/

/-- Entry `i` of an arena; beyond the arena an empty entry. -/
def entry (node : Vector HufNode 511) (i : Nat) : HufNode := (node[i]?).getD HufNode.zero

theorem nodeAt_eq_entry (h : HufState) (i : Nat) : nodeAt h i = entry h.node i := rfl

@[simp] theorem entry_replicate (i : Nat) : entry (Vector.replicate 511 HufNode.zero) i = HufNode.zero := by
  rw [entry, Vector.getElem?_replicate]; split <;> rfl

theorem entry_set_same {n : Nat} (node : Vector HufNode 511) (p : HufNode) (hn : n < 511) :
    entry (node.setIfInBounds n p) n = p := by
  simp [entry, hn]

theorem entry_set_ne {n i : Nat} (node : Vector HufNode 511) (p : HufNode) (hne : i ≠ n) :
    entry (node.setIfInBounds n p) i = entry node i := by
  simp [entry, Vector.getElem?_setIfInBounds_ne hne.symm]

/-- Node `i` is live where the internal nodes are those below `n`: `Live` (R113) of an arena. -/
def LiveIn (node : Vector HufNode 511) (n i : Nat) : Prop :=
  (entry node i).v = true ∧ i < n ∧
    ∀ j, 256 ≤ j → j < n → (entry node j).left.toNat ≠ i ∧ (entry node j).right.toNat ≠ i

theorem live_iff_liveIn {h : HufState} {k i : Nat} : Live h k i ↔ LiveIn h.node (256 + k) i := Iff.rfl

/-- The node order (R114) on the entries of an arena: `NodeLess`. -/
def EntryLess (node : Vector HufNode 511) (i j : Nat) : Prop :=
  (entry node i).w.toNat < (entry node j).w.toNat ∨ ((entry node i).w = (entry node j).w ∧ i < j)

theorem nodeLess_iff_entryLess {h : HufState} {i j : Nat} : NodeLess h i j ↔ EntryLess h.node i j := Iff.rfl

/-- Entry `n` joins the two least nodes that were live before it: `x` on the left, then `y` (R114, R115). -/
structure JoinsTwoLeast (node : Vector HufNode 511) (n x y : Nat) : Prop where
  left : (entry node n).left.toNat = x
  right : (entry node n).right.toNat = y
  left_live : LiveIn node n x
  right_live : LiveIn node n y
  ne : x ≠ y
  left_least : ∀ z, LiveIn node n z → z ≠ x → EntryLess node x z
  right_least : ∀ z, LiveIn node n z → z ≠ x → z ≠ y → EntryLess node y z
  weight : (entry node n).w.toNat = (entry node x).w.toNat + (entry node y).w.toNat

/-- The arenas have the same entries below `n`. -/
def AgreeBelow (n : Nat) (node node' : Vector HufNode 511) : Prop := ∀ i < n, entry node' i = entry node i

theorem AgreeBelow.mono {m n : Nat} {node node' : Vector HufNode 511} (h : AgreeBelow n node node') (hmn : m ≤ n) :
    AgreeBelow m node node' := fun i hi => h i (hi.trans_le hmn)

theorem agreeBelow_set (n : Nat) (node : Vector HufNode 511) (p : HufNode) :
    AgreeBelow n node (node.setIfInBounds n p) := fun _ hi => entry_set_ne node p hi.ne

/-- Whether a node is live depends on the entries created by then only. -/
theorem AgreeBelow.liveIn_iff {n i : Nat} {node node' : Vector HufNode 511} (h : AgreeBelow n node node') :
    LiveIn node' n i ↔ LiveIn node n i := by
  have hchild : ∀ j, j < n → ((entry node' j).left.toNat ≠ i ∧ (entry node' j).right.toNat ≠ i ↔
      (entry node j).left.toNat ≠ i ∧ (entry node j).right.toNat ≠ i) := fun j hj => by rw [h j hj]
  constructor
  · rintro ⟨hv, hi, hj⟩
    exact ⟨by rwa [h i hi] at hv, hi, fun j h1 h2 => (hchild j h2).mp (hj j h1 h2)⟩
  · rintro ⟨hv, hi, hj⟩
    exact ⟨by rwa [h i hi], hi, fun j h1 h2 => (hchild j h2).mpr (hj j h1 h2)⟩

theorem AgreeBelow.entryLess_iff {n i j : Nat} {node node' : Vector HufNode 511} (h : AgreeBelow n node node')
    (hi : i < n) (hj : j < n) : EntryLess node' i j ↔ EntryLess node i j := by
  rw [EntryLess, EntryLess, h i hi, h j hj]

/-- Later merges leave a merge as it is. -/
theorem JoinsTwoLeast.of_agreeBelow {n x y : Nat} {node node' : Vector HufNode 511} (hj : JoinsTwoLeast node n x y)
    (h : AgreeBelow (n + 1) node node') : JoinsTwoLeast node' n x y := by
  have hn := h.mono n.le_succ
  have hx := hj.left_live.2.1
  have hy := hj.right_live.2.1
  refine ⟨?_, ?_, hn.liveIn_iff.mpr hj.left_live, hn.liveIn_iff.mpr hj.right_live, hj.ne, ?_, ?_, ?_⟩
  · rw [h n n.lt_succ_self]; exact hj.left
  · rw [h n n.lt_succ_self]; exact hj.right
  · intro z hz hzx
    have hz' := hn.liveIn_iff.mp hz
    exact (hn.entryLess_iff hx hz'.2.1).mpr (hj.left_least z hz' hzx)
  · intro z hz hzx hzy
    have hz' := hn.liveIn_iff.mp hz
    exact (hn.entryLess_iff hy hz'.2.1).mpr (hj.right_least z hz' hzx hzy)
  · rw [h n n.lt_succ_self, hn x hx, hn y hy]; exact hj.weight

/-! ### The invariant of the loop -/

/-- What the loop keeps (R113): the list holds exactly the live nodes of the arena, each once and with its weight, and
the sum of the weights, so every sum of two, fits 40 bits. -/
structure MergeInv (node : Vector HufNode 511) (n : Nat) (live : List LiveNode) : Prop where
  start : 256 ≤ n
  room : n + live.length ≤ 512
  nodup : (live.map LiveNode.index).Nodup
  mem_iff : ∀ i, i ∈ live.map LiveNode.index ↔ LiveIn node n i
  weight : ∀ e ∈ live, e.w = (entry node e.index).w
  child_lt : ∀ j, 256 ≤ j → j < n → (entry node j).left.toNat < j ∧ (entry node j).right.toNat < j
  total_lt : (live.map fun e => e.w.toNat).sum < 2 ^ 40

theorem MergeInv.perm {node : Vector HufNode 511} {n : Nat} {live live' : List LiveNode} (h : MergeInv node n live)
    (hp : live'.Perm live) : MergeInv node n live' where
  start := h.start
  room := hp.length_eq ▸ h.room
  nodup := (hp.map _).nodup_iff.mpr h.nodup
  mem_iff i := (hp.map _).mem_iff.trans (h.mem_iff i)
  weight e he := h.weight e (hp.subset he)
  child_lt := h.child_lt
  total_lt := (hp.map fun e => e.w.toNat).sum_eq.trans_lt h.total_lt

theorem MergeInv.liveIn {node : Vector HufNode 511} {n : Nat} {live : List LiveNode} (h : MergeInv node n live)
    {e : LiveNode} (he : e ∈ live) : LiveIn node n e.index :=
  (h.mem_iff e.index).mp (List.mem_map_of_mem he)

/-- Between two listed nodes the list's order is the arena's order. -/
theorem MergeInv.entryLess {node : Vector HufNode 511} {n : Nat} {live : List LiveNode} (h : MergeInv node n live)
    {x z : LiveNode} (hx : x ∈ live) (hz : z ∈ live) (hless : liveLess x z = true) :
    EntryLess node x.index z.index := by
  rw [liveLess_iff, BitVec.toNat_inj] at hless
  rwa [EntryLess, ← h.weight x hx, ← h.weight z hz]

section Merge

variable {node : Vector HufNode 511} {n : Nat} {x y : LiveNode} {q : List LiveNode}

/-- The fields of the entry that a merge writes, as numbers: no index and no sum is cut off. -/
theorem MergeInv.mergedNode_toNat (h : MergeInv node n (x :: y :: q)) :
    (mergedNode x y).left.toNat = x.index ∧ (mergedNode x y).right.toNat = y.index ∧
      (mergedNode x y).w.toNat = x.w.toNat + y.w.toNat := by
  have hx := (h.liveIn (e := x) (by simp)).2.1
  have hy := (h.liveIn (e := y) (by simp)).2.1
  have hroom := h.room
  have htotal := h.total_lt
  simp only [List.length_cons] at hroom
  simp only [List.map_cons, List.sum_cons] at htotal
  refine ⟨?_, ?_, ?_⟩
  · exact (BitVec.toNat_ofNat ..).trans (Nat.mod_eq_of_lt (by omega))
  · exact (BitVec.toNat_ofNat ..).trans (Nat.mod_eq_of_lt (by omega))
  · exact (BitVec.toNat_add ..).trans (Nat.mod_eq_of_lt (by omega))

theorem MergeInv.next_lt (h : MergeInv node n (x :: y :: q)) : n < 511 := by
  have hroom := h.room
  simp only [List.length_cons] at hroom
  omega

/-- The live nodes after a merge: the new node, and those before without its two children. -/
theorem MergeInv.liveIn_merge_iff (h : MergeInv node n (x :: y :: q)) (i : Nat) :
    LiveIn (node.setIfInBounds n (mergedNode x y)) (n + 1) i ↔
      i = n ∨ (LiveIn node n i ∧ i ≠ x.index ∧ i ≠ y.index) := by
  obtain ⟨hleft, hright, -⟩ := h.mergedNode_toNat
  have hx := (h.liveIn (e := x) (by simp)).2.1
  have hy := (h.liveIn (e := y) (by simp)).2.1
  have hagree := agreeBelow_set n node (mergedNode x y)
  have hnew := entry_set_same node (mergedNode x y) h.next_lt
  have hstart := h.start
  constructor
  · rintro ⟨hv, hi, hchild⟩
    refine or_iff_not_imp_left.mpr fun hne => ?_
    have hold : LiveIn node n i :=
      hagree.liveIn_iff.mp ⟨hv, by omega, fun j h1 h2 => hchild j h1 (by omega)⟩
    have hlast := hchild n hstart n.lt_succ_self
    rw [hnew, hleft, hright] at hlast
    exact ⟨hold, hlast.1.symm, hlast.2.symm⟩
  · rintro (rfl | ⟨hlive, hix, hiy⟩)
    · refine ⟨by rw [hnew]; rfl, i.lt_succ_self, fun j h1 h2 => ?_⟩
      obtain rfl | hj : j = i ∨ j < i := by omega
      · rw [hnew, hleft, hright]; omega
      · have := h.child_lt j h1 hj
        rw [hagree j hj]; omega
    · obtain ⟨hv, hi, hchild⟩ := hagree.liveIn_iff.mpr hlive
      refine ⟨hv, by omega, fun j h1 h2 => ?_⟩
      obtain rfl | hj : j = n ∨ j < n := by omega
      · rw [hnew, hleft, hright]; exact ⟨hix.symm, hiy.symm⟩
      · exact hchild j h1 hj

/-- A merge keeps the invariant. -/
theorem MergeInv.merge (h : MergeInv node n (x :: y :: q)) :
    MergeInv (node.setIfInBounds n (mergedNode x y)) (n + 1) ({ w := x.w + y.w, index := n } :: q) := by
  obtain ⟨hleft, hright, hsum⟩ := h.mergedNode_toNat
  have hx := (h.liveIn (e := x) (by simp)).2.1
  have hy := (h.liveIn (e := y) (by simp)).2.1
  have hnew := entry_set_same node (mergedNode x y) h.next_lt
  have hnodup := h.nodup
  simp only [List.map_cons, List.nodup_cons, List.mem_cons, not_or] at hnodup
  obtain ⟨⟨hxy, hxq⟩, hyq, hq⟩ := hnodup
  refine ⟨?start, ?room, ?nodup, ?mem_iff, ?weight, ?child_lt, ?total_lt⟩
  case start => exact h.start.trans n.le_succ
  case room =>
    have hroom := h.room
    simp only [List.length_cons] at *; omega
  case nodup =>
    refine List.nodup_cons.mpr ⟨fun hn => ?_, hq⟩
    have hlive : LiveIn node n n := (h.mem_iff n).mp (List.mem_cons_of_mem _ (List.mem_cons_of_mem _ hn))
    exact hlive.2.1.false
  case mem_iff =>
    intro i
    rw [h.liveIn_merge_iff, ← h.mem_iff]
    simp only [List.map_cons, List.mem_cons]
    constructor
    · rintro (rfl | hi)
      · exact .inl rfl
      · exact .inr ⟨.inr (.inr hi), fun e => hxq (e ▸ hi), fun e => hyq (e ▸ hi)⟩
    · rintro (rfl | ⟨rfl | rfl | hi, hix, hiy⟩)
      · exact .inl rfl
      · exact absurd rfl hix
      · exact absurd rfl hiy
      · exact .inr hi
  case weight =>
    refine List.forall_mem_cons.mpr ⟨by rw [hnew]; rfl, fun e he => ?_⟩
    have he' : e ∈ x :: y :: q := List.mem_cons_of_mem _ (List.mem_cons_of_mem _ he)
    rw [agreeBelow_set n node _ _ (h.liveIn he').2.1]
    exact h.weight e he'
  case child_lt =>
    intro j h1 h2
    obtain rfl | hj : j = n ∨ j < n := by omega
    · rw [hnew, hleft, hright]; exact ⟨hx, hy⟩
    · rw [agreeBelow_set n node _ j hj]; exact h.child_lt j h1 hj
  case total_lt =>
    have htotal := h.total_lt
    have hw : (x.w + y.w).toNat = x.w.toNat + y.w.toNat := hsum
    simp only [List.map_cons, List.sum_cons] at *
    omega

/-- A merge of the least live node with the least of the others is one that R114 and R115 ask for. -/
theorem MergeInv.joinsTwoLeast (h : MergeInv node n (x :: y :: q)) (hxmin : NoneBefore x (x :: y :: q))
    (hymin : NoneBefore y (y :: q)) :
    JoinsTwoLeast (node.setIfInBounds n (mergedNode x y)) n x.index y.index := by
  obtain ⟨hleft, hright, hsum⟩ := h.mergedNode_toNat
  have hxmem : x ∈ x :: y :: q := by simp
  have hymem : y ∈ x :: y :: q := by simp
  have hx := h.liveIn hxmem
  have hy := h.liveIn hymem
  have hagree := agreeBelow_set n node (mergedNode x y)
  have hnew := entry_set_same node (mergedNode x y) h.next_lt
  have hne : x.index ≠ y.index := by
    have hnodup := h.nodup
    simp only [List.map_cons, List.nodup_cons, List.mem_cons, not_or] at hnodup
    exact hnodup.1.1
  refine ⟨by rw [hnew, hleft], by rw [hnew, hright], hagree.liveIn_iff.mpr hx, hagree.liveIn_iff.mpr hy, hne,
    ?left_least, ?right_least, ?weight⟩
  case left_least =>
    intro z hz hzx
    obtain ⟨e, he, rfl⟩ := List.mem_map.mp ((h.mem_iff z).mpr (hagree.liveIn_iff.mp hz))
    refine (hagree.entryLess_iff hx.2.1 (h.liveIn he).2.1).mpr (h.entryLess hxmem he ?_)
    exact liveLess_total (hxmin e he) hzx
  case right_least =>
    intro z hz hzx hzy
    obtain ⟨e, he, rfl⟩ := List.mem_map.mp ((h.mem_iff z).mpr (hagree.liveIn_iff.mp hz))
    have heq : e ∈ y :: q := (List.mem_cons.mp he).resolve_left fun hex => hzx (congrArg LiveNode.index hex)
    refine (hagree.entryLess_iff hy.2.1 (h.liveIn he).2.1).mpr (h.entryLess hymem he ?_)
    exact liveLess_total (hymin e heq) hzy
  case weight =>
    rw [hnew, hsum, hagree _ hx.2.1, hagree _ hy.2.1, ← h.weight x hxmem, ← h.weight y hymem]

end Merge

/-- From a state of the invariant the loop leaves the entries below `n`, and each new entry joins the two least nodes. -/
theorem mergeLoop_joinsTwoLeast (passes : Nat) {node : Vector HufNode 511} {x : LiveNode} {q : List LiveNode} {n : Nat}
    (h : MergeInv node n (x :: q)) :
    AgreeBelow n node (mergeLoop passes node x q n).node ∧
      ∀ j, n ≤ j → j < (mergeLoop passes node x q n).next →
        ∃ a b, JoinsTwoLeast (mergeLoop passes node x q n).node j a b := by
  induction passes generalizing node x q n with
  | zero => exact ⟨fun _ _ => rfl, fun j hj hlt => absurd hlt hj.not_gt⟩
  | succ passes ih =>
    obtain ⟨root, hend⟩ | ⟨x', y', q', hperm, hxmin, hymin, hstep⟩ := mergeLoop_succ_cases passes node x q n
    · rw [hend]
      exact ⟨fun _ _ => rfl, fun j hj hlt => absurd hlt hj.not_gt⟩
    · have h' := h.perm hperm
      obtain ⟨hagree, hjoins⟩ := ih h'.merge
      rw [hstep]
      refine ⟨fun i hi => ?_, fun j hj hlt => ?_⟩
      · rw [hagree i (hi.trans n.lt_succ_self), agreeBelow_set n node _ i hi]
      · obtain rfl | hnj : j = n ∨ n + 1 ≤ j := by omega
        · exact ⟨_, _, (h'.joinsTwoLeast hxmin hymin).of_agreeBelow hagree⟩
        · exact hjoins j hnj hlt

/-! ### The arena before the first merge -/

/-- The bytes of a tree are those with a non-zero frequency. -/
theorem mem_presentBytes {freq : Vector (BitVec 32) 256} {b : Byte} :
    b ∈ presentBytes freq ↔ tableRead freq b ≠ 0 := by
  have hall : b ∈ (List.range 256).map (BitVec.ofNat 8) :=
    List.mem_map.mpr ⟨b.toNat, List.mem_range.mpr b.isLt, BitVec.ofNat_toNat ..|>.trans (BitVec.setWidth_eq b)⟩
  simp [presentBytes, List.mem_filter, hall]

theorem nodup_map_toNat_presentBytes (freq : Vector (BitVec 32) 256) :
    ((presentBytes freq).map BitVec.toNat).Nodup := by
  have hid : ((List.range 256).map (BitVec.ofNat 8)).map BitVec.toNat = List.range 256 := by
    rw [List.map_map]
    exact (List.map_congr_left fun i hi => Nat.mod_eq_of_lt (List.mem_range.mp hi)).trans (List.map_id _)
  have hsub : (presentBytes freq).Sublist ((List.range 256).map (BitVec.ofNat 8)) := List.filter_sublist
  exact (hid ▸ hsub.map BitVec.toNat).nodup List.nodup_range

theorem length_presentBytes_le (freq : Vector (BitVec 32) 256) : (presentBytes freq).length ≤ 256 := by
  have h : (presentBytes freq).length ≤ ((List.range 256).map (BitVec.ofNat 8)).length := List.length_filter_le ..
  simpa using h

/-- Writing a leaf for each byte of a list leaves the entries of the other bytes. -/
theorem entry_foldl_leaf_of_notMem (freq : Vector (BitVec 32) 256) (bs : List Byte) (node : Vector HufNode 511)
    {i : Nat} (hi : i ∉ bs.map BitVec.toNat) :
    entry (bs.foldl (fun arena b => arena.setIfInBounds b.toNat (leafNode (tableRead freq b))) node) i =
      entry node i := by
  induction bs generalizing node with
  | nil => rfl
  | cons b bs ih =>
    simp only [List.map_cons, List.mem_cons, not_or] at hi
    rw [List.foldl_cons, ih _ hi.2, entry_set_ne _ _ hi.1]

/-- Writing a leaf for each byte of a list without repetition writes the leaf of each. -/
theorem entry_foldl_leaf_of_mem (freq : Vector (BitVec 32) 256) (bs : List Byte) (node : Vector HufNode 511) {b : Byte}
    (hnodup : (bs.map BitVec.toNat).Nodup) (hb : b ∈ bs) :
    entry (bs.foldl (fun arena b => arena.setIfInBounds b.toNat (leafNode (tableRead freq b))) node) b.toNat =
      leafNode (tableRead freq b) := by
  induction bs generalizing node with
  | nil => exact absurd hb List.not_mem_nil
  | cons c bs ih =>
    obtain ⟨hc, hbs⟩ := List.nodup_cons.mp hnodup
    rw [List.foldl_cons]
    obtain rfl | hb' := List.mem_cons.mp hb
    · rw [entry_foldl_leaf_of_notMem freq bs _ hc, entry_set_same _ _ (b.isLt.trans (by decide))]
    · exact ih _ hbs hb'

/-- Before the first merge the arena has a node exactly at the bytes of the tree, and it is their leaf (R113). -/
theorem entry_leafArena_of_mem {freq : Vector (BitVec 32) 256} {b : Byte} (hb : b ∈ presentBytes freq) :
    entry (leafArena freq) b.toNat = leafNode (tableRead freq b) :=
  entry_foldl_leaf_of_mem freq _ _ (nodup_map_toNat_presentBytes freq) hb

theorem entry_leafArena_of_notMem {freq : Vector (BitVec 32) 256} {i : Nat}
    (hi : i ∉ (presentBytes freq).map BitVec.toNat) : entry (leafArena freq) i = HufNode.zero := by
  rw [leafArena, entry_foldl_leaf_of_notMem freq _ _ hi, entry_replicate]

@[simp] theorem map_index_liveLeaves (freq : Vector (BitVec 32) 256) :
    (liveLeaves freq).map LiveNode.index = (presentBytes freq).map BitVec.toNat := by
  simp [liveLeaves, Function.comp_def]

/-- 256 frequencies of 32 bits sum to a number of 40 bits (10_state.md R27). -/
theorem sum_weights_liveLeaves_lt (freq : Vector (BitVec 32) 256) :
    ((liveLeaves freq).map fun e => e.w.toNat).sum < 2 ^ 40 := by
  have hle : ∀ w ∈ (liveLeaves freq).map fun e => e.w.toNat, w ≤ 2 ^ 32 - 1 := by
    simp only [liveLeaves, List.map_map, List.forall_mem_map, Function.comp_apply, BitVec.toNat_setWidth]
    intro b _
    have := (tableRead freq b).isLt
    omega
  have hsum := List.sum_le_card_nsmul _ _ hle
  have hlen := length_presentBytes_le freq
  simp only [liveLeaves, List.length_map, smul_eq_mul] at hsum
  simp only [liveLeaves]
  omega

/-- Before the first merge the live nodes are the leaves. -/
theorem mergeInv_leafArena (freq : Vector (BitVec 32) 256) : MergeInv (leafArena freq) 256 (liveLeaves freq) where
  start := le_rfl
  room := by
    have := length_presentBytes_le freq
    simp only [liveLeaves, List.length_map]; omega
  nodup := by rw [map_index_liveLeaves]; exact nodup_map_toNat_presentBytes freq
  mem_iff i := by
    rw [map_index_liveLeaves]
    constructor
    · intro hi
      obtain ⟨b, hb, rfl⟩ := List.mem_map.mp hi
      exact ⟨by rw [entry_leafArena_of_mem hb]; rfl, b.isLt, fun j h1 h2 => absurd h2 h1.not_gt⟩
    · rintro ⟨hv, -⟩
      by_contra hi
      rw [entry_leafArena_of_notMem hi] at hv
      cases hv
  weight := by
    simp only [liveLeaves, List.forall_mem_map]
    intro b hb
    rw [entry_leafArena_of_mem hb]
    rfl
  child_lt j h1 h2 := absurd h2 h1.not_gt
  total_lt := sum_weights_liveLeaves_lt freq

/-! ### `HUF_BUILD` -/

/-- Every internal node of a built tree joins the two nodes that were least when it was created. -/
theorem buildTree_joinsTwoLeast {freq : Vector (BitVec 32) 256} {t : BuiltTree} (h : buildTree freq = some t) {j : Nat}
    (h1 : 256 ≤ j) (h2 : j < t.next) : ∃ a b, JoinsTwoLeast t.node j a b := by
  have hinv := mergeInv_leafArena freq
  rw [buildTree] at h
  split at h
  · cases h
  next x q hlive =>
    rw [hlive] at hinv
    cases h
    exact (mergeLoop_joinsTwoLeast q.length hinv).2 j h1 h2

theorem exists_buildTree_eq_some {freq : Vector (BitVec 32) 256} (h : ∃ b, tableRead freq b ≠ 0) :
    ∃ t, buildTree freq = some t := by
  obtain ⟨b, hb⟩ := h
  have hmem := mem_presentBytes.mpr hb
  rw [buildTree]
  split
  next hnil =>
    rw [liveLeaves, List.map_eq_nil_iff] at hnil
    rw [hnil] at hmem
    exact absurd hmem List.not_mem_nil
  next x q _ => exact ⟨_, rfl⟩

/-- A command without operands, in its mode and with no fault latched, passes the checks of R231. -/
theorem engineCommand_huf_pass {s : State} {m : HufMode} (hfault : s.huf.fault = 0) (hmode : s.huf.mode = m)
    (k : Result) : engineCommand .huf (usesNone 0 0) (s.huf.mode == m) s k = k :=
  engineCommand_pass rfl hfault (beq_iff_eq.mpr hmode)

/-- `HUF_BUILD` past its checks, on a table that has a tree (R113). -/
theorem exec_hufBuild_of_buildTree {s : State} {t : BuiltTree} (hfault : s.huf.fault = 0) (hmode : s.huf.mode = .freq)
    (ht : buildTree s.huf.freq = some t) :
    exec (.hufBuild 0 0) s =
      .next (replied { s with huf := { s.huf with
        node := t.node, root := BitVec.ofNat 9 t.root, nint := BitVec.ofNat 8 (t.next - 256), mode := .tree } } .ok
        ((BitVec.ofNat 9 t.root).setWidth 64)) := by
  have hexec : exec (.hufBuild 0 0) s = execHufBuild 0 0 s := rfl
  rw [hexec, execHufBuild, engineCommand_huf_pass hfault hmode, ht]
  rfl

/-- Settles O19: the merge loop keeps its list equal to the live nodes of the arena, so the least of the list is the
least live node, and later merges leave the entries of earlier ones. -/
theorem hufBuildMergesTheTwoLeast : Obligations.HufBuildMergesTheTwoLeast := by
  intro s t hfault hmode hne hexec k hk
  obtain ⟨tree, htree⟩ := exists_buildTree_eq_some hne
  rw [exec_hufBuild_of_buildTree hfault hmode htree, Host.Outcome.next.injEq] at hexec
  subst hexec
  have hk' : 256 + k < tree.next := by
    have hmod : k < (tree.next - 256) % 2 ^ 8 := hk
    omega
  obtain ⟨x, y, hjoin⟩ := buildTree_joinsTwoLeast htree (Nat.le_add_right 256 k) hk'
  obtain ⟨rfl, rfl, hx, hy, hxy, hxleast, hyleast, hw⟩ := hjoin
  exact ⟨hx, hy, hxy, hxleast, hyleast, hw⟩

end Sys2Proof.Proofs

/-! SUPPORT. `HUF_GENCODES` (41_huffman_tree.md R118, R119): how a code is held, the paths of a tree that satisfies
`TreeOk`, the walk that writes them, and the longest code. -/

namespace Sys2Proof.Proofs

open Sys2Proof.Machine Sys2Proof.Statements

/-! ### Codes in the code table (10_state.md R29) -/

theorem bitsToNat_concat (bits : List Bool) (b : Bool) : bitsToNat (bits ++ [b]) = 2 * bitsToNat bits + b.toNat := by
  simp [bitsToNat]

/-- Bit `i` of a string, counted from the first, is bit `length - 1 - i` of its number. -/
theorem testBit_bitsToNat (bits : List Bool) {i : Nat} (hi : i < bits.length) :
    (bitsToNat bits).testBit (bits.length - 1 - i) = bits[i] := by
  induction bits using List.reverseRecOn with
  | nil => exact absurd hi (Nat.not_lt_zero i)
  | append_singleton bits b ih =>
    rw [bitsToNat_concat]
    simp only [List.length_append, List.length_singleton, Nat.add_sub_cancel] at hi ⊢
    obtain rfl | hlt : i = bits.length ∨ i < bits.length := by omega
    · cases b <;> simp [Nat.testBit_zero]
    · have hpos : bits.length - i = (bits.length - 1 - i) + 1 := by omega
      have hhalf : (2 * bitsToNat bits + b.toNat) / 2 = bitsToNat bits := by
        have := b.toNat_lt
        omega
      rw [hpos, Nat.testBit_succ, hhalf, ih hlt, List.getElem_append_left hlt]

/-- Bit `i` of a string is bit `254 - i` of its register (10_state.md R29). -/
theorem getLsbD_packCode {bits : List Bool} (hlen : bits.length ≤ 255) {i : Nat} (hi : i < bits.length) :
    (packCode bits).getLsbD (254 - i) = bits[i] := by
  have hshift : 255 - bits.length ≤ 254 - i := by omega
  have hpos : 254 - i - (255 - bits.length) = bits.length - 1 - i := by omega
  rw [packCode, BitVec.getLsbD_ofNat, Nat.testBit_mul_two_pow, hpos, testBit_bitsToNat bits hi]
  simp [hshift]
  omega

/-- The entries of byte `b` are those that writing the code `bits` leaves. -/
def HoldsCode (t : CodeTable) (b : Byte) (bits : List Bool) : Prop :=
  tableRead t.clen b = BitVec.ofNat 8 bits.length ∧ tableRead t.cbits b = packCode bits

/-- The entries of byte `b` are the same in both tables. -/
def SameCode (t t' : CodeTable) (b : Byte) : Prop :=
  tableRead t'.clen b = tableRead t.clen b ∧ tableRead t'.cbits b = tableRead t.cbits b

theorem holdsCode_codeWrite (t : CodeTable) (b : Byte) (bits : List Bool) : HoldsCode (codeWrite t b bits) b bits :=
  ⟨clen_codeWrite_same t b bits, cbits_codeWrite_same t b bits⟩

theorem sameCode_codeWrite (t : CodeTable) {b c : Byte} (bits : List Bool) (h : c ≠ b) :
    SameCode t (codeWrite t b bits) c :=
  ⟨clen_codeWrite_ne t bits h, cbits_codeWrite_ne t bits h⟩

theorem HoldsCode.of_sameCode {t t' : CodeTable} {b : Byte} {bits : List Bool} (h : HoldsCode t b bits)
    (hs : SameCode t t' b) : HoldsCode t' b bits :=
  ⟨hs.1.trans h.1, hs.2.trans h.2⟩

theorem SameCode.trans {t t' t'' : CodeTable} {b : Byte} (h : SameCode t t' b) (h' : SameCode t' t'' b) :
    SameCode t t'' b :=
  ⟨h'.1.trans h.1, h'.2.trans h.2⟩

/-- In the empty table every byte has the empty code. -/
theorem holdsCode_empty (b : Byte) : HoldsCode CodeTable.empty b [] :=
  ⟨tableRead_replicate 0 b, tableRead_replicate 0 b⟩

theorem HoldsCode.toNat_clen {t : CodeTable} {b : Byte} {bits : List Bool} (h : HoldsCode t b bits)
    (hlen : bits.length ≤ 255) : (tableRead t.clen b).toNat = bits.length := by
  rw [h.1, BitVec.toNat_ofNat, Nat.mod_eq_of_lt (by omega)]

/-- A code of at most 255 bits is read back as it was written. -/
theorem HoldsCode.codeOf_eq {t : CodeTable} {b : Byte} {bits : List Bool} (h : HoldsCode t b bits)
    (hlen : bits.length ≤ 255) : codeOf t b = bits := by
  rw [codeOf, h.toNat_clen hlen, h.2]
  refine List.ext_getElem (by simp) fun i _ hi => ?_
  rw [List.getElem_map, List.getElem_range, getLsbD_packCode hlen hi]

/-! ### Nodes of a tree -/

theorem viewNode_eq (h : HufState) {i : BitVec 9} (hi : i.toNat < 511) :
    viewNode h.node i =
      if (nodeAt h i.toNat).leaf then (if i.toNat < 256 then .leaf (i.setWidth 8) else .broken)
      else .internal (nodeAt h i.toNat).left (nodeAt h i.toNat).right := by
  rw [viewNode, nodeAt, Vector.getElem?_eq_getElem hi, Option.getD_some]

/-- A walk finds a leaf only at the index of its byte. -/
theorem viewNode_eq_leaf {node : Vector HufNode 511} {i : BitVec 9} {b : Byte} (h : viewNode node i = .leaf b) :
    i.toNat = b.toNat ∧ ∃ hi : i.toNat < 511, node[i.toNat].leaf = true := by
  unfold viewNode at h
  split at h
  · cases h
  next n hn =>
    obtain ⟨hi, rfl⟩ := Vector.getElem?_eq_some_iff.mp hn
    split at h
    next hleaf =>
      split at h
      next hbyte =>
        cases h
        exact ⟨by simp [Nat.mod_eq_of_lt hbyte], hi, hleaf⟩
      · cases h
    · cases h

section Tree

variable {h : HufState}

/-- The bytes of the tree are its nodes below 256. -/
theorem v_nodeAt_toNat_iff (ht : TreeOk h) (b : Byte) : (nodeAt h b.toNat).v = true ↔ tableRead h.freq b ≠ 0 := by
  obtain ⟨-, hleaves, -⟩ := ht
  rw [hleaves b]
  split
  next hz => exact iff_of_false nofun (not_not.mpr hz)
  next hnz => exact iff_of_true rfl hnz

/-- Where the walk finds a leaf there is a byte of the tree. -/
theorem tableRead_freq_ne_zero_of_viewNode (ht : TreeOk h) {i : BitVec 9} {b : Byte}
    (hview : viewNode h.node i = .leaf b) : tableRead h.freq b ≠ 0 := by
  obtain ⟨-, hleaves, -⟩ := ht
  obtain ⟨hib, hi, hleaf⟩ := viewNode_eq_leaf hview
  intro hzero
  have hnode := hleaves b
  rw [if_pos hzero, ← hib, nodeAt, Vector.getElem?_eq_getElem hi, Option.getD_some] at hnode
  rw [hnode] at hleaf
  cases hleaf

/-- The children of an internal node: nodes created before it, and two (10_state.md R27, R28). -/
structure ChildrenOk (h : HufState) (i : Nat) (left right : BitVec 9) : Prop where
  left_v : (nodeAt h left.toNat).v = true
  right_v : (nodeAt h right.toNat).v = true
  left_lt : left.toNat < i
  right_lt : right.toNat < i
  ne : left ≠ right

/-- Everything that the walk of a tree can find at a node: a leaf, or an internal node with its children. -/
theorem viewNode_cases (ht : TreeOk h) {i : BitVec 9} (hi : i.toNat < 511) (hv : (nodeAt h i.toNat).v = true) :
    (i.toNat < 256 ∧ viewNode h.node i = .leaf (i.setWidth 8)) ∨
    (256 ≤ i.toNat ∧ i.toNat < 256 + h.nint.toNat ∧
      viewNode h.node i = .internal (nodeAt h i.toNat).left (nodeAt h i.toNat).right ∧
      ChildrenOk h i.toNat (nodeAt h i.toNat).left (nodeAt h i.toNat).right) := by
  obtain ⟨-, hleaves, hinternal, -⟩ := ht
  rw [viewNode_eq h hi]
  by_cases hbyte : i.toNat < 256
  · refine .inl ⟨hbyte, ?_⟩
    have hnode := hleaves (i.setWidth 8)
    rw [show (i.setWidth 8).toNat = i.toNat by simp [Nat.mod_eq_of_lt hbyte]] at hnode
    split at hnode
    · rw [hnode] at hv; cases hv
    · rw [if_pos hbyte, if_pos (by rw [hnode]; rfl)]
  · refine .inr ⟨by omega, ?_⟩
    have hnode := hinternal i.toNat hi (by omega)
    split at hnode
    next hlt =>
      obtain ⟨-, hleaf, hl, hr, hne, hlv, hrv, -⟩ := hnode
      exact ⟨hlt, by rw [if_neg (by rw [hleaf]; decide)], hlv, hrv, hl, hr, hne⟩
    · rw [hnode] at hv; cases hv

/-! ### Paths of a tree -/

theorem followPath_cons_of_internal {node : Vector HufNode 511} {i left right : BitVec 9}
    (hview : viewNode node i = .internal left right) (bit : Bool) (p : List Bool) :
    followPath node i (bit :: p) = followPath node (if bit then right else left) p := by
  simp only [followPath, hview]

theorem followPath_cons_of_leaf {node : Vector HufNode 511} {i : BitVec 9} {b : Byte}
    (hview : viewNode node i = .leaf b) (bit : Bool) (p : List Bool) : followPath node i (bit :: p) = none := by
  simp only [followPath, hview]

/-- One edge more at the end of a path. -/
theorem followPath_concat (node : Vector HufNode 511) (i : BitVec 9) (p : List Bool) (bit : Bool) :
    followPath node i (p ++ [bit]) = (followPath node i p).bind fun j => followPath node j [bit] := by
  induction p generalizing i with
  | nil => rfl
  | cons c p ih =>
    rw [List.cons_append, followPath, followPath]
    cases viewNode node i with
    | leaf | broken => rfl
    | internal left right => exact ih _

/-- A path from a node of the tree leads to nodes of the tree, and each edge goes to a node created earlier. -/
theorem followPath_descends (ht : TreeOk h) {p : List Bool} {i j : BitVec 9} (hi : i.toNat < 511)
    (hv : (nodeAt h i.toNat).v = true) (hp : followPath h.node i p = some j) :
    (nodeAt h j.toNat).v = true ∧ j.toNat + p.length ≤ i.toNat ∧ p.length + (j.toNat - 255) ≤ i.toNat - 255 := by
  induction p generalizing i with
  | nil =>
    cases hp
    exact ⟨hv, le_rfl, by simp⟩
  | cons bit p ih =>
    obtain ⟨-, hview⟩ | ⟨hge, -, hview, hc⟩ := viewNode_cases ht hi hv
    · rw [followPath_cons_of_leaf hview] at hp; cases hp
    · rw [followPath_cons_of_internal hview] at hp
      have hchild : (nodeAt h (if bit then (nodeAt h i.toNat).right else (nodeAt h i.toNat).left).toNat).v = true ∧
          (if bit then (nodeAt h i.toNat).right else (nodeAt h i.toNat).left).toNat < i.toNat := by
        cases bit
        · exact ⟨hc.left_v, hc.left_lt⟩
        · exact ⟨hc.right_v, hc.right_lt⟩
      obtain ⟨hjv, h1, h2⟩ := ih (hchild.2.trans hi) hchild.1 hp
      simp only [List.length_cons]
      exact ⟨hjv, by omega, by omega⟩

/-- `path` leads from node `i` to the leaf of byte `b`: what `IsCode` says of the root. -/
def LeadsTo (h : HufState) (i : BitVec 9) (path : List Bool) (b : Byte) : Prop :=
  (followPath h.node i path).map (viewNode h.node) = some (.leaf b)

theorem isCode_iff_leadsTo {b : Byte} {path : List Bool} (hroot : ¬ h.root.toNat < 256) :
    IsCode h b path ↔ LeadsTo h h.root path b := by
  rw [IsCode, if_neg hroot, LeadsTo]

/-- A path to a leaf ends at the index of its byte. -/
theorem LeadsTo.followPath_eq {i : BitVec 9} {path : List Bool} {b : Byte} (hl : LeadsTo h i path b) :
    followPath h.node i path = some (b.setWidth 9) := by
  obtain ⟨j, hj, hview⟩ := Option.map_eq_some_iff.mp hl
  have hjb : j = b.setWidth 9 := BitVec.eq_of_toNat_eq (by
    rw [(viewNode_eq_leaf hview).1, BitVec.toNat_setWidth, Nat.mod_eq_of_lt (b.isLt.trans (by decide))])
  rw [hj, hjb]

/-- The byte that a path leads to is one of the tree. -/
theorem LeadsTo.freq_ne_zero (ht : TreeOk h) {i : BitVec 9} {path : List Bool} {b : Byte} (hl : LeadsTo h i path b) :
    tableRead h.freq b ≠ 0 := by
  obtain ⟨j, -, hview⟩ := Option.map_eq_some_iff.mp hl
  exact tableRead_freq_ne_zero_of_viewNode ht hview

theorem leadsTo_leaf_iff {i : BitVec 9} {path : List Bool} {b c : Byte} (hview : viewNode h.node i = .leaf c) :
    LeadsTo h i path b ↔ path = [] ∧ b = c := by
  cases path with
  | nil => simp [LeadsTo, followPath, hview, eq_comm]
  | cons bit path => simp [LeadsTo, followPath_cons_of_leaf hview]

theorem leadsTo_cons_iff {i left right : BitVec 9} (hview : viewNode h.node i = .internal left right) {bit : Bool}
    {path : List Bool} {b : Byte} : LeadsTo h i (bit :: path) b ↔ LeadsTo h (if bit then right else left) path b := by
  rw [LeadsTo, LeadsTo, followPath_cons_of_internal hview]

theorem not_leadsTo_nil_of_internal {i left right : BitVec 9} (hview : viewNode h.node i = .internal left right)
    (b : Byte) : ¬ LeadsTo h i [] b := by
  simp [LeadsTo, followPath, hview]

/-! ### Every node has exactly one path from the root -/

theorem mem_parents {i j : Nat} :
    j ∈ parents h i ↔ 256 ≤ j ∧ j < 256 + h.nint.toNat ∧
      ((nodeAt h j).left.toNat = i ∨ (nodeAt h j).right.toNat = i) := by
  simp only [parents, List.mem_filter, List.mem_map, List.mem_range, Bool.or_eq_true, decide_eq_true_eq, ← and_assoc]
  refine and_congr_left fun _ => ⟨?_, fun ⟨h1, h2⟩ => ⟨j - 256, by omega, by omega⟩⟩
  rintro ⟨m, hm, rfl⟩
  omega

/-- The root is the one leaf, or the internal node created last; a node of the tree in both cases. -/
theorem root_cases (ht : TreeOk h) : (nodeAt h h.root.toNat).v = true ∧
    ((h.nint.toNat = 0 ∧ h.root.toNat < 256) ∨ (0 < h.nint.toNat ∧ h.root.toNat = 255 + h.nint.toNat)) := by
  obtain ⟨-, -, hinternal, -, hroot⟩ := ht
  have hnint := h.nint.isLt
  unfold RootOk at hroot
  split at hroot
  next hzero => exact ⟨hroot.2, .inl ⟨congrArg BitVec.toNat hzero, hroot.1⟩⟩
  next hne =>
    have hpos : h.nint.toNat ≠ 0 := fun e => hne (BitVec.eq_of_toNat_eq e)
    have hnode := hinternal h.root.toNat (by omega) (by omega)
    rw [if_pos (by omega)] at hnode
    exact ⟨hnode.1, .inr ⟨by omega, hroot⟩⟩

theorem root_lt (ht : TreeOk h) : h.root.toNat < 511 := by
  have hnint := h.nint.isLt
  obtain ⟨-, ⟨-, hleaf⟩ | ⟨-, hlast⟩⟩ := root_cases ht <;> omega

/-- Every node of the tree is reached from an internal root. -/
theorem exists_followPath_root (ht : TreeOk h) (hroot : ¬ h.root.toNat < 256) {j : BitVec 9} (hj : j.toNat < 511)
    (hv : (nodeAt h j.toNat).v = true) : ∃ p, followPath h.node h.root p = some j := by
  by_cases hjr : j = h.root
  · exact ⟨[], by rw [hjr]; rfl⟩
  · have ⟨_, _, hinternal, hparents, _⟩ := ht
    have hone := hparents j.toNat hj hv fun e => hjr (BitVec.eq_of_toNat_eq e)
    obtain ⟨m, hm⟩ := List.exists_mem_of_length_pos (hone ▸ Nat.one_pos)
    obtain ⟨hge, hlt, hchild⟩ := mem_parents.mp hm
    have hnint := h.nint.isLt
    have hm9 : (BitVec.ofNat 9 m).toNat = m := (BitVec.toNat_ofNat ..).trans (Nat.mod_eq_of_lt (by omega))
    have hmv : (nodeAt h m).v = true := by
      have hnode := hinternal m (by omega) hge
      rw [if_pos hlt] at hnode
      exact hnode.1
    obtain ⟨hbyte, -⟩ | ⟨-, -, hview, hc⟩ := viewNode_cases ht (i := BitVec.ofNat 9 m) (by omega) (by rwa [hm9])
    · omega
    rw [hm9] at hview hc
    have hlt' : j.toNat < m := by
      obtain hl | hr := hchild
      · exact hl ▸ hc.left_lt
      · exact hr ▸ hc.right_lt
    obtain ⟨p, hp⟩ := exists_followPath_root ht hroot (j := BitVec.ofNat 9 m) (by omega) (by rwa [hm9])
    have hstep : ∃ bit, followPath h.node (BitVec.ofNat 9 m) [bit] = some j := by
      obtain hl | hr := hchild
      · exact ⟨false, (followPath_cons_of_internal hview ..).trans (congrArg some (BitVec.eq_of_toNat_eq hl))⟩
      · exact ⟨true, (followPath_cons_of_internal hview ..).trans (congrArg some (BitVec.eq_of_toNat_eq hr))⟩
    obtain ⟨bit, hbit⟩ := hstep
    exact ⟨p ++ [bit], by rw [followPath_concat, hp, Option.bind_some, hbit]⟩
termination_by 511 - j.toNat
decreasing_by rw [hm9]; omega

/-- The last edge of a path from the root: it leaves an internal node, by the label's child. -/
theorem followPath_root_concat (ht : TreeOk h) {p : List Bool} {bit : Bool} {j : BitVec 9}
    (hp : followPath h.node h.root (p ++ [bit]) = some j) :
    ∃ m, followPath h.node h.root p = some m ∧ m.toNat ∈ parents h j.toNat ∧
      ChildrenOk h m.toNat (nodeAt h m.toNat).left (nodeAt h m.toNat).right ∧
      j = if bit then (nodeAt h m.toNat).right else (nodeAt h m.toNat).left := by
  obtain ⟨hv, -⟩ := root_cases ht
  have hlt := root_lt ht
  rw [followPath_concat] at hp
  obtain ⟨m, hm, hlast⟩ := Option.bind_eq_some_iff.mp hp
  obtain ⟨hmv, hmle, -⟩ := followPath_descends ht hlt hv hm
  obtain ⟨-, hview⟩ | ⟨hge, hnint, hview, hc⟩ := viewNode_cases ht (by omega) hmv
  · rw [followPath_cons_of_leaf hview] at hlast; cases hlast
  · rw [followPath_cons_of_internal hview] at hlast
    have hj := (Option.some.inj hlast).symm
    refine ⟨m, hm, mem_parents.mpr ⟨hge, hnint, ?_⟩, hc, hj⟩
    cases bit
    · exact .inl (congrArg BitVec.toNat hj).symm
    · exact .inr (congrArg BitVec.toNat hj).symm

/-- Two paths from the root to the same node are the same path (R116). -/
theorem followPath_root_injective (ht : TreeOk h) {p p' : List Bool} {j : BitVec 9}
    (hp : followPath h.node h.root p = some j) (hp' : followPath h.node h.root p' = some j) : p = p' := by
  obtain ⟨hv, -⟩ := root_cases ht
  have hlt := root_lt ht
  have hroot_path : ∀ {q : List Bool}, followPath h.node h.root q = some h.root → q = [] := fun hq => by
    obtain ⟨-, hle, -⟩ := followPath_descends ht hlt hv hq
    exact List.length_eq_zero_iff.mp (by omega)
  induction p using List.reverseRecOn generalizing p' j with
  | nil =>
    cases hp
    exact (hroot_path hp').symm
  | append_singleton p bit ih =>
    induction p' using List.reverseRecOn with
    | nil =>
      cases hp'
      exact hroot_path hp
    | append_singleton p' bit' _ =>
      obtain ⟨hjv, hjle, -⟩ := followPath_descends ht hlt hv hp
      obtain ⟨m, hm, hmem, hc, hj⟩ := followPath_root_concat ht hp
      obtain ⟨m', hm', hmem', -, hj'⟩ := followPath_root_concat ht hp'
      have hne : j.toNat ≠ h.root.toNat := by
        simp only [List.length_append, List.length_singleton] at hjle
        omega
      have ⟨_, _, _, hparents, _⟩ := ht
      obtain ⟨a, ha⟩ := List.length_eq_one_iff.mp (hparents j.toNat (by omega) hjv hne)
      rw [ha, List.mem_singleton] at hmem hmem'
      have hmm : m = m' := BitVec.eq_of_toNat_eq (hmem.trans hmem'.symm)
      subst hmm
      have hbits : bit = bit' := by
        by_contra hbb
        have heq := hj.symm.trans hj'
        match bit, bit' with
        | false, false | true, true => exact hbb rfl
        | false, true => exact hc.ne heq
        | true, false => exact hc.ne heq.symm
      rw [ih hm hm', hbits]

/-! ### The walk -/

/-- The walk from a node of the tree ends, gives each leaf below the node the path to it, and no other byte a code
(R118). The indices fall along a path, so a node below `255 + depth` has fewer than `depth` levels below it. -/
theorem visitNode_spec (ht : TreeOk h) (depth : Nat) {i : BitVec 9} (hi : i.toNat < 511)
    (hv : (nodeAt h i.toNat).v = true) (hpos : 0 < depth) (hdepth : i.toNat < 255 + depth) (path : List Bool)
    (t : CodeTable) :
    ∃ t', visitNode h.node depth i path t = some t' ∧
      ∀ b, (∃ p, LeadsTo h i p b ∧ HoldsCode t' b (path ++ p)) ∨ ((∀ p, ¬ LeadsTo h i p b) ∧ SameCode t t' b) := by
  induction depth generalizing i path t with
  | zero => exact absurd hpos (Nat.lt_irrefl 0)
  | succ depth ih =>
    obtain ⟨-, hview⟩ | ⟨hge, -, hview, hc⟩ := viewNode_cases ht hi hv
    · refine ⟨codeWrite t (i.setWidth 8) path, by simp only [visitNode, hview], fun b => ?_⟩
      by_cases hb : b = i.setWidth 8
      · refine .inl ⟨[], (leadsTo_leaf_iff hview).mpr ⟨rfl, hb⟩, ?_⟩
        rw [List.append_nil, hb]
        exact holdsCode_codeWrite ..
      · exact .inr ⟨fun p hp => hb ((leadsTo_leaf_iff hview).mp hp).2, sameCode_codeWrite t path hb⟩
    · have hl := hc.left_lt
      have hr := hc.right_lt
      obtain ⟨t₁, hleft, hcode₁⟩ := ih (by omega) hc.left_v (by omega) (by omega) (path ++ [false]) t
      obtain ⟨t₂, hright, hcode₂⟩ := ih (by omega) hc.right_v (by omega) (by omega) (path ++ [true]) t₁
      refine ⟨t₂, by simp only [visitNode, hview, hleft, hright], fun b => ?_⟩
      obtain ⟨p, hp, hholds⟩ | ⟨hno₂, hsame₂⟩ := hcode₂ b
      · exact .inl ⟨true :: p, (leadsTo_cons_iff hview).mpr hp, by rwa [List.append_assoc] at hholds⟩
      obtain ⟨p, hp, hholds⟩ | ⟨hno₁, hsame₁⟩ := hcode₁ b
      · refine .inl ⟨false :: p, (leadsTo_cons_iff hview).mpr hp, ?_⟩
        rw [List.append_assoc] at hholds
        exact hholds.of_sameCode hsame₂
      · refine .inr ⟨fun p hp => ?_, hsame₁.trans hsame₂⟩
        match p with
        | [] => exact not_leadsTo_nil_of_internal hview b hp
        | false :: p => exact hno₁ p ((leadsTo_cons_iff hview).mp hp)
        | true :: p => exact hno₂ p ((leadsTo_cons_iff hview).mp hp)

/-! ### The codes of a tree -/

/-- A code is a string of 1 to 255 bits (R120). -/
theorem length_of_isCode (ht : TreeOk h) {b : Byte} {path : List Bool} (hp : IsCode h b path) :
    0 < path.length ∧ path.length ≤ 255 := by
  obtain ⟨hv, -⟩ := root_cases ht
  have hlt := root_lt ht
  by_cases hroot : h.root.toNat < 256
  · rw [IsCode, if_pos hroot] at hp
    obtain ⟨-, rfl⟩ := hp
    decide
  · have hpath := ((isCode_iff_leadsTo hroot).mp hp).followPath_eq
    obtain ⟨-, -, hle⟩ := followPath_descends ht hlt hv hpath
    refine ⟨List.length_pos_iff.mpr ?_, by omega⟩
    rintro rfl
    have hb := b.isLt
    have hrb := congrArg BitVec.toNat (Option.some.inj hpath)
    rw [BitVec.toNat_setWidth] at hrb
    omega

/-- No byte has two codes. -/
theorem isCode_unique (ht : TreeOk h) {b : Byte} {p p' : List Bool} (hp : IsCode h b p) (hp' : IsCode h b p') :
    p = p' := by
  by_cases hroot : h.root.toNat < 256
  · rw [IsCode, if_pos hroot] at hp hp'
    exact hp.2.trans hp'.2.symm
  · rw [isCode_iff_leadsTo hroot] at hp hp'
    exact followPath_root_injective ht hp.followPath_eq hp'.followPath_eq

/-- A byte that is a node is the only byte of a single-leaf tree. -/
theorem eq_root_of_single_leaf (ht : TreeOk h) (hroot : h.root.toNat < 256) {b : Byte} (hb : tableRead h.freq b ≠ 0) :
    b = h.root.setWidth 8 := by
  obtain ⟨hv, hcases⟩ := root_cases ht
  have ⟨hcount, _⟩ := ht
  have hone : (presentBytes h.freq).length = 1 := by omega
  have hmem : h.root.setWidth 8 ∈ presentBytes h.freq := by
    rw [mem_presentBytes, ← v_nodeAt_toNat_iff ht]
    simpa [Nat.mod_eq_of_lt hroot] using hv
  obtain ⟨c, hc⟩ := List.length_eq_one_iff.mp hone
  have hbmem := mem_presentBytes.mpr hb
  rw [hc, List.mem_singleton] at hmem hbmem
  exact hbmem.trans hmem.symm

/-- The bytes of the tree are those that have a code (R119). -/
theorem exists_isCode_iff (ht : TreeOk h) (b : Byte) : (∃ path, IsCode h b path) ↔ tableRead h.freq b ≠ 0 := by
  by_cases hroot : h.root.toNat < 256
  · constructor
    · rintro ⟨path, hp⟩
      rw [IsCode, if_pos hroot] at hp
      obtain ⟨hv, -⟩ := root_cases ht
      rw [← v_nodeAt_toNat_iff ht, hp.1]
      simpa [Nat.mod_eq_of_lt hroot] using hv
    · intro hb
      exact ⟨[false], by rw [IsCode, if_pos hroot]; exact ⟨eq_root_of_single_leaf ht hroot hb, rfl⟩⟩
  · simp only [isCode_iff_leadsTo hroot]
    constructor
    · rintro ⟨path, hp⟩
      exact hp.freq_ne_zero ht
    · intro hb
      have hv := (v_nodeAt_toNat_iff ht b).mpr hb
      have hb9 : (b.setWidth 9).toNat = b.toNat :=
        (BitVec.toNat_setWidth ..).trans (Nat.mod_eq_of_lt (b.isLt.trans (by decide)))
      have hlt := b.isLt
      obtain ⟨p, hp⟩ := exists_followPath_root ht hroot (j := b.setWidth 9) (by omega) (by rwa [hb9])
      obtain ⟨-, hview⟩ | ⟨hge, -⟩ := viewNode_cases ht (i := b.setWidth 9) (by omega) (by rwa [hb9])
      · refine ⟨p, ?_⟩
        rw [LeadsTo, hp, Option.map_some, hview, BitVec.setWidth_setWidth_of_le b (by decide), BitVec.setWidth_eq]
      · omega

/-- The generated table holds the code of every byte that has one, and the empty code for every other byte. -/
theorem genCodes_spec (ht : TreeOk h) : ∃ t, genCodes h.node h.root = some t ∧
    ∀ b, (∃ path, IsCode h b path ∧ HoldsCode t b path) ∨ ((∀ path, ¬ IsCode h b path) ∧ HoldsCode t b []) := by
  rw [genCodes]
  by_cases hroot : h.root.toNat < 256
  · refine ⟨_, if_pos hroot, fun b => ?_⟩
    simp only [IsCode, if_pos hroot]
    by_cases hb : b = h.root.setWidth 8
    · exact .inl ⟨[false], ⟨hb, rfl⟩, hb ▸ holdsCode_codeWrite ..⟩
    · exact .inr ⟨fun _ hp => hb hp.1, (holdsCode_empty b).of_sameCode (sameCode_codeWrite _ _ hb)⟩
  · obtain ⟨hv, -⟩ := root_cases ht
    have hlt := root_lt ht
    obtain ⟨t, hvisit, hcode⟩ := visitNode_spec ht 256 hlt hv (by decide) hlt [] CodeTable.empty
    refine ⟨t, (if_neg hroot).trans hvisit, fun b => ?_⟩
    simp only [isCode_iff_leadsTo hroot]
    exact (hcode b).imp_right fun ⟨hno, hsame⟩ => ⟨hno, (holdsCode_empty b).of_sameCode hsame⟩

end Tree

/-! ### The longest code -/

/-- The answer of `HUF_GENCODES` is the greatest code length of the table (R118). -/
theorem maxCodeLength_spec (t : CodeTable) :
    (∀ b, (tableRead t.clen b).toNat ≤ maxCodeLength t) ∧ ∃ b, (tableRead t.clen b).toNat = maxCodeLength t := by
  have hmax : (0 :: t.clen.toList.map BitVec.toNat).max? = some (maxCodeLength t) := by
    rw [List.max?_cons', List.foldl_map]; rfl
  obtain ⟨hmem, hle⟩ := List.max?_eq_some_iff.mp hmax
  have hread : ∀ b, (tableRead t.clen b).toNat ∈ t.clen.toList.map BitVec.toNat := fun b =>
    List.mem_map_of_mem (List.mem_of_getElem? (tableRead_eq_toList t.clen b))
  have hbound : ∀ b, (tableRead t.clen b).toNat ≤ maxCodeLength t := fun b => hle _ (List.mem_cons_of_mem _ (hread b))
  refine ⟨hbound, ?_⟩
  obtain hzero | hmem := List.mem_cons.mp hmem
  · exact ⟨0, by have := hbound 0; omega⟩
  · obtain ⟨l, hl, hlm⟩ := List.mem_map.mp hmem
    obtain ⟨i, hi, rfl⟩ := List.getElem_of_mem hl
    have hi' : i < 256 := by simpa using hi
    refine ⟨BitVec.ofNat 8 i, ?_⟩
    rw [← hlm]
    simp [tableRead, Nat.mod_eq_of_lt hi']

/-! ### `HUF_GENCODES` -/

/-- `HUF_GENCODES` past its checks, on a tree that the walk ends on (R118). -/
theorem exec_hufGencodes_of_genCodes {s : State} {t : CodeTable} (hfault : s.huf.fault = 0) (hmode : s.huf.mode = .tree)
    (ht : genCodes s.huf.node s.huf.root = some t) :
    exec (.hufGencodes 0 0) s =
      .next (replied { s with huf := { s.huf with code := t, mode := .ready } } .ok
        (BitVec.ofNat 64 (maxCodeLength t))) := by
  have hexec : exec (.hufGencodes 0 0) s = execHufGencodes 0 0 s := rfl
  rw [hexec, execHufGencodes, engineCommand_huf_pass hfault hmode, ht]
  rfl

/-- Settles O21: the walk gives every leaf a path that leads to it, a tree has one path to each leaf, and a path of at
most 255 bits is read back from the table as it was written. -/
theorem gencodesWritesThePaths : Obligations.GencodesWritesThePaths := by
  intro s hfault hmode ht
  obtain ⟨t, hgen, hcode⟩ := genCodes_spec ht
  refine ⟨t, maxCodeLength t, exec_hufGencodes_of_genCodes hfault hmode hgen, fun b => ?codesOk,
    fun b path hpath => ?paths, maxCodeLength_spec t⟩
  case codesOk =>
    obtain ⟨path, hpath, hholds⟩ | ⟨hno, hholds⟩ := hcode b
    · obtain ⟨hpos, hlen⟩ := length_of_isCode ht hpath
      have hfreq := (exists_isCode_iff ht b).mp ⟨path, hpath⟩
      have hclen : tableRead t.clen b ≠ 0 := fun hzero => by
        have hnat := hholds.toNat_clen hlen
        rw [hzero] at hnat
        exact hpos.ne hnat
      refine ⟨by rw [hholds.codeOf_eq hlen]; exact hholds.2, ?_⟩
      rw [if_neg hfreq, hholds.codeOf_eq hlen]
      exact ⟨hclen, hpath⟩
    · have hfreq : tableRead s.huf.freq b = 0 := by
        by_contra hne
        obtain ⟨path, hpath⟩ := (exists_isCode_iff ht b).mpr hne
        exact hno path hpath
      refine ⟨by rw [hholds.codeOf_eq (Nat.zero_le _)]; exact hholds.2, ?_⟩
      rw [if_pos hfreq]
      exact hholds.1
  case paths =>
    obtain ⟨path', hpath', hholds⟩ | ⟨hno, -⟩ := hcode b
    · rw [hholds.codeOf_eq (length_of_isCode ht hpath').2]
      exact isCode_unique ht hpath' hpath
    · exact absurd hpath (hno path)

end Sys2Proof.Proofs

/-! SUPPORT. The range renormalization unit (46_renorm_unit.md sections 1 to 4): what each case says of the interval, and
why the 64 steps that the model allows never cut a call short (R197). Each step doubles the range, and a range above
`HALF` is in the stop case. -/

namespace Sys2Proof.Proofs

open Sys2Proof.Machine Sys2Proof.Statements

/-! ### The cases -/

theorem half_eq : half = 0x8000000000000000 := rfl

theorem quarter_eq : quarter = 0x4000000000000000 := rfl

theorem threeQuarter_eq : threeQuarter = 0xC000000000000000 := rfl

section Cases

variable {low high : Nat}

theorem rnuCase_eq_e1_iff : rnuCase low high = .e1 ↔ high < half := by
  unfold rnuCase
  split_ifs <;> simp only [true_iff, false_iff] <;> assumption

/-- E1 is tested first; `low ≤ high` makes the order of testing immaterial. -/
theorem rnuCase_eq_e2_iff (hle : low ≤ high) : rnuCase low high = .e2 ↔ half ≤ low := by
  unfold rnuCase
  split_ifs <;> simp only [true_iff, false_iff] <;> omega

theorem rnuCase_eq_e3_iff :
    rnuCase low high = .e3 ↔ low < half ∧ half ≤ high ∧ quarter ≤ low ∧ high < threeQuarter := by
  unfold rnuCase
  split_ifs <;> simp only [true_iff, false_iff] <;> omega

theorem rnuCase_eq_stop_iff :
    rnuCase low high = .stop ↔ half ≤ high ∧ low < half ∧ ¬ (quarter ≤ low ∧ high < threeQuarter) := by
  unfold rnuCase
  split_ifs <;> simp only [true_iff, false_iff] <;> omega

end Cases

/-- Settles O42: each case by its own equivalence. -/
theorem rnuCasesAreExclusive : Obligations.RnuCasesAreExclusive := by
  unfold Obligations.RnuCasesAreExclusive
  intro low high hle
  refine ⟨rnuCase_eq_e1_iff, rnuCase_eq_e2_iff hle, rnuCase_eq_e3_iff, ?_, rfl, half_eq, quarter_eq, half_eq, quarter_eq,
    threeQuarter_eq, rfl⟩
  rw [rnuCase_eq_stop_iff, half_eq, quarter_eq, threeQuarter_eq, not_lt, not_le]

/-! ### One step of the interval -/

/-- No step underflows or leaves the 64 bits (R192), so it doubles the range exactly (R197). -/
theorem rnuCase_step_doubles {low high : Nat} (hle : low ≤ high) (hmax : high ≤ maxV) (hc : rnuCase low high ≠ .stop) :
    stepLow (rnuCase low high) low ≤ stepHigh (rnuCase low high) high ∧
    stepHigh (rnuCase low high) high ≤ maxV ∧
    stepHigh (rnuCase low high) high + 1 - stepLow (rnuCase low high) low = 2 * (high + 1 - low) := by
  cases hcase : rnuCase low high with
  | e1 =>
    have hhigh := rnuCase_eq_e1_iff.mp hcase
    simp only [stepLow, stepHigh, rnuOff, maxV, half] at *
    omega
  | e2 =>
    have hlow := (rnuCase_eq_e2_iff hle).mp hcase
    simp only [stepLow, stepHigh, rnuOff, maxV, half] at *
    omega
  | e3 =>
    obtain ⟨hlow, hhigh, hquarter, hthree⟩ := rnuCase_eq_e3_iff.mp hcase
    simp only [stepLow, stepHigh, rnuOff, maxV, half, quarter, threeQuarter] at *
    omega
  | stop => exact absurd hcase hc

/-- `n` doublings take the range of the 64-bit interval above `HALF`: the loops need at most `n` steps from it (R197). -/
structure EnoughSteps (n low high : Nat) : Prop where
  ordered : low ≤ high
  bounded : high ≤ maxV
  exceeds : half < 2 ^ n * (high + 1 - low)

/-- A range of one point takes 64 steps. -/
theorem enoughSteps_sixtyFour {low high : Nat} (hle : low ≤ high) (hmax : high ≤ maxV) : EnoughSteps 64 low high :=
  ⟨hle, hmax, by rw [half_eq]; omega⟩

/-- A range above `HALF` straddles `HALF` and is not inside the middle half. -/
theorem EnoughSteps.rnuCase_eq_stop {low high : Nat} (h : EnoughSteps 0 low high) : rnuCase low high = .stop := by
  obtain ⟨hle, hmax, hrange⟩ := h
  rw [rnuCase_eq_stop_iff]
  simp only [half, maxV, quarter, threeQuarter] at *
  omega

theorem EnoughSteps.step {n low high : Nat} (h : EnoughSteps (n + 1) low high) (hc : rnuCase low high ≠ .stop) :
    EnoughSteps n (stepLow (rnuCase low high) low) (stepHigh (rnuCase low high) high) := by
  obtain ⟨hle, hmax, hdouble⟩ := rnuCase_step_doubles h.ordered h.bounded hc
  refine ⟨hle, hmax, ?_⟩
  rw [hdouble, ← mul_assoc, ← pow_succ]
  exact h.exceeds

/-! ### The encoder loop -/

section Encoder

variable {low high : Nat}

theorem rnuEncLoop_of_stop (n p : Nat) (hc : rnuCase low high = .stop) :
    rnuEncLoop n low high p = { low := low, high := high, pending := p, bits := [] } := by
  cases n with
  | zero => rfl
  | succ n => simp only [rnuEncLoop, hc]

theorem rnuEncLoop_succ_of_ne_stop (n p : Nat) (hc : rnuCase low high ≠ .stop) :
    rnuEncLoop (n + 1) low high p =
      let r := rnuEncLoop n (stepLow (rnuCase low high) low) (stepHigh (rnuCase low high) high)
        (stepPending (rnuCase low high) p)
      { r with bits := stepBits (rnuCase low high) p ++ r.bits } := by
  cases hcase : rnuCase low high with
  | stop => exact absurd hcase hc
  | _ => simp only [rnuEncLoop, hcase]

/-- A step that emits no bit (E3) leaves the result of the rest of the loop as it is. -/
theorem withBits_nil_append (r : RnuEnc) : { r with bits := [] ++ r.bits } = r := by
  cases r; rfl

/-- Steps beyond those that suffice change nothing. -/
theorem EnoughSteps.rnuEncLoop_succ {n : Nat} (h : EnoughSteps n low high) (p : Nat) :
    rnuEncLoop (n + 1) low high p = rnuEncLoop n low high p := by
  induction n generalizing low high p with
  | zero => rw [rnuEncLoop_of_stop _ _ h.rnuCase_eq_stop, rnuEncLoop_of_stop _ _ h.rnuCase_eq_stop]
  | succ n ih =>
    by_cases hc : rnuCase low high = .stop
    · rw [rnuEncLoop_of_stop _ _ hc, rnuEncLoop_of_stop _ _ hc]
    · rw [rnuEncLoop_succ_of_ne_stop _ _ hc, rnuEncLoop_succ_of_ne_stop _ _ hc, ih (h.step hc)]

/-- One turn of R195: R193 and R192 in the case of the interval, then the call from the new interval. -/
theorem rnuEnc_of_step {step : RnuCase} (hle : low ≤ high) (hmax : high ≤ maxV) (hcase : rnuCase low high = step)
    (hstep : step ≠ .stop) (p : Nat) :
    rnuEnc low high p =
      let r := rnuEnc (stepLow step low) (stepHigh step high) (stepPending step p)
      { r with bits := stepBits step p ++ r.bits } := by
  subst hcase
  have henough := (enoughSteps_sixtyFour hle hmax).step hstep
  unfold rnuEnc
  rw [rnuEncLoop_succ_of_ne_stop _ _ hstep, henough.rnuEncLoop_succ]

end Encoder

/-! ### The decoder loop -/

section Decoder

variable {low high : Nat} (ibuf : List Byte)

theorem rnuDecLoop_of_stop (n v c : Nat) (hc : rnuCase low high = .stop) :
    rnuDecLoop ibuf n low high v c = { low := low, high := high, value := v, cur := c } := by
  cases n with
  | zero => rfl
  | succ n => simp only [rnuDecLoop, hc]

theorem rnuDecLoop_succ_of_ne_stop (n v c : Nat) (hc : rnuCase low high ≠ .stop) :
    rnuDecLoop ibuf (n + 1) low high v c =
      rnuDecLoop ibuf n (stepLow (rnuCase low high) low) (stepHigh (rnuCase low high) high)
        (stepValue (rnuCase low high) v (abit ibuf c)) (c + 1) := by
  cases hcase : rnuCase low high with
  | stop => exact absurd hcase hc
  | _ => simp only [rnuDecLoop, hcase]

/-- Steps beyond those that suffice change nothing. -/
theorem EnoughSteps.rnuDecLoop_succ {n : Nat} (h : EnoughSteps n low high) (v c : Nat) :
    rnuDecLoop ibuf (n + 1) low high v c = rnuDecLoop ibuf n low high v c := by
  induction n generalizing low high v c with
  | zero => rw [rnuDecLoop_of_stop _ _ _ _ h.rnuCase_eq_stop, rnuDecLoop_of_stop _ _ _ _ h.rnuCase_eq_stop]
  | succ n ih =>
    by_cases hc : rnuCase low high = .stop
    · rw [rnuDecLoop_of_stop _ _ _ _ hc, rnuDecLoop_of_stop _ _ _ _ hc]
    · rw [rnuDecLoop_succ_of_ne_stop _ _ _ _ hc, rnuDecLoop_succ_of_ne_stop _ _ _ _ hc, ih (h.step hc)]

/-- One turn of R196: R194 and R192 in the case of the interval, then the call from the new interval. -/
theorem rnuDec_of_step {step : RnuCase} (hle : low ≤ high) (hmax : high ≤ maxV) (hcase : rnuCase low high = step)
    (hstep : step ≠ .stop) (v c : Nat) :
    rnuDec ibuf low high v c =
      rnuDec ibuf (stepLow step low) (stepHigh step high) (stepValue step v (abit ibuf c)) (c + 1) := by
  subst hcase
  have henough := (enoughSteps_sixtyFour hle hmax).step hstep
  unfold rnuDec
  rw [rnuDecLoop_succ_of_ne_stop _ _ _ _ hstep, henough.rnuDecLoop_succ]

end Decoder

/-- Settles O43: one turn of each loop, read off at the case of the interval. -/
theorem rnuLoopsTakeTheSteps : Obligations.RnuLoopsTakeTheSteps := by
  unfold Obligations.RnuLoopsTakeTheSteps
  intro low high hle hmax
  refine ⟨fun hstop => ?stop, fun he1 => ?e1, fun he2 => ?e2, fun he3 => ?e3⟩
  case stop => exact ⟨fun p => rnuEncLoop_of_stop 64 p hstop, fun ibuf v c => rnuDecLoop_of_stop ibuf 64 v c hstop⟩
  case e1 =>
    exact ⟨fun p => rnuEnc_of_step hle hmax he1 nofun p, fun ibuf v c => rnuDec_of_step ibuf hle hmax he1 nofun v c⟩
  case e2 =>
    exact ⟨fun p => rnuEnc_of_step hle hmax he2 nofun p, fun ibuf v c => rnuDec_of_step ibuf hle hmax he2 nofun v c⟩
  case e3 =>
    exact ⟨fun p => (rnuEnc_of_step hle hmax he3 nofun p).trans (withBits_nil_append _),
      fun ibuf v c => rnuDec_of_step ibuf hle hmax he3 nofun v c⟩

end Sys2Proof.Proofs

/-! SUPPORT. How every command is processed (40_block_control.md R100, 60_exceptions.md R228 to R231): the checks, what
a command can do past them, and from both the ways in which it ends: refused, answered without touching an engine with a
fault latched, or a fault taken by its own engine. -/

namespace Sys2Proof.Proofs

open Sys2Proof.Machine Sys2Proof.Statements Sys2Proof.Laws

/-! ### What a command does past its checks -/

/-- What a command of an engine can do once its checks have passed: answer with that engine in another state, take a
fault (R229), or stop where no rule has a result (log 7, log 8). -/
inductive Works : Engine → State → Result → Prop
  | huf {s : State} (h : HufState) (v : Word) : Works .huf s (answer (s.setHuf h) v)
  | ac {s : State} (c : AcState) (v : Word) : Works .ac s (answer (s.setAc c) v)
  | raises {e : Engine} {s : State} (code : Status) (hcode : isFaultStatus code = true) : Works e s (raiseFault e s code)
  | stops {e : Engine} {s : State} (f : Fault) : Works e s (.fault f)

/-- The result of a command of engine `e` with the operand check `operandsOk`: the common checks, then the work. -/
def Gated (e : Engine) (operandsOk : Bool) (s : State) (r : Result) : Prop :=
  ∃ modeOk k, r = engineCommand e operandsOk modeOk s k ∧ Works e s k

section Commands

variable (a : Byte) (d : Word) (s : State)

theorem execHufCount_gated : Gated .huf (usesByte d) s (execHufCount a d s) := by
  refine ⟨_, _, rfl, ?_⟩
  split
  · exact .raises .counterOverflow rfl
  · exact .huf _ _

theorem execHufBuild_gated : Gated .huf (usesNone a d) s (execHufBuild a d s) := by
  refine ⟨_, _, rfl, ?_⟩
  split
  · exact .raises .corruptHuffmanTree rfl
  · exact .huf _ _

theorem execHufGencodes_gated : Gated .huf (usesNone a d) s (execHufGencodes a d s) := by
  refine ⟨_, _, rfl, ?_⟩
  split
  · exact .stops .brokenHufState
  · exact .huf _ _

theorem execHufEncSym_gated : Gated .huf (usesByte d) s (execHufEncSym a d s) := by
  refine ⟨_, _, rfl, ?_⟩
  split
  · exact .raises .symbolNotFound rfl
  · split
    · exact .raises .bufferFull rfl
    · exact .huf _ _

theorem execHufEncEnd_gated : Gated .huf (usesNone a d) s (execHufEncEnd a d s) := by
  refine ⟨_, _, rfl, ?_⟩
  dsimp only
  split
  · exact .raises .bufferFull rfl
  · split
    · exact .raises .bufferFull rfl
    · exact .huf _ _

theorem execHufInByte_gated : Gated .huf (usesByte d) s (execHufInByte a d s) := by
  refine ⟨_, _, rfl, ?_⟩
  split
  · exact .raises .bufferFull rfl
  · exact .huf _ _

theorem execHufDecBegin_gated : Gated .huf (usesNone a d) s (execHufDecBegin a d s) := by
  refine ⟨_, _, rfl, ?_⟩
  split
  · exact .raises .invalidArchive rfl
  · exact .huf _ _

/-- The end marker is answered with the engine as it is. -/
theorem execHufDecSym_gated : Gated .huf (usesNone a d) s (execHufDecSym a d s) := by
  refine ⟨_, _, rfl, ?_⟩
  split
  · exact .huf s.huf endMarker
  · split
    · exact .stops .brokenHufState
    · split
      · exact .stops .brokenHufState
      · exact .raises .invalidArchive rfl
      · split
        · exact .raises .bufferFull rfl
        · exact .huf _ _

theorem execHufDecAll_gated : Gated .huf (usesNone a d) s (execHufDecAll a d s) := by
  refine ⟨_, _, rfl, ?_⟩
  split
  · exact .stops .brokenHufState
  · exact .raises .invalidArchive rfl
  · split
    · exact .raises .bufferFull rfl
    · exact .huf _ _

theorem execAcInc_gated : Gated .ac (usesByte d) s (execAcInc a d s) := by
  refine ⟨_, _, rfl, ?_⟩
  split
  · exact .raises .counterOverflow rfl
  · exact .ac _ _

theorem execAcEncInit_gated : Gated .ac (usesNone a d) s (execAcEncInit a d s) := by
  refine ⟨_, _, rfl, ?_⟩
  split
  · exact .raises .bufferFull rfl
  · exact .ac _ _

theorem execAcEncSym_gated : Gated .ac (usesByte d) s (execAcEncSym a d s) := by
  refine ⟨_, _, rfl, ?_⟩
  dsimp only
  split
  · exact .raises .badModel rfl
  · split
    · exact .raises .counterOverflow rfl
    · split
      · exact .stops .brokenAcState
      · split
        · exact .raises .counterOverflow rfl
        · split
          · exact .raises .bufferFull rfl
          · exact .ac _ _

theorem execAcEncFinish_gated : Gated .ac (usesNone a d) s (execAcEncFinish a d s) := by
  refine ⟨_, _, rfl, ?_⟩
  split
  · exact .stops .brokenAcState
  · split
    · exact .raises .bufferFull rfl
    · split
      · exact .raises .bufferFull rfl
      · exact .ac _ _

theorem execAcInByte_gated : Gated .ac (usesByte d) s (execAcInByte a d s) := by
  refine ⟨_, _, rfl, ?_⟩
  split
  · exact .raises .bufferFull rfl
  · exact .ac _ _

theorem execAcDecInit_gated : Gated .ac (usesNone a d) s (execAcDecInit a d s) := by
  refine ⟨_, _, rfl, ?_⟩
  split
  · exact .raises .invalidArchive rfl
  · exact .ac _ _

/-- The end marker is answered with the engine as it is. -/
theorem execAcDecSym_gated : Gated .ac (usesNone a d) s (execAcDecSym a d s) := by
  refine ⟨_, _, rfl, ?_⟩
  dsimp only
  split
  · exact .ac s.ac endMarker
  · split
    · exact .raises .badModel rfl
    · split
      · exact .stops .brokenAcState
      · split
        · exact .raises .decodeDesync rfl
        · split
          · exact .raises .decodeDesync rfl
          · split
            · exact .stops .brokenAcState
            · split
              · exact .raises .counterOverflow rfl
              · exact .ac _ _

end Commands

/-! ### How each command is processed -/

/-- The high half of the opcode of every command is its family's number (30_encoding.md R84). -/
theorem opcode_high_eq_unit (i : Instr) : (opcode i).extractLsb' 4 4 = UnitOfOpcode.unit i := by
  cases i <;> simp [opcode, UnitOfOpcode.unit]

theorem unitOf_eq_huf {i : Instr} (h : UnitOfOpcode.unit i = 1) : unitOf i = some .huf :=
  if_pos ((opcode_high_eq_unit i).trans h)

theorem unitOf_eq_ac {i : Instr} (h : UnitOfOpcode.unit i = 2) : unitOf i = some .ac := by
  rw [unitOf, opcode_high_eq_unit, h]; rfl

theorem unitOf_eq_none {i : Instr} (h : UnitOfOpcode.unit i = 0) : unitOf i = none := by
  rw [unitOf, opcode_high_eq_unit, h]; rfl

/-- An engine with a fault latched in `s` is in `t` as it was, unless command `i` is a reset that gave it its reset
values (60_exceptions.md R230). -/
structure RespectsLatches (i : Instr) (s t : State) : Prop where
  huf : s.huf.fault ≠ 0 → t.huf = s.huf ∨ (isReset i = true ∧ t.huf = HufState.reset)
  ac : s.ac.fault ≠ 0 → t.ac = s.ac ∨ (isReset i = true ∧ t.ac = AcState.reset)

theorem RespectsLatches.refl (i : Instr) (s : State) : RespectsLatches i s s := ⟨fun _ => .inl rfl, fun _ => .inl rfl⟩

/-- The response is no part of an engine. -/
theorem RespectsLatches.replied {i : Instr} {s t : State} (h : RespectsLatches i s t) (code : Status) (v : Word) :
    RespectsLatches i s (replied t code v) := ⟨h.huf, h.ac⟩

/-- The four ways in which the block processes a command (R231): a command of an engine, with all checks; `NOP` and the
resets, with the operand check only; the two reads, which check their selector. -/
inductive Processing (s : State) : Instr → Prop
  | engine {i : Instr} {e : Engine} (hunit : unitOf i = some e) (hexec : Gated e i.wellFormed s (exec i s)) :
      Processing s i
  | block {i : Instr} {t : State} (hexec : exec i s = checkOperands i.wellFormed s (answer t 0))
      (hunit : unitOf i = none ∨ isReset i = true) (hlatches : RespectsLatches i s t) : Processing s i
  | hufRd (a : Byte) (d : Word) : Processing s (.hufRd a d)
  | acRd (a : Byte) (d : Word) : Processing s (.acRd a d)

/-- The opcode map, command by command. -/
theorem processing (i : Instr) (s : State) : Processing s i := by
  cases i with
  | nop a d => exact .block rfl (.inl (unitOf_eq_none rfl)) (.refl _ s)
  | resetAll a d => exact .block rfl (.inr rfl) ⟨fun _ => .inr ⟨rfl, rfl⟩, fun _ => .inr ⟨rfl, rfl⟩⟩
  | hufReset a d => exact .block rfl (.inr rfl) ⟨fun _ => .inr ⟨rfl, rfl⟩, fun _ => .inl rfl⟩
  | acReset a d => exact .block rfl (.inr rfl) ⟨fun _ => .inl rfl, fun _ => .inr ⟨rfl, rfl⟩⟩
  | hufRd a d => exact .hufRd a d
  | acRd a d => exact .acRd a d
  | hufCount a d => exact .engine (unitOf_eq_huf rfl) (execHufCount_gated a d s)
  | hufBuild a d => exact .engine (unitOf_eq_huf rfl) (execHufBuild_gated a d s)
  | hufGencodes a d => exact .engine (unitOf_eq_huf rfl) (execHufGencodes_gated a d s)
  | hufEncSym a d => exact .engine (unitOf_eq_huf rfl) (execHufEncSym_gated a d s)
  | hufEncEnd a d => exact .engine (unitOf_eq_huf rfl) (execHufEncEnd_gated a d s)
  | hufInByte a d => exact .engine (unitOf_eq_huf rfl) (execHufInByte_gated a d s)
  | hufDecBegin a d => exact .engine (unitOf_eq_huf rfl) (execHufDecBegin_gated a d s)
  | hufDecSym a d => exact .engine (unitOf_eq_huf rfl) (execHufDecSym_gated a d s)
  | hufDecAll a d => exact .engine (unitOf_eq_huf rfl) (execHufDecAll_gated a d s)
  | acInc a d => exact .engine (unitOf_eq_ac rfl) (execAcInc_gated a d s)
  | acEncInit a d => exact .engine (unitOf_eq_ac rfl) (execAcEncInit_gated a d s)
  | acEncSym a d => exact .engine (unitOf_eq_ac rfl) (execAcEncSym_gated a d s)
  | acEncFinish a d => exact .engine (unitOf_eq_ac rfl) (execAcEncFinish_gated a d s)
  | acInByte a d => exact .engine (unitOf_eq_ac rfl) (execAcInByte_gated a d s)
  | acDecInit a d => exact .engine (unitOf_eq_ac rfl) (execAcDecInit_gated a d s)
  | acDecSym a d => exact .engine (unitOf_eq_ac rfl) (execAcDecSym_gated a d s)
  | hufSetfreq | hufEncBegin | hufInClear | hufDecEnd => exact .engine (unitOf_eq_huf rfl) ⟨_, _, rfl, .huf _ _⟩
  | acModelInit | acSetcnt | acSettotal | acInClear | acDecEnd => exact .engine (unitOf_eq_ac rfl) ⟨_, _, rfl, .ac _ _⟩

/-! ### How a command ends -/

/-- The ways in which a command ends: refused (R228), answered without touching an engine with a fault latched, a fault
taken by its own engine, which had none latched (R229), or stopped where no rule has a result. -/
inductive Ending (i : Instr) (s : State) : Result → Prop
  | refuses (code : Status) (hcode : isRefusalStatus code = true) : Ending i s (refuse s code)
  | answers {t : State} (v : Word) (hlatches : RespectsLatches i s t) : Ending i s (answer t v)
  | raises {e : Engine} (code : Status) (hcode : isFaultStatus code = true) (hunit : unitOf i = some e)
      (hlatch : faultLatch e s = 0) : Ending i s (raiseFault e s code)
  | stops (f : Fault) : Ending i s (.fault f)

/-- The work of an engine leaves the other engine alone, and starts only where its own has no fault latched. -/
theorem Works.ending {i : Instr} {e : Engine} {s : State} {r : Result} (h : Works e s r) (hunit : unitOf i = some e)
    (hlatch : faultLatch e s = 0) : Ending i s r := by
  cases h with
  | huf h v => exact .answers v ⟨fun hfault => absurd hlatch hfault, fun _ => .inl rfl⟩
  | ac c v => exact .answers v ⟨fun _ => .inl rfl, fun hfault => absurd hlatch hfault⟩
  | raises code hcode => exact .raises code hcode hunit hlatch
  | stops f => exact .stops f

/-- The two reads are refused or answer; they change no engine (R158, R218). -/
theorem exec_hufRd_ending (a : Byte) (d : Word) (s : State) : Ending (.hufRd a d) s (exec (.hufRd a d) s) := by
  change Ending _ s (execHufRd a d s)
  unfold execHufRd
  split
  · exact .refuses .badOperand rfl
  · split_ifs
    · exact .refuses .faulted rfl
    · exact .refuses .sequenceError rfl
    · exact .refuses .badOperand rfl
    · exact .answers _ (.refl _ s)

theorem exec_acRd_ending (a : Byte) (d : Word) (s : State) : Ending (.acRd a d) s (exec (.acRd a d) s) := by
  change Ending _ s (execAcRd a d s)
  unfold execAcRd
  split
  · exact .refuses .badOperand rfl
  · split_ifs
    · exact .refuses .faulted rfl
    · exact .refuses .sequenceError rfl
    · exact .refuses .badOperand rfl
    · exact .answers _ (.refl _ s)

/-- Every command, in every state, ends in one of these ways. -/
theorem exec_ending (i : Instr) (s : State) : Ending i s (exec i s) := by
  cases processing i s with
  | hufRd a d => exact exec_hufRd_ending a d s
  | acRd a d => exact exec_acRd_ending a d s
  | block hexec _ hlatches =>
    rw [hexec]
    obtain ⟨-, hpass⟩ | ⟨-, hrefused⟩ := checkOperands_cases i.wellFormed s (answer _ 0)
    · rw [hpass]; exact .answers 0 hlatches
    · rw [hrefused]; exact .refuses .badOperand rfl
  | @engine _ e hunit hexec =>
    obtain ⟨modeOk, k, hexec, hworks⟩ := hexec
    rw [hexec]
    obtain ⟨-, hlatch, -, hpass⟩ | ⟨-, hrefused⟩ | ⟨-, -, hrefused⟩ | ⟨-, -, -, hrefused⟩ :=
      engineCommand_cases e i.wellFormed modeOk s k
    · rw [hpass]; exact hworks.ending hunit hlatch
    · rw [hrefused]; exact .refuses .badOperand rfl
    · rw [hrefused]; exact .refuses .faulted rfl
    · rw [hrefused]; exact .refuses .sequenceError rfl

/-- Everything that a command which ends in a next state can have done. -/
theorem exec_next_cases {i : Instr} {s t : State} (h : exec i s = .next t) :
    (∃ code, isRefusalStatus code = true ∧ t = replied s code 0) ∨
    (∃ u v, RespectsLatches i s u ∧ t = replied u .ok v) ∨
    ∃ e code, isFaultStatus code = true ∧ unitOf i = some e ∧ faultLatch e s = 0 ∧ raiseFault e s code = .next t := by
  have hend := exec_ending i s
  generalize exec i s = r at hend h
  cases hend with
  | refuses code hcode => exact .inl ⟨code, hcode, (Host.Outcome.next.inj h).symm⟩
  | answers v hlatches => exact .inr (.inl ⟨_, v, hlatches, (Host.Outcome.next.inj h).symm⟩)
  | raises code hcode hunit hlatch => exact .inr (.inr ⟨_, code, hcode, hunit, hlatch, h⟩)
  | stops f => exact absurd h nofun

/-! ### Refusals and faults -/

/-- The response that a reply adds is the newest one. -/
theorem eq_of_replied_responses {u : State} {r : Response} {code : Status} {v : Word} {rs : List Response}
    (h : (replied u code v).responses = r :: rs) : r = ⟨code, v⟩ :=
  (List.cons.inj h).1.symm

/-- A fault answers its own code and no result. -/
theorem eq_of_raiseFault_responses {e : Engine} {s t : State} {r : Response} {code : Status} {rs : List Response}
    (h : raiseFault e s code = .next t) (hr : t.responses = r :: rs) : r = ⟨code, 0⟩ := by
  obtain ⟨hresponses, -⟩ := raiseFault_frame h
  exact (List.cons.inj (hresponses.symm.trans hr)).1.symm

/-- The kinds of R226 are disjoint. -/
theorem isRefusalStatus_eq_false_of_fault {st : Status} (h : isFaultStatus st = true) : isRefusalStatus st = false := by
  cases st with
  | ok | illegalCommand | badOperand | sequenceError | faulted => exact absurd h nofun
  | _ => rfl

/-- The codes of the faults are not 0, so taking one asserts the engine's output (60_exceptions.md R234). -/
theorem statusCode_ne_zero_of_fault {st : Status} (h : isFaultStatus st = true) : statusCode st ≠ 0 := by
  cases st with
  | ok | illegalCommand | badOperand | sequenceError | faulted => exact absurd h nofun
  | _ => decide

/-- Settles O11: of the ways to end, only a refusal answers a refusal's status. -/
theorem refusalChangesNothing : Obligations.RefusalChangesNothing := by
  intro i s t r hexec hr hrefusal
  obtain ⟨code, -, rfl⟩ | ⟨u, v, -, rfl⟩ | ⟨e, code, hcode, -, -, hraise⟩ := exec_next_cases hexec
  · obtain rfl := eq_of_replied_responses hr
    rfl
  · obtain rfl := eq_of_replied_responses hr
    exact absurd hrefusal nofun
  · obtain rfl := eq_of_raiseFault_responses hraise hr
    exact absurd hrefusal (Bool.eq_false_iff.mp (isRefusalStatus_eq_false_of_fault hcode))

/-- Settles O12: of the ways to end, only taking a fault answers a fault's status. -/
theorem faultOnlyLatchesItsCode : Obligations.FaultOnlyLatchesItsCode := by
  intro i s t r hexec hr hfault
  obtain ⟨code, hcode, rfl⟩ | ⟨u, v, -, rfl⟩ | ⟨e, code, hcode, hunit, hlatch, hraise⟩ := exec_next_cases hexec
  · obtain rfl := eq_of_replied_responses hr
    exact absurd hcode (Bool.eq_false_iff.mp (isRefusalStatus_eq_false_of_fault hfault))
  · obtain rfl := eq_of_replied_responses hr
    exact absurd hfault nofun
  · obtain rfl := eq_of_raiseFault_responses hraise hr
    have hasserted : (statusCode code != 0) = true := bne_iff_ne.mpr (statusCode_ne_zero_of_fault hcode)
    cases e with
    | huf =>
      obtain rfl := Host.Outcome.next.inj hraise
      exact .inl ⟨hunit, hlatch, rfl, hasserted⟩
    | ac =>
      obtain rfl := Host.Outcome.next.inj hraise
      exact .inr ⟨hunit, hlatch, rfl, hasserted⟩

/-! ### A latched fault -/

/-- Step 4 of R231 comes before the mode and the work. -/
theorem Gated.eq_faulted {e : Engine} {s : State} {r : Result} (h : Gated e true s r) (hlatch : faultLatch e s ≠ 0) :
    r = .next (replied s .faulted 0) := by
  obtain ⟨modeOk, k, rfl, -⟩ := h
  obtain ⟨-, hzero, -⟩ | ⟨hoperands, -⟩ | ⟨-, -, hrefused⟩ | ⟨-, hzero, -⟩ := engineCommand_cases e true modeOk s k
  · exact absurd hzero hlatch
  · exact absurd hoperands nofun
  · exact hrefused
  · exact absurd hzero hlatch

theorem exec_hufRd_faulted {s : State} {sel : HufSel} (d : Word) (hlatch : s.huf.fault ≠ 0) (hsel : sel ≠ .status) :
    exec (.hufRd (hufSelCode sel) d) s = .next (replied s .faulted 0) := by
  have hblocked : (sel != .status && faultLatch .huf s != 0) = true :=
    (Bool.and_eq_true _ _).mpr ⟨bne_iff_ne.mpr hsel, bne_iff_ne.mpr hlatch⟩
  change execHufRd (hufSelCode sel) d s = _
  rw [execHufRd, hufSel_hufSelCode]
  exact if_pos hblocked

theorem exec_acRd_faulted {s : State} {sel : AcSel} (d : Word) (hlatch : s.ac.fault ≠ 0) (hsel : sel ≠ .status) :
    exec (.acRd (acSelCode sel) d) s = .next (replied s .faulted 0) := by
  have hblocked : (sel != .status && faultLatch .ac s != 0) = true :=
    (Bool.and_eq_true _ _).mpr ⟨bne_iff_ne.mpr hsel, bne_iff_ne.mpr hlatch⟩
  change execAcRd (acSelCode sel) d s = _
  rw [execAcRd, acSel_acSelCode]
  exact if_pos hblocked

/-- A command of an engine with a fault latched is refused with `Faulted`, unless it is the engine's reset or its
`STATUS` read (R230). -/
theorem exec_eq_faulted {i : Instr} {e : Engine} {s : State} (hlatch : faultLatch e s ≠ 0) (hunit : unitOf i = some e)
    (hoperands : i.wellFormed = true) (hreset : isReset i = false) (hstatus : isStatusRead i = false) :
    exec i s = .next (replied s .faulted 0) := by
  cases processing i s with
  | engine hunit' hgated =>
    obtain rfl := Option.some.inj (hunit'.symm.trans hunit)
    rw [hoperands] at hgated
    exact hgated.eq_faulted hlatch
  | block _ hblock _ =>
    obtain hnone | hisReset := hblock
    · exact absurd (hnone.symm.trans hunit) nofun
    · exact absurd (hisReset.symm.trans hreset) nofun
  | hufRd a d =>
    obtain rfl := Option.some.inj ((unitOf_eq_huf rfl).symm.trans hunit)
    obtain ⟨sel, rfl⟩ := exists_hufSelCode_eq (of_decide_eq_true hoperands)
    exact exec_hufRd_faulted d hlatch fun hsel => beq_eq_false_iff_ne.mp hstatus (hufSelCode_eq_zero.mpr hsel)
  | acRd a d =>
    obtain rfl := Option.some.inj ((unitOf_eq_ac rfl).symm.trans hunit)
    obtain ⟨sel, rfl⟩ := exists_acSelCode_eq (of_decide_eq_true hoperands)
    exact exec_acRd_faulted d hlatch fun hsel => beq_eq_false_iff_ne.mp hstatus (acSelCode_eq_zero.mpr hsel)

/-- Taking a fault writes no latch that is set (R229). -/
theorem raiseFault_respectsLatches (i : Instr) {e : Engine} {s t : State} {code : Status} (hlatch : faultLatch e s = 0)
    (h : raiseFault e s code = .next t) : RespectsLatches i s t := by
  obtain ⟨-, -, -, -, hhuf, hac⟩ := raiseFault_frame h
  cases e with
  | huf => exact ⟨fun hfault => absurd hlatch hfault, fun _ => .inl hac⟩
  | ac => exact ⟨fun _ => .inl hhuf, fun hfault => absurd hlatch hfault⟩

theorem exec_respectsLatches {i : Instr} {s t : State} (h : exec i s = .next t) : RespectsLatches i s t := by
  obtain ⟨code, -, rfl⟩ | ⟨u, v, hlatches, rfl⟩ | ⟨e, code, -, -, hlatch, hraise⟩ := exec_next_cases h
  · exact (RespectsLatches.refl i s).replied code 0
  · exact hlatches.replied .ok v
  · exact raiseFault_respectsLatches i hlatch hraise

/-- The `STATUS` reads answer in every mode and with a fault latched (60_exceptions.md R230). -/
theorem exec_hufRd_status (s : State) : exec (.hufRd 0 0) s = .next (replied s .ok (hufStatusWord s.huf)) :=
  exec_hufRd_pass (sel := .status) 0 (.inr rfl) rfl

theorem exec_acRd_status (s : State) : exec (.acRd 0 0) s = .next (replied s .ok (acStatusWord s.ac)) :=
  exec_acRd_pass (sel := .status) 0 (.inr rfl) rfl

/-- Settles O14: the latch check refuses, the exceptions answer, and every command respects the latches. -/
theorem latchedFaultIsSticky : Obligations.LatchedFaultIsSticky := by
  intro i s
  refine ⟨exec_eq_faulted (e := .huf), exec_eq_faulted (e := .ac), ⟨_, exec_hufRd_status s⟩, ⟨_, exec_acRd_status s⟩,
    ⟨_, exec_hufReset_eq s, rfl⟩, ⟨_, exec_acReset_eq s, rfl⟩, ⟨_, _, exec_resetAll_eq s, rfl, rfl⟩,
    fun t hexec hfault => ?huf, fun t hexec hfault => ?ac⟩
  case huf =>
    obtain hsame | ⟨hreset, hvalues⟩ := (exec_respectsLatches hexec).huf hfault
    · exact .inl hsame
    · exact .inr ⟨hreset, hvalues ▸ hufIsReset_reset⟩
  case ac =>
    obtain hsame | ⟨hreset, hvalues⟩ := (exec_respectsLatches hexec).ac hfault
    · exact .inl hsame
    · exact .inr ⟨hreset, hvalues ▸ acIsReset_reset⟩

end Sys2Proof.Proofs

/-! SUPPORT. The decoder on encoded commands (30_encoding.md R80), and what a step does with each kind of event of the
port (40_block_control.md R100, 70_reset_and_hazards.md R251). -/

namespace Sys2Proof.Proofs

open Sys2Proof.Machine Sys2Proof.Statements

/-! ### Decoding an encoded command -/

/-- The fields of an encoded command are its opcode and its operands (R80). -/
theorem fields_encode (i : Instr) :
    wordOp (encode i) = opcode i ∧ wordA (encode i) = operandA i ∧ wordD (encode i) = operandD i := by
  refine ⟨?_, ?_, ?_⟩ <;> unfold encode
  · rw [wordOp, BitVec.extractLsb'_append_eq_of_le (by decide), BitVec.extractLsb'_append_eq_of_le (by decide)]
    exact BitVec.extractLsb'_eq_self
  · rw [wordA, BitVec.extractLsb'_append_eq_of_le (by decide), BitVec.extractLsb'_append_eq_of_add_le (by decide)]
    exact BitVec.extractLsb'_eq_self
  · rw [wordD, BitVec.extractLsb'_append_eq_of_add_le (by decide)]
    exact BitVec.extractLsb'_eq_self

/-- Settles O1: the decoder reads the opcode back, and its arm for that opcode is the command's. -/
theorem decodeInvertsEncode : Obligations.DecodeInvertsEncode := by
  intro i
  obtain ⟨hop, ha, hd⟩ := fields_encode i
  rw [decode, hop, ha, hd]
  cases i <;> rfl

/-- Settles O4: each word is decoded, and each line assembled, by evaluation. -/
theorem listedWordsDecode : Obligations.ListedWordsDecode := by
  refine ⟨rfl, rfl, rfl, rfl, rfl, rfl, rfl, rfl, rfl, rfl, rfl, rfl, rfl, rfl, rfl, rfl, rfl, rfl, rfl, rfl, rfl,
    rfl, rfl, rfl, rfl, rfl, rfl, rfl, rfl, rfl, rfl, ?lines⟩
  case lines => decide +kernel

/-- Settles O59: the codes and mode numbers are read off, and the two fields of a response word do not overlap. -/
theorem codesAndResponseLayout : Obligations.CodesAndResponseLayout := by
  refine ⟨rfl, rfl, rfl, rfl, rfl, rfl, rfl, rfl, rfl, rfl, rfl, rfl, rfl, ?fault, ?refusal, rfl, rfl, rfl, rfl, rfl,
    rfl, rfl, rfl, rfl, fun r => ⟨?status, ?res⟩⟩
  case fault => intro st; cases st <;> decide
  case refusal => intro st; cases st <;> decide
  case status =>
    rw [responseWord, BitVec.extractLsb'_append_eq_of_le (by decide)]
    exact BitVec.extractLsb'_eq_self
  case res =>
    rw [responseWord, BitVec.extractLsb'_append_eq_of_add_le (by decide)]
    exact BitVec.extractLsb'_eq_self

/-! ### Steps -/

/-- A step on a word that decodes takes the word from the port and is the command's meaning. -/
theorem step_of_decode_eq_ok {s : State} {w : CmdWord} {rest : List HostEvent} {i : Instr}
    (hport : s.port = .command w :: rest) (hdec : decode w = .ok i) : step s = exec i { s with port := rest } := by
  have htake : takeEvent s = some (.command w, { s with port := rest }) := takeEvent_eq_some.mpr ⟨rest, hport, rfl⟩
  simp only [step, htake, hdec]

theorem step_of_port_nil {s : State} (hport : s.port = []) : step s = .next s := by
  simp only [step, takeEvent_eq_none.mpr hport]

theorem step_of_hardwareReset {s : State} {rest : List HostEvent} (hport : s.port = .hardwareReset :: rest) :
    step s = .next (hardwareReset { s with port := rest }) := by
  have htake : takeEvent s = some (.hardwareReset, { s with port := rest }) := takeEvent_eq_some.mpr ⟨rest, hport, rfl⟩
  simp only [step, htake]

/-- Settles O5: the two forms in which a command word stands first at the port. -/
theorem stepProcessesTheCommand : Obligations.StepProcessesTheCommand := by
  refine ⟨fun s w rest i => step_of_decode_eq_ok, fun s w i hdec => ?_⟩
  have hword : BitVec.ofNat 80 (w % 2 ^ 80) = BitVec.ofNat 80 w := by
    apply BitVec.eq_of_toNat_eq
    rw [BitVec.toNat_ofNat, BitVec.toNat_ofNat, Nat.mod_mod]
  have hport : (s.withFetchWord 80 w).port = .command (BitVec.ofNat 80 w) :: s.port := by
    rw [State.withFetchWord, presentCommand_port, hword]
  exact step_of_decode_eq_ok hport hdec

/-- Settles O6: idling, and the reset values of R48 for hardware reset. -/
theorem idleAndHardwareResetSteps : Obligations.IdleAndHardwareResetSteps := by
  refine ⟨fun s => step_of_port_nil, fun s rest hport => ?_⟩
  exact ⟨HufState.reset, AcState.reset, step_of_hardwareReset hport, hufIsReset_reset, acIsReset_reset⟩

/-- Settles O8: `NOP` has the operand check only. -/
theorem nopAnswersAndChangesNothing : Obligations.NopAnswersAndChangesNothing := by
  intro a d s
  have hiff : usesNone a d = true ↔ a = 0 ∧ d = 0 := by simp [usesNone]
  obtain ⟨hok, hexec⟩ | ⟨hbad, hexec⟩ := checkOperands_cases (usesNone a d) s (answer s 0)
  · exact ⟨fun _ => hexec, fun h => absurd (hiff.mp hok) h⟩
  · exact ⟨fun h => absurd (hiff.mpr h) (Bool.eq_false_iff.mp hbad), fun _ => hexec⟩

end Sys2Proof.Proofs

/-! SUPPORT. What every command of an engine does past its checks, command by command: the engine that it leaves where it
answers, and where it has no result (sections 41 to 47 of the spec). The mode check of a command is its row of the mode
tables of 70_reset_and_hazards.md section 2. -/

namespace Sys2Proof.Proofs

open Sys2Proof.Machine Sys2Proof.Statements Sys2Proof.Laws

/-! ### The engine after a command -/

/-- The Huffman engine `h'` that a command other than a reset or a read leaves where it answers `OK`, in a build `p` with
engine `h` before it. -/
def HufPost (p : Params) (h : HufState) : Instr → HufState → Prop
  | .hufCount a _, h' => h' = { h with freq := tableWrite h.freq a (tableRead h.freq a + 1) }
  | .hufSetfreq a d, h' => h' = { h with freq := tableWrite h.freq a (d.setWidth 32) }
  | .hufBuild _ _, h' => ∃ t, buildTree h.freq = some t ∧
      h' = { h with
        node := t.node, root := BitVec.ofNat 9 t.root, nint := BitVec.ofNat 8 (t.next - 256), mode := .tree }
  | .hufGencodes _ _, h' => ∃ t, genCodes h.node h.root = some t ∧ h' = { h with code := t, mode := .ready }
  | .hufEncBegin _ _, h' => h' = { h with obuf := [], pk := Packer.empty, mode := .enc }
  | .hufEncSym a _, h' => ∃ q, pushBits p.outCap { pk := h.pk, out := h.obuf } (codeOf h.code a) = some q ∧
      h' = { h with pk := q.pk, obuf := q.out }
  | .hufEncEnd _ _, h' => ∃ q out, flushPacker p.outCap { pk := h.pk, out := h.obuf } = some q ∧
      appendBytes p.outCap q.out [BitVec.ofNat 8 (padCount h.pk)] = some out ∧
      h' = { h with pk := q.pk, obuf := out, mode := .ready }
  | .hufInByte a _, h' => ∃ ibuf, appendBytes p.inCap h.ibuf [a] = some ibuf ∧ h' = { h with ibuf := ibuf }
  | .hufInClear _ _, h' => h' = { h with ibuf := [] }
  | .hufDecBegin _ _, h' => ∃ n, payloadBits h.ibuf = some n ∧
      h' = { h with nbits := count64 n, cur := 0, obuf := [], mode := .dec }
  | .hufDecSym _ _, h' => h' = h ∨ ∃ b cur obuf, decodeOne h h.cur.toNat = .symbol b cur ∧ h.cur.toNat < h.nbits.toNat ∧
      appendBytes p.outCap h.obuf [b] = some obuf ∧ h' = { h with obuf := obuf, cur := BitVec.ofNat 64 cur }
  | .hufDecAll _ _, h' => ∃ out cur obuf,
      decodeRest h (h.nbits.toNat - h.cur.toNat) h.cur.toNat = .bytes out cur ∧
      appendBytes p.outCap h.obuf out = some obuf ∧
      h' = { h with obuf := obuf, cur := BitVec.ofNat 64 cur, mode := .ready }
  | .hufDecEnd _ _, h' => h' = { h with mode := .ready }
  | _, _ => False

/-- A command of the Huffman engine has no result (log 7). -/
def HufStuck (h : HufState) : Instr → Prop
  | .hufGencodes _ _ => genCodes h.node h.root = none
  | .hufDecSym _ _ => h.cur ≠ h.nbits ∧ (h.nbits.toNat < h.cur.toNat ∨ decodeOne h h.cur.toNat = .broken)
  | .hufDecAll _ _ => decodeRest h (h.nbits.toNat - h.cur.toNat) h.cur.toNat = .broken
  | _ => False

/-- The arithmetic-coder engine `c'` that a command other than a reset or a read leaves where it answers `OK`, in a build
`p` with engine `c` before it. -/
def AcPost (p : Params) (c : AcState) : Instr → AcState → Prop
  | .acModelInit _ _, c' => c' = { c with cnt := Vector.replicate 256 1, total := 256 }
  | .acSetcnt a d, c' => c' = { c with cnt := tableWrite c.cnt a (d.setWidth 32) }
  | .acSettotal _ d, c' => c' = { c with total := d.setWidth 40 }
  | .acInc a _, c' => c' = { c with cnt := tableWrite c.cnt a (tableRead c.cnt a + 1), total := c.total + 1 }
  | .acEncInit _ _, c' => ∃ obuf, appendBytes p.outCap [] (List.replicate 8 0) = some obuf ∧
      c' = { c with
        low := 0, high := BitVec.ofNat 64 maxV, pending := 0, nsym := 0, pk := Packer.empty, obuf := obuf, mode := .enc }
  | .acEncSym a _, c' => ∃ lo hi q, tableValid c.cnt c.total = true ∧ c.nsym.toNat ≠ maxV ∧
      narrow c.low.toNat c.high.toNat (cum c.cnt a.toNat) (cum c.cnt a.toNat + (tableRead c.cnt a).toNat) c.total.toNat =
        some (lo, hi) ∧
      (rnuEnc lo hi c.pending.toNat).pending ≤ maxV ∧
      pushBits p.outCap { pk := c.pk, out := c.obuf } (rnuEnc lo hi c.pending.toNat).bits = some q ∧
      c' = { c with
        low := BitVec.ofNat 64 (rnuEnc lo hi c.pending.toNat).low,
        high := BitVec.ofNat 64 (rnuEnc lo hi c.pending.toNat).high,
        pending := BitVec.ofNat 64 (rnuEnc lo hi c.pending.toNat).pending, pk := q.pk, obuf := q.out, nsym := c.nsym + 1 }
  | .acEncFinish _ _, c' => ∃ q q', 8 ≤ c.obuf.length ∧
      pushBits p.outCap { pk := c.pk, out := c.obuf } (finishBits c.low.toNat c.pending.toNat p.acFlushExtra) = some q ∧
      flushPacker p.outCap q = some q' ∧
      c' = { c with pending := 0, pk := q'.pk, obuf := be64 c.nsym ++ q'.out.drop 8, mode := .done }
  | .acInByte a _, c' => ∃ ibuf, appendBytes p.inCap c.ibuf [a] = some ibuf ∧ c' = { c with ibuf := ibuf }
  | .acInClear _ _, c' => c' = { c with ibuf := [] }
  | .acDecInit _ _, c' => 8 ≤ c.ibuf.length ∧
      c' = { c with
        remain := BitVec.ofNat 64 (unBe64 (c.ibuf.take 8)), low := 0, high := BitVec.ofNat 64 maxV, pending := 0,
        value := firstValue c.ibuf, cur := 64, mode := .dec }
  | .acDecSym _ _, c' => c' = c ∨ ∃ target sym lo hi, tableValid c.cnt c.total = true ∧
      targetOf c.low.toNat c.high.toNat c.value.toNat c.total.toNat = some target ∧ findSymbol c.cnt target = some sym ∧
      narrow c.low.toNat c.high.toNat (cum c.cnt sym) (cum c.cnt (sym + 1)) c.total.toNat = some (lo, hi) ∧
      (rnuDec c.ibuf lo hi c.value.toNat c.cur.toNat).cur ≤ maxV ∧
      c' = { c with
        low := BitVec.ofNat 64 (rnuDec c.ibuf lo hi c.value.toNat c.cur.toNat).low,
        high := BitVec.ofNat 64 (rnuDec c.ibuf lo hi c.value.toNat c.cur.toNat).high,
        value := BitVec.ofNat 64 (rnuDec c.ibuf lo hi c.value.toNat c.cur.toNat).value,
        cur := BitVec.ofNat 64 (rnuDec c.ibuf lo hi c.value.toNat c.cur.toNat).cur, remain := c.remain - 1 }
  | .acDecEnd _ _, c' => c' = { c with mode := .idle }
  | _, _ => False

/-- The arithmetic coder's decode step has no result or no symbol: an empty interval, or a target outside the table. -/
def AcDecStuck (c : AcState) : Prop :=
  c.high.toNat < c.low.toNat ∨
  ∃ target sym, targetOf c.low.toNat c.high.toNat c.value.toNat c.total.toNat = some target ∧
    findSymbol c.cnt target = some sym ∧
    narrow c.low.toNat c.high.toNat (cum c.cnt sym) (cum c.cnt (sym + 1)) c.total.toNat = none

/-- A command of the arithmetic coder has no result (log 8). -/
def AcStuck (c : AcState) : Instr → Prop
  | .acEncSym a _ => tableValid c.cnt c.total = true ∧
      narrow c.low.toNat c.high.toNat (cum c.cnt a.toNat) (cum c.cnt a.toNat + (tableRead c.cnt a).toNat) c.total.toNat = none
  | .acEncFinish _ _ => c.obuf.length < 8
  | .acDecSym _ _ => tableValid c.cnt c.total = true ∧ AcDecStuck c
  | _ => False

/-! ### The work of a command -/

/-- How a command of engine `e` ends once its checks have passed: it answers with the engine in a state of `post`, takes a
fault, or has no result. `put` writes the engine. -/
inductive Ends {σ : Type} (e : Engine) (s : State) (put : State → σ → State) (post : σ → Prop) (stuck : Prop) :
    Result → Prop
  | answers (x : σ) (v : Word) (hpost : post x) : Ends e s put post stuck (answer (put s x) v)
  | raises (code : Status) (hcode : isFaultStatus code = true) (hne : code ≠ .emptyInput) :
      Ends e s put post stuck (raiseFault e s code)
  | stops (f : Fault) (hstuck : stuck) : Ends e s put post stuck (.fault f)

/-- Command `i` of the Huffman engine: the common checks, with the mode check of the table of R252, then its work. -/
def HufSpec (i : Instr) (s : State) : Prop :=
  unitOf i = some .huf ∧ isStatusRead i = false ∧ (∀ m, acTransition i m = some m) ∧
  ∃ k, exec i s = engineCommand .huf i.wellFormed (hufTransition i s.huf.mode).isSome s k ∧
    Ends .huf s State.setHuf (HufPost s.params s.huf i) (HufStuck s.huf i) k

/-- Command `i` of the arithmetic coder: the common checks, with the mode check of the table of R253, then its work. -/
def AcSpec (i : Instr) (s : State) : Prop :=
  unitOf i = some .ac ∧ isStatusRead i = false ∧ (∀ m, hufTransition i m = some m) ∧
  ∃ k, exec i s = engineCommand .ac i.wellFormed (acTransition i s.ac.mode).isSome s k ∧
    Ends .ac s State.setAc (AcPost s.params s.ac i) (AcStuck s.ac i) k

theorem hufSpec_of_exec_eq {i : Instr} {s : State} (legal : HufMode → Bool) {k : Result}
    (hunit : UnitOfOpcode.unit i = 1 ∧ isStatusRead i = false) (hac : ∀ m, acTransition i m = some m)
    (hexec : exec i s = engineCommand .huf i.wellFormed (legal s.huf.mode) s k)
    (hlegal : ∀ m, legal m = (hufTransition i m).isSome)
    (hends : Ends .huf s State.setHuf (HufPost s.params s.huf i) (HufStuck s.huf i) k) : HufSpec i s :=
  ⟨unitOf_eq_huf hunit.1, hunit.2, hac, k, hlegal s.huf.mode ▸ hexec, hends⟩

theorem acSpec_of_exec_eq {i : Instr} {s : State} (legal : AcMode → Bool) {k : Result}
    (hunit : UnitOfOpcode.unit i = 2 ∧ isStatusRead i = false) (hhuf : ∀ m, hufTransition i m = some m)
    (hexec : exec i s = engineCommand .ac i.wellFormed (legal s.ac.mode) s k)
    (hlegal : ∀ m, legal m = (acTransition i m).isSome)
    (hends : Ends .ac s State.setAc (AcPost s.params s.ac i) (AcStuck s.ac i) k) : AcSpec i s :=
  ⟨unitOf_eq_ac hunit.1, hunit.2, hhuf, k, hlegal s.ac.mode ▸ hexec, hends⟩

section Commands

variable (a : Byte) (d : Word) (s : State)

/-! ### The commands of the Huffman engine -/

theorem hufCount_spec : HufSpec (.hufCount a d) s := by
  refine hufSpec_of_exec_eq (· == .freq) ⟨rfl, rfl⟩ (fun _ => rfl) rfl (fun m => by cases m <;> rfl) ?_
  split
  · exact .raises .counterOverflow rfl nofun
  · exact .answers _ 0 rfl

theorem hufSetfreq_spec : HufSpec (.hufSetfreq a d) s :=
  hufSpec_of_exec_eq (· == .freq) ⟨rfl, rfl⟩ (fun _ => rfl) rfl (fun m => by cases m <;> rfl) (.answers _ 0 rfl)

theorem hufBuild_spec : HufSpec (.hufBuild a d) s := by
  refine hufSpec_of_exec_eq (· == .freq) ⟨rfl, rfl⟩ (fun _ => rfl) rfl (fun m => by cases m <;> rfl) ?_
  split
  · exact .raises .corruptHuffmanTree rfl nofun
  next t ht => exact .answers _ _ ⟨t, ht, rfl⟩

theorem hufGencodes_spec : HufSpec (.hufGencodes a d) s := by
  refine hufSpec_of_exec_eq (· == .tree) ⟨rfl, rfl⟩ (fun _ => rfl) rfl (fun m => by cases m <;> rfl) ?_
  split
  next hnone => exact .stops .brokenHufState hnone
  next t ht => exact .answers _ _ ⟨t, ht, rfl⟩

theorem hufEncBegin_spec : HufSpec (.hufEncBegin a d) s :=
  hufSpec_of_exec_eq (· == .ready) ⟨rfl, rfl⟩ (fun _ => rfl) rfl (fun m => by cases m <;> rfl) (.answers _ 0 rfl)

theorem hufEncSym_spec : HufSpec (.hufEncSym a d) s := by
  refine hufSpec_of_exec_eq (· == .enc) ⟨rfl, rfl⟩ (fun _ => rfl) rfl (fun m => by cases m <;> rfl) ?_
  split
  · exact .raises .symbolNotFound rfl nofun
  · split
    · exact .raises .bufferFull rfl nofun
    next q hq => exact .answers _ 0 ⟨q, hq, rfl⟩

theorem hufEncEnd_spec : HufSpec (.hufEncEnd a d) s := by
  refine hufSpec_of_exec_eq (· == .enc) ⟨rfl, rfl⟩ (fun _ => rfl) rfl (fun m => by cases m <;> rfl) ?_
  dsimp only
  split
  · exact .raises .bufferFull rfl nofun
  next q hq =>
    split
    · exact .raises .bufferFull rfl nofun
    next out hout => exact .answers _ _ ⟨q, out, hq, hout, rfl⟩

theorem hufInByte_spec : HufSpec (.hufInByte a d) s := by
  refine hufSpec_of_exec_eq (· != .dec) ⟨rfl, rfl⟩ (fun _ => rfl) rfl (fun m => by cases m <;> rfl) ?_
  split
  · exact .raises .bufferFull rfl nofun
  next ibuf hibuf => exact .answers _ 0 ⟨ibuf, hibuf, rfl⟩

theorem hufInClear_spec : HufSpec (.hufInClear a d) s :=
  hufSpec_of_exec_eq (· != .dec) ⟨rfl, rfl⟩ (fun _ => rfl) rfl (fun m => by cases m <;> rfl) (.answers _ 0 rfl)

theorem hufDecBegin_spec : HufSpec (.hufDecBegin a d) s := by
  refine hufSpec_of_exec_eq (· == .ready) ⟨rfl, rfl⟩ (fun _ => rfl) rfl (fun m => by cases m <;> rfl) ?_
  split
  · exact .raises .invalidArchive rfl nofun
  next n hn => exact .answers _ _ ⟨n, hn, rfl⟩

theorem hufDecSym_spec : HufSpec (.hufDecSym a d) s := by
  refine hufSpec_of_exec_eq (· == .dec) ⟨rfl, rfl⟩ (fun _ => rfl) rfl (fun m => by cases m <;> rfl) ?_
  split
  · exact .answers s.huf endMarker (.inl rfl)
  next hne =>
    split
    next hlt => exact .stops .brokenHufState ⟨hne, .inl hlt⟩
    next hlt =>
      have hcur : s.huf.cur.toNat < s.huf.nbits.toNat :=
        lt_of_le_of_ne (not_lt.mp hlt) fun heq => hne (BitVec.eq_of_toNat_eq heq)
      split
      next hbroken => exact .stops .brokenHufState ⟨hne, .inr hbroken⟩
      · exact .raises .invalidArchive rfl nofun
      next b cur hsym =>
        split
        · exact .raises .bufferFull rfl nofun
        next obuf hobuf => exact .answers _ _ (.inr ⟨b, cur, obuf, hsym, hcur, hobuf, rfl⟩)

theorem hufDecAll_spec : HufSpec (.hufDecAll a d) s := by
  refine hufSpec_of_exec_eq (· == .dec) ⟨rfl, rfl⟩ (fun _ => rfl) rfl (fun m => by cases m <;> rfl) ?_
  split
  next hbroken => exact .stops .brokenHufState hbroken
  · exact .raises .invalidArchive rfl nofun
  next out cur hout =>
    split
    · exact .raises .bufferFull rfl nofun
    next obuf hobuf => exact .answers _ _ ⟨out, cur, obuf, hout, hobuf, rfl⟩

theorem hufDecEnd_spec : HufSpec (.hufDecEnd a d) s :=
  hufSpec_of_exec_eq (· == .dec) ⟨rfl, rfl⟩ (fun _ => rfl) rfl (fun m => by cases m <;> rfl) (.answers _ 0 rfl)

/-! ### The commands of the arithmetic coder -/

theorem acModelInit_spec : AcSpec (.acModelInit a d) s :=
  acSpec_of_exec_eq (fun _ => true) ⟨rfl, rfl⟩ (fun _ => rfl) rfl (fun m => by cases m <;> rfl) (.answers _ 0 rfl)

theorem acSetcnt_spec : AcSpec (.acSetcnt a d) s :=
  acSpec_of_exec_eq (fun _ => true) ⟨rfl, rfl⟩ (fun _ => rfl) rfl (fun m => by cases m <;> rfl) (.answers _ 0 rfl)

theorem acSettotal_spec : AcSpec (.acSettotal a d) s :=
  acSpec_of_exec_eq (fun _ => true) ⟨rfl, rfl⟩ (fun _ => rfl) rfl (fun m => by cases m <;> rfl) (.answers _ 0 rfl)

theorem acInc_spec : AcSpec (.acInc a d) s := by
  refine acSpec_of_exec_eq (fun _ => true) ⟨rfl, rfl⟩ (fun _ => rfl) rfl (fun m => by cases m <;> rfl) ?_
  split
  · exact .raises .counterOverflow rfl nofun
  · exact .answers _ 0 rfl

theorem acEncInit_spec : AcSpec (.acEncInit a d) s := by
  refine acSpec_of_exec_eq (fun m => m == .idle || m == .done) ⟨rfl, rfl⟩ (fun _ => rfl) rfl (fun m => by cases m <;> rfl) ?_
  split
  · exact .raises .bufferFull rfl nofun
  next obuf hobuf => exact .answers _ 0 ⟨obuf, hobuf, rfl⟩

theorem acEncSym_spec : AcSpec (.acEncSym a d) s := by
  refine acSpec_of_exec_eq (· == .enc) ⟨rfl, rfl⟩ (fun _ => rfl) rfl (fun m => by cases m <;> rfl) ?_
  dsimp only
  split
  · exact .raises .badModel rfl nofun
  next hvalid =>
    rw [Bool.not_eq_true', Bool.not_eq_false] at hvalid
    split
    · exact .raises .counterOverflow rfl nofun
    next hnsym =>
      split
      next hnone => exact .stops .brokenAcState ⟨hvalid, hnone⟩
      next lo hi hnarrow =>
        split
        · exact .raises .counterOverflow rfl nofun
        next hpending =>
          split
          · exact .raises .bufferFull rfl nofun
          next q hq => exact .answers _ 0 ⟨lo, hi, q, hvalid, hnsym, hnarrow, not_lt.mp hpending, hq, rfl⟩

theorem acEncFinish_spec : AcSpec (.acEncFinish a d) s := by
  refine acSpec_of_exec_eq (· == .enc) ⟨rfl, rfl⟩ (fun _ => rfl) rfl (fun m => by cases m <;> rfl) ?_
  split
  next hshort => exact .stops .brokenAcState hshort
  next hlen =>
    split
    · exact .raises .bufferFull rfl nofun
    next q hq =>
      split
      · exact .raises .bufferFull rfl nofun
      next q' hq' => exact .answers _ _ ⟨q, q', not_lt.mp hlen, hq, hq', rfl⟩

theorem acInByte_spec : AcSpec (.acInByte a d) s := by
  refine acSpec_of_exec_eq (· != .dec) ⟨rfl, rfl⟩ (fun _ => rfl) rfl (fun m => by cases m <;> rfl) ?_
  split
  · exact .raises .bufferFull rfl nofun
  next ibuf hibuf => exact .answers _ 0 ⟨ibuf, hibuf, rfl⟩

theorem acInClear_spec : AcSpec (.acInClear a d) s :=
  acSpec_of_exec_eq (· != .dec) ⟨rfl, rfl⟩ (fun _ => rfl) rfl (fun m => by cases m <;> rfl) (.answers _ 0 rfl)

theorem acDecInit_spec : AcSpec (.acDecInit a d) s := by
  refine acSpec_of_exec_eq (fun m => m == .idle || m == .done) ⟨rfl, rfl⟩ (fun _ => rfl) rfl (fun m => by cases m <;> rfl) ?_
  split
  · exact .raises .invalidArchive rfl nofun
  next hlen => exact .answers _ _ ⟨not_lt.mp hlen, rfl⟩

theorem acDecSym_spec : AcSpec (.acDecSym a d) s := by
  refine acSpec_of_exec_eq (· == .dec) ⟨rfl, rfl⟩ (fun _ => rfl) rfl (fun m => by cases m <;> rfl) ?_
  dsimp only
  split
  · exact .answers s.ac endMarker (.inl rfl)
  · split
    · exact .raises .badModel rfl nofun
    next hvalid =>
      rw [Bool.not_eq_true', Bool.not_eq_false] at hvalid
      split
      next hempty => exact .stops .brokenAcState ⟨hvalid, .inl hempty⟩
      · split
        · exact .raises .decodeDesync rfl nofun
        next target htarget =>
          split
          · exact .raises .decodeDesync rfl nofun
          next sym hsym =>
            split
            next hnone => exact .stops .brokenAcState ⟨hvalid, .inr ⟨target, sym, htarget, hsym, hnone⟩⟩
            next lo hi hnarrow =>
              split
              · exact .raises .counterOverflow rfl nofun
              next hcur =>
                exact .answers _ _ (.inr ⟨target, sym, lo, hi, hvalid, htarget, hsym, hnarrow, not_lt.mp hcur, rfl⟩)

theorem acDecEnd_spec : AcSpec (.acDecEnd a d) s :=
  acSpec_of_exec_eq (· == .dec) ⟨rfl, rfl⟩ (fun _ => rfl) rfl (fun m => by cases m <;> rfl) (.answers _ 0 rfl)

end Commands

/-! ### The opcode map -/

/-- The kinds of commands (R231): the work of an engine, block control and the resets with the operand check only, and the
two reads. -/
inductive Kind (s : State) : Instr → Prop
  | huf {i : Instr} (hspec : HufSpec i s) : Kind s i
  | ac {i : Instr} (hspec : AcSpec i s) : Kind s i
  | nop (a : Byte) (d : Word) : Kind s (.nop a d)
  | resetAll (a : Byte) (d : Word) : Kind s (.resetAll a d)
  | hufReset (a : Byte) (d : Word) : Kind s (.hufReset a d)
  | acReset (a : Byte) (d : Word) : Kind s (.acReset a d)
  | hufRd (a : Byte) (d : Word) : Kind s (.hufRd a d)
  | acRd (a : Byte) (d : Word) : Kind s (.acRd a d)

theorem kind (i : Instr) (s : State) : Kind s i := by
  cases i with
  | nop a d => exact .nop a d
  | resetAll a d => exact .resetAll a d
  | hufReset a d => exact .hufReset a d
  | acReset a d => exact .acReset a d
  | hufRd a d => exact .hufRd a d
  | acRd a d => exact .acRd a d
  | hufCount a d => exact .huf (hufCount_spec a d s)
  | hufSetfreq a d => exact .huf (hufSetfreq_spec a d s)
  | hufBuild a d => exact .huf (hufBuild_spec a d s)
  | hufGencodes a d => exact .huf (hufGencodes_spec a d s)
  | hufEncBegin a d => exact .huf (hufEncBegin_spec a d s)
  | hufEncSym a d => exact .huf (hufEncSym_spec a d s)
  | hufEncEnd a d => exact .huf (hufEncEnd_spec a d s)
  | hufInByte a d => exact .huf (hufInByte_spec a d s)
  | hufInClear a d => exact .huf (hufInClear_spec a d s)
  | hufDecBegin a d => exact .huf (hufDecBegin_spec a d s)
  | hufDecSym a d => exact .huf (hufDecSym_spec a d s)
  | hufDecAll a d => exact .huf (hufDecAll_spec a d s)
  | hufDecEnd a d => exact .huf (hufDecEnd_spec a d s)
  | acModelInit a d => exact .ac (acModelInit_spec a d s)
  | acSetcnt a d => exact .ac (acSetcnt_spec a d s)
  | acSettotal a d => exact .ac (acSettotal_spec a d s)
  | acInc a d => exact .ac (acInc_spec a d s)
  | acEncInit a d => exact .ac (acEncInit_spec a d s)
  | acEncSym a d => exact .ac (acEncSym_spec a d s)
  | acEncFinish a d => exact .ac (acEncFinish_spec a d s)
  | acInByte a d => exact .ac (acInByte_spec a d s)
  | acInClear a d => exact .ac (acInClear_spec a d s)
  | acDecInit a d => exact .ac (acDecInit_spec a d s)
  | acDecSym a d => exact .ac (acDecSym_spec a d s)
  | acDecEnd a d => exact .ac (acDecEnd_spec a d s)

end Sys2Proof.Proofs

/-! SUPPORT. The rules common to all commands (40_block_control.md section 1, 60_exceptions.md section 3,
70_reset_and_hazards.md section 2), from the kind of each command: the order of the checks, the mode tables, the one
response, and the independence of the engines. -/

namespace Sys2Proof.Proofs

open Sys2Proof.Machine Sys2Proof.Statements Sys2Proof.Laws

/-! ### The reads -/

theorem hufSelCode_eq_of_hufSel {a : Byte} {sel : HufSel} (h : hufSel a = some sel) : hufSelCode sel = a := by
  unfold hufSel at h
  split at h <;> cases h <;> rfl

theorem acSelCode_eq_of_acSel {a : Byte} {sel : AcSel} (h : acSel a = some sel) : acSelCode sel = a := by
  unfold acSel at h
  split at h <;> cases h <;> rfl

/-- An operand beyond the table of R85 names no selector. -/
theorem hufSel_eq_none {a : Byte} (h : ¬ a.toNat ≤ 10) : hufSel a = none := by
  refine Option.eq_none_iff_forall_not_mem.mpr fun sel hsel => h ?_
  rw [← hufSelCode_eq_of_hufSel hsel]
  cases sel <;> decide

theorem acSel_eq_none {a : Byte} (h : ¬ a.toNat ≤ 12) : acSel a = none := by
  refine Option.eq_none_iff_forall_not_mem.mpr fun sel hsel => h ?_
  rw [← acSelCode_eq_of_acSel hsel]
  cases sel <;> decide

/-- A read of the Huffman engine past the latch, in a mode that is not the selector's (R231 step 5). -/
theorem exec_hufRd_sequenceError {s : State} {sel : HufSel} (d : Word) (hlatch : s.huf.fault = 0 ∨ sel = .status)
    (hmode : hufSelModeOk sel s.huf.mode = false) :
    exec (.hufRd (hufSelCode sel) d) s = .next (replied s .sequenceError 0) := by
  have hpass : (sel != .status && faultLatch .huf s != 0) = false := by
    obtain h | h := hlatch <;> simp [faultLatch, h]
  change execHufRd (hufSelCode sel) d s = _
  rw [execHufRd, hufSel_hufSelCode]
  simp only [hpass, hmode]
  rfl

/-- A read of the arithmetic coder past the latch, in a mode that is not the selector's (R231 step 5). -/
theorem exec_acRd_sequenceError {s : State} {sel : AcSel} (d : Word) (hlatch : s.ac.fault = 0 ∨ sel = .status)
    (hmode : acSelModeOk sel s.ac.mode = false) :
    exec (.acRd (acSelCode sel) d) s = .next (replied s .sequenceError 0) := by
  have hpass : (sel != .status && faultLatch .ac s != 0) = false := by
    obtain h | h := hlatch <;> simp [faultLatch, h]
  change execAcRd (acSelCode sel) d s = _
  rw [execAcRd, acSel_acSelCode]
  simp only [hpass, hmode]
  rfl

/-- A read of the Huffman engine is refused, or answers in one of its selector's modes; it changes no engine. -/
theorem exec_hufRd_next {a : Byte} {d : Word} {s t : State} (h : exec (.hufRd a d) s = .next t) :
    (∃ code, isRefusalStatus code = true ∧ t = replied s code 0) ∨
    (hufTransition (.hufRd a d) s.huf.mode = some s.huf.mode ∧ ∃ v, t = replied s .ok v) := by
  change execHufRd a d s = .next t at h
  unfold execHufRd at h
  split at h
  · exact .inl ⟨.badOperand, rfl, (Host.Outcome.next.inj h).symm⟩
  next sel hsel =>
    obtain rfl := hufSelCode_eq_of_hufSel hsel
    split_ifs at h with _ hmode
    · exact .inl ⟨.faulted, rfl, (Host.Outcome.next.inj h).symm⟩
    · exact .inl ⟨.sequenceError, rfl, (Host.Outcome.next.inj h).symm⟩
    · exact .inl ⟨.badOperand, rfl, (Host.Outcome.next.inj h).symm⟩
    · refine .inr ⟨?_, _, (Host.Outcome.next.inj h).symm⟩
      rw [Bool.not_eq_true', Bool.not_eq_false] at hmode
      rw [hufTransition_hufRd, if_pos hmode]

/-- A read of the arithmetic coder is refused, or answers in one of its selector's modes; it changes no engine. -/
theorem exec_acRd_next {a : Byte} {d : Word} {s t : State} (h : exec (.acRd a d) s = .next t) :
    (∃ code, isRefusalStatus code = true ∧ t = replied s code 0) ∨
    (acTransition (.acRd a d) s.ac.mode = some s.ac.mode ∧ ∃ v, t = replied s .ok v) := by
  change execAcRd a d s = .next t at h
  unfold execAcRd at h
  split at h
  · exact .inl ⟨.badOperand, rfl, (Host.Outcome.next.inj h).symm⟩
  next sel hsel =>
    obtain rfl := acSelCode_eq_of_acSel hsel
    split_ifs at h with _ hmode
    · exact .inl ⟨.faulted, rfl, (Host.Outcome.next.inj h).symm⟩
    · exact .inl ⟨.sequenceError, rfl, (Host.Outcome.next.inj h).symm⟩
    · exact .inl ⟨.badOperand, rfl, (Host.Outcome.next.inj h).symm⟩
    · refine .inr ⟨?_, _, (Host.Outcome.next.inj h).symm⟩
      rw [Bool.not_eq_true', Bool.not_eq_false] at hmode
      rw [acTransition_acRd, if_pos hmode]

/-! ### Everything that a command which ends in a next state can have done -/

/-- What a command did, from the state `s` before it to the state after it. -/
inductive Done (i : Instr) (s : State) : State → Prop
  | refused (code : Status) (hcode : isRefusalStatus code = true) : Done i s (replied s code 0)
  | huf (h : HufState) (v : Word) (hlatch : s.huf.fault = 0) (hlegal : (hufTransition i s.huf.mode).isSome = true)
      (hac : ∀ m, acTransition i m = some m) (hpost : HufPost s.params s.huf i h) : Done i s (replied (s.setHuf h) .ok v)
  | ac (c : AcState) (v : Word) (hlatch : s.ac.fault = 0) (hlegal : (acTransition i s.ac.mode).isSome = true)
      (hhuf : ∀ m, hufTransition i m = some m) (hpost : AcPost s.params s.ac i c) : Done i s (replied (s.setAc c) .ok v)
  | read (v : Word) (hhuf : hufTransition i s.huf.mode = some s.huf.mode)
      (hac : acTransition i s.ac.mode = some s.ac.mode) : Done i s (replied s .ok v)
  | resetAll (hhuf : ∀ m, hufTransition i m = some .freq) (hac : ∀ m, acTransition i m = some .idle) :
      Done i s (replied (hardwareReset s) .ok 0)
  | hufReset (hhuf : ∀ m, hufTransition i m = some .freq) (hac : ∀ m, acTransition i m = some m) :
      Done i s (replied (resetEngine .huf s) .ok 0)
  | acReset (hhuf : ∀ m, hufTransition i m = some m) (hac : ∀ m, acTransition i m = some .idle) :
      Done i s (replied (resetEngine .ac s) .ok 0)
  | raised (e : Engine) (code : Status) (t : State) (hcode : isFaultStatus code = true) (hne : code ≠ .emptyInput)
      (hraise : raiseFault e s code = .next t) : Done i s t

/-- A command of an engine whose checks do not all pass is refused. -/
theorem engineCommand_next {e : Engine} {operandsOk modeOk : Bool} {s t : State} {k : Result}
    (h : engineCommand e operandsOk modeOk s k = .next t) :
    (∃ code, isRefusalStatus code = true ∧ t = replied s code 0) ∨
    (faultLatch e s = 0 ∧ modeOk = true ∧ k = .next t) := by
  obtain ⟨-, hlatch, hmode, hpass⟩ | ⟨-, hrefused⟩ | ⟨-, -, hrefused⟩ | ⟨-, -, -, hrefused⟩ :=
    engineCommand_cases e operandsOk modeOk s k
  · exact .inr ⟨hlatch, hmode, hpass ▸ h⟩
  · exact .inl ⟨.badOperand, rfl, (Host.Outcome.next.inj (hrefused.symm.trans h)).symm⟩
  · exact .inl ⟨.faulted, rfl, (Host.Outcome.next.inj (hrefused.symm.trans h)).symm⟩
  · exact .inl ⟨.sequenceError, rfl, (Host.Outcome.next.inj (hrefused.symm.trans h)).symm⟩

/-- A command with the operand check only is refused, or its meaning is what remains. -/
theorem checkOperands_answer_next {ok : Bool} {s t u : State} (h : checkOperands ok s (answer u 0) = .next t) :
    (∃ code, isRefusalStatus code = true ∧ t = replied s code 0) ∨ t = replied u .ok 0 := by
  obtain ⟨-, hpass⟩ | ⟨-, hrefused⟩ := checkOperands_cases ok s (answer u 0)
  · exact .inr (Host.Outcome.next.inj (hpass.symm.trans h)).symm
  · exact .inl ⟨.badOperand, rfl, (Host.Outcome.next.inj (hrefused.symm.trans h)).symm⟩

theorem exec_next_done {i : Instr} {s t : State} (h : exec i s = .next t) : Done i s t := by
  cases kind i s with
  | huf hspec =>
    obtain ⟨-, -, hac, k, hexec, hends⟩ := hspec
    obtain ⟨code, hcode, rfl⟩ | ⟨hlatch, hlegal, rfl⟩ := engineCommand_next (hexec ▸ h)
    · exact .refused code hcode
    · generalize hr : Host.Outcome.next t = r at hends
      cases hends with
      | answers h' v hpost => cases hr; exact .huf h' v hlatch hlegal hac hpost
      | raises code hcode hne => exact .raised .huf code t hcode hne hr.symm
      | stops => cases hr
  | ac hspec =>
    obtain ⟨-, -, hhuf, k, hexec, hends⟩ := hspec
    obtain ⟨code, hcode, rfl⟩ | ⟨hlatch, hlegal, rfl⟩ := engineCommand_next (hexec ▸ h)
    · exact .refused code hcode
    · generalize hr : Host.Outcome.next t = r at hends
      cases hends with
      | answers c v hpost => cases hr; exact .ac c v hlatch hlegal hhuf hpost
      | raises code hcode hne => exact .raised .ac code t hcode hne hr.symm
      | stops => cases hr
  | nop a d =>
    obtain ⟨code, hcode, rfl⟩ | rfl := checkOperands_answer_next h
    · exact .refused code hcode
    · exact .read 0 rfl rfl
  | resetAll a d =>
    obtain ⟨code, hcode, rfl⟩ | rfl := checkOperands_answer_next h
    · exact .refused code hcode
    · exact .resetAll (fun _ => rfl) fun _ => rfl
  | hufReset a d =>
    obtain ⟨code, hcode, rfl⟩ | rfl := checkOperands_answer_next h
    · exact .refused code hcode
    · exact .hufReset (fun _ => rfl) fun _ => rfl
  | acReset a d =>
    obtain ⟨code, hcode, rfl⟩ | rfl := checkOperands_answer_next h
    · exact .refused code hcode
    · exact .acReset (fun _ => rfl) fun _ => rfl
  | hufRd a d =>
    obtain ⟨code, hcode, rfl⟩ | ⟨hlegal, v, rfl⟩ := exec_hufRd_next h
    · exact .refused code hcode
    · exact .read v hlegal rfl
  | acRd a d =>
    obtain ⟨code, hcode, rfl⟩ | ⟨hlegal, v, rfl⟩ := exec_acRd_next h
    · exact .refused code hcode
    · exact .read v rfl hlegal

/-! ### The order of the checks -/

/-- Step 2 of R231, for every command. -/
theorem exec_of_not_wellFormed {i : Instr} (s : State) (hwf : i.wellFormed = false) :
    exec i s = .next (replied s .badOperand 0) := by
  cases kind i s with
  | huf hspec => obtain ⟨-, -, -, k, hexec, -⟩ := hspec; rw [hexec, hwf]; rfl
  | ac hspec => obtain ⟨-, -, -, k, hexec, -⟩ := hspec; rw [hexec, hwf]; rfl
  | nop a d => exact if_neg (Bool.eq_false_iff.mp hwf)
  | resetAll a d => exact if_neg (Bool.eq_false_iff.mp hwf)
  | hufReset a d => exact if_neg (Bool.eq_false_iff.mp hwf)
  | acReset a d => exact if_neg (Bool.eq_false_iff.mp hwf)
  | hufRd a d => change execHufRd a d s = _; rw [execHufRd, hufSel_eq_none (of_decide_eq_false hwf)]; rfl
  | acRd a d => change execAcRd a d s = _; rw [execAcRd, acSel_eq_none (of_decide_eq_false hwf)]; rfl

/-- A command of an engine past the operand and the latch, in a mode that is not its own (R231 step 5). -/
theorem engineCommand_sequenceError {e : Engine} {s : State} (k : Result) (hlatch : faultLatch e s = 0) :
    engineCommand e true false s k = .next (replied s .sequenceError 0) := by
  obtain ⟨-, -, hmode, -⟩ | ⟨hoperands, -⟩ | ⟨-, hfault, -⟩ | ⟨-, -, -, hrefused⟩ := engineCommand_cases e true false s k
  · cases hmode
  · cases hoperands
  · exact absurd hlatch hfault
  · exact hrefused

/-- Step 5 of R231: in a mode in which a table has no entry for it, a command past the operand and the latch is refused. -/
theorem exec_eq_sequenceError {i : Instr} {s : State} {e : Engine} (hwf : i.wellFormed = true)
    (hreset : isReset i = false) (hunit : unitOf i = some e) (hlatch : faultLatch e s = 0 ∨ isStatusRead i = true)
    (hmode : hufTransition i s.huf.mode = none ∨ acTransition i s.ac.mode = none) :
    exec i s = .next (replied s .sequenceError 0) := by
  cases kind i s with
  | huf hspec =>
    obtain ⟨hunit', hread, hac, k, hexec, -⟩ := hspec
    obtain rfl := Option.some.inj (hunit'.symm.trans hunit)
    rw [hac] at hmode
    rw [hexec, hwf, hmode.resolve_right nofun]
    exact engineCommand_sequenceError k (hlatch.resolve_right (Bool.eq_false_iff.mp hread))
  | ac hspec =>
    obtain ⟨hunit', hread, hhuf, k, hexec, -⟩ := hspec
    obtain rfl := Option.some.inj (hunit'.symm.trans hunit)
    rw [hhuf] at hmode
    rw [hexec, hwf, hmode.resolve_left nofun]
    exact engineCommand_sequenceError k (hlatch.resolve_right (Bool.eq_false_iff.mp hread))
  | nop a d => cases (unitOf_eq_none rfl).symm.trans hunit
  | resetAll a d => cases hreset
  | hufReset a d => cases hreset
  | acReset a d => cases hreset
  | hufRd a d =>
    obtain rfl := Option.some.inj ((unitOf_eq_huf rfl).symm.trans hunit)
    obtain ⟨sel, rfl⟩ := exists_hufSelCode_eq (of_decide_eq_true hwf)
    have hnone : ¬ hufSelModeOk sel s.huf.mode = true := by
      rw [hufTransition_hufRd] at hmode
      exact fun hok => absurd (hmode.resolve_right nofun) (by rw [if_pos hok]; nofun)
    exact exec_hufRd_sequenceError d (hlatch.imp_right fun h => hufSelCode_eq_zero.mp (eq_of_beq h))
      (Bool.eq_false_iff.mpr hnone)
  | acRd a d =>
    obtain rfl := Option.some.inj ((unitOf_eq_ac rfl).symm.trans hunit)
    obtain ⟨sel, rfl⟩ := exists_acSelCode_eq (of_decide_eq_true hwf)
    have hnone : ¬ acSelModeOk sel s.ac.mode = true := by
      rw [acTransition_acRd] at hmode
      exact fun hok => absurd (hmode.resolve_left nofun) (by rw [if_pos hok]; nofun)
    exact exec_acRd_sequenceError d (hlatch.imp_right fun h => acSelCode_eq_zero.mp (eq_of_beq h))
      (Bool.eq_false_iff.mpr hnone)

/-- Settles O9: each check refuses where it is the first to fail. -/
theorem checksInFixedOrder : Obligations.ChecksInFixedOrder := by
  refine fun i s => ⟨exec_of_not_wellFormed s, fun hwf hreset e hunit => ⟨fun hlatch hread => ?latch, fun hlatch => ?mode⟩⟩
  case latch => exact exec_eq_faulted hlatch hunit hwf hreset hread
  case mode => exact exec_eq_sequenceError hwf hreset hunit hlatch

/-! ### The mode tables -/

/-- A table has no entry "-" for block control and the resets. -/
theorem unitOf_ne_none_of_no_entry {i : Instr} {m : HufMode} {n : AcMode}
    (h : hufTransition i m = none ∨ acTransition i n = none) : isReset i = false ∧ ∃ e, unitOf i = some e := by
  cases i with
  | nop | resetAll | hufReset | acReset => exact absurd h (by rintro (h | h) <;> cases h)
  | hufCount | hufSetfreq | hufBuild | hufGencodes | hufEncBegin | hufEncSym | hufEncEnd | hufInByte | hufInClear
  | hufDecBegin | hufDecSym | hufDecAll | hufDecEnd | hufRd => exact ⟨rfl, .huf, unitOf_eq_huf rfl⟩
  | acModelInit | acSetcnt | acSettotal | acInc | acEncInit | acEncSym | acEncFinish | acInByte | acInClear | acDecInit
  | acDecSym | acDecEnd | acRd => exact ⟨rfl, .ac, unitOf_eq_ac rfl⟩

/-- The mode that a command of the Huffman engine other than a reset leaves where it answers. -/
def hufModeAfter (m : HufMode) : Instr → HufMode
  | .hufBuild _ _ => .tree
  | .hufGencodes _ _ | .hufEncEnd _ _ | .hufDecAll _ _ | .hufDecEnd _ _ => .ready
  | .hufEncBegin _ _ => .enc
  | .hufDecBegin _ _ => .dec
  | _ => m

theorem HufPost.mode_eq_hufModeAfter {p : Params} {h h' : HufState} {i : Instr} (hpost : HufPost p h i h') :
    h'.mode = hufModeAfter h.mode i := by
  cases i with
  | nop | resetAll | hufReset | hufRd | acReset | acModelInit | acSetcnt | acSettotal | acInc | acEncInit | acEncSym
  | acEncFinish | acInByte | acInClear | acDecInit | acDecSym | acDecEnd | acRd => exact hpost.elim
  | hufCount | hufSetfreq | hufEncBegin | hufInClear | hufDecEnd => obtain rfl := hpost; rfl
  | hufBuild | hufGencodes | hufEncSym | hufInByte | hufDecBegin => obtain ⟨_, -, rfl⟩ := hpost; rfl
  | hufEncEnd => obtain ⟨_, _, -, -, rfl⟩ := hpost; rfl
  | hufDecSym => obtain rfl | ⟨_, _, _, -, -, -, rfl⟩ := hpost <;> rfl
  | hufDecAll => obtain ⟨_, _, _, -, -, rfl⟩ := hpost; rfl

/-- The mode after a command of the Huffman engine is the entry of the table of R252. -/
theorem HufPost.mode_eq {p : Params} {h h' : HufState} {i : Instr} (hpost : HufPost p h i h')
    (hlegal : (hufTransition i h.mode).isSome = true) : hufTransition i h.mode = some h'.mode := by
  rw [hpost.mode_eq_hufModeAfter]
  generalize h.mode = m at hlegal
  cases i with
  | nop | resetAll | hufReset | hufRd | acReset | acModelInit | acSetcnt | acSettotal | acInc | acEncInit | acEncSym
  | acEncFinish | acInByte | acInClear | acDecInit | acDecSym | acDecEnd | acRd => exact hpost.elim
  | _ => cases m <;> simp_all [hufTransition, hufModeAfter]

/-- The mode that a command of the arithmetic coder other than a reset leaves where it answers. -/
def acModeAfter (m : AcMode) : Instr → AcMode
  | .acEncInit _ _ => .enc
  | .acEncFinish _ _ => .done
  | .acDecInit _ _ => .dec
  | .acDecEnd _ _ => .idle
  | _ => m

theorem AcPost.mode_eq_acModeAfter {p : Params} {c c' : AcState} {i : Instr} (hpost : AcPost p c i c') :
    c'.mode = acModeAfter c.mode i := by
  cases i with
  | nop | resetAll | hufReset | hufRd | hufCount | hufSetfreq | hufBuild | hufGencodes | hufEncBegin | hufEncSym
  | hufEncEnd | hufInByte | hufInClear | hufDecBegin | hufDecSym | hufDecAll | hufDecEnd | acReset | acRd =>
    exact hpost.elim
  | acModelInit | acSetcnt | acSettotal | acInc | acInClear | acDecEnd => obtain rfl := hpost; rfl
  | acDecInit => obtain ⟨-, rfl⟩ := hpost; rfl
  | acEncInit | acInByte => obtain ⟨_, -, rfl⟩ := hpost; rfl
  | acEncSym => obtain ⟨_, _, _, -, -, -, -, -, rfl⟩ := hpost; rfl
  | acEncFinish => obtain ⟨_, _, -, -, -, rfl⟩ := hpost; rfl
  | acDecSym => obtain rfl | ⟨_, _, _, _, -, -, -, -, -, rfl⟩ := hpost <;> rfl

/-- The mode after a command of the arithmetic coder is the entry of the table of R253. -/
theorem AcPost.mode_eq {p : Params} {c c' : AcState} {i : Instr} (hpost : AcPost p c i c')
    (hlegal : (acTransition i c.mode).isSome = true) : acTransition i c.mode = some c'.mode := by
  rw [hpost.mode_eq_acModeAfter]
  generalize c.mode = m at hlegal
  cases i with
  | nop | resetAll | hufReset | hufRd | hufCount | hufSetfreq | hufBuild | hufGencodes | hufEncBegin | hufEncSym
  | hufEncEnd | hufInByte | hufInClear | hufDecBegin | hufDecSym | hufDecAll | hufDecEnd | acReset | acRd =>
    exact hpost.elim
  | _ => cases m <;> simp_all [acTransition, acModeAfter]

/-- Taking a fault leaves both modes (60_exceptions.md R229). -/
theorem raiseFault_modes {e : Engine} {s t : State} {code : Status} (h : raiseFault e s code = .next t) :
    t.huf.mode = s.huf.mode ∧ t.ac.mode = s.ac.mode := by
  obtain ⟨-, -, -, -, hhuf, hac⟩ := raiseFault_frame h
  rw [hhuf, hac]
  exact ⟨by split <;> rfl, by split <;> rfl⟩

/-- Settles O10: a command that answers leaves the modes of the tables, the other endings leave both modes, and the mode
check of each command is its row of the tables. -/
theorem modeTablesHold : Obligations.ModeTablesHold := by
  refine fun i s => ⟨fun t r hexec hr => ?modes, fun hwf hhuf hac hmode => ?refused⟩
  case refused =>
    obtain ⟨hreset, e, hunit⟩ := unitOf_ne_none_of_no_entry hmode
    have hlatch : faultLatch e s = 0 := by cases e <;> assumption
    exact exec_eq_sequenceError hwf hreset hunit (.inl hlatch) hmode
  case modes =>
    cases exec_next_done hexec with
    | refused code hcode =>
      obtain rfl := eq_of_replied_responses hr
      exact ⟨(by rintro rfl; cases hcode), fun _ => ⟨rfl, rfl⟩⟩
    | huf h v hlatch hlegal hac hpost =>
      obtain rfl := eq_of_replied_responses hr
      exact ⟨fun _ => ⟨hpost.mode_eq hlegal, hac _⟩, fun hne => absurd rfl hne⟩
    | ac c v hlatch hlegal hhuf hpost =>
      obtain rfl := eq_of_replied_responses hr
      exact ⟨fun _ => ⟨hhuf _, hpost.mode_eq hlegal⟩, fun hne => absurd rfl hne⟩
    | read v hhuf hac =>
      obtain rfl := eq_of_replied_responses hr
      exact ⟨fun _ => ⟨hhuf, hac⟩, fun hne => absurd rfl hne⟩
    | resetAll hhuf hac =>
      obtain rfl := eq_of_replied_responses hr
      exact ⟨fun _ => ⟨hhuf _, hac _⟩, fun hne => absurd rfl hne⟩
    | hufReset hhuf hac =>
      obtain rfl := eq_of_replied_responses hr
      exact ⟨fun _ => ⟨hhuf _, hac _⟩, fun hne => absurd rfl hne⟩
    | acReset hhuf hac =>
      obtain rfl := eq_of_replied_responses hr
      exact ⟨fun _ => ⟨hhuf _, hac _⟩, fun hne => absurd rfl hne⟩
    | raised e code _ hcode hne hraise =>
      obtain rfl := eq_of_raiseFault_responses hraise hr
      exact ⟨(by rintro rfl; cases hcode), fun _ => raiseFault_modes hraise⟩

/-! ### One response -/

/-- Every next state of a command is a reply in a state with the same port, parameters and responses. -/
theorem Done.replies {i : Instr} {s t : State} (h : Done i s t) :
    (∃ r : Response, t.responses = r :: s.responses ∧ (r.status ≠ .ok → r.res = 0) ∧ r.status ≠ .emptyInput) ∧
      t.port = s.port ∧ t.params = s.params := by
  cases h with
  | refused code hcode =>
    exact ⟨⟨⟨code, 0⟩, rfl, fun _ => rfl, fun he => absurd (he ▸ hcode : isRefusalStatus .emptyInput = true) nofun⟩, rfl, rfl⟩
  | huf h v => exact ⟨⟨⟨.ok, v⟩, rfl, fun hne => absurd rfl hne, nofun⟩, rfl, rfl⟩
  | ac c v => exact ⟨⟨⟨.ok, v⟩, rfl, fun hne => absurd rfl hne, nofun⟩, rfl, rfl⟩
  | read v => exact ⟨⟨⟨.ok, v⟩, rfl, fun hne => absurd rfl hne, nofun⟩, rfl, rfl⟩
  | resetAll | hufReset | acReset => exact ⟨⟨⟨.ok, 0⟩, rfl, fun _ => rfl, nofun⟩, rfl, rfl⟩
  | raised e code _ hcode hne hraise =>
    obtain ⟨hresponses, hport, hparams, -⟩ := raiseFault_frame hraise
    exact ⟨⟨⟨code, 0⟩, hresponses, fun _ => rfl, hne⟩, hport, hparams⟩

/-- No arm of the model is left without a meaning. -/
theorem exec_ne_refused (i : Instr) (s : State) (x : Refusal) : exec i s ≠ .refused x := by
  intro h
  have hend := exec_ending i s
  rw [h] at hend
  generalize hr : Host.Outcome.refused x = r at hend
  cases hend with
  | refuses | answers | stops => cases hr
  | @raises e => cases e <;> cases hr

/-- Settles O13: every ending of a command is one reply. -/
theorem oneResponsePerCommand : Obligations.OneResponsePerCommand :=
  fun i s => ⟨fun _ hexec => (exec_next_done hexec).replies, exec_ne_refused i s⟩

/-! ### Independence of the engines -/

/-- The checks of a Huffman command read the Huffman engine only. -/
theorem engineCommand_mapAc {operandsOk modeOk : Bool} {s : State} {c : AcState} {k k' : Result} (hk : k' = mapAc c k) :
    engineCommand .huf operandsOk modeOk { s with ac := c } k' = mapAc c (engineCommand .huf operandsOk modeOk s k) := by
  subst hk
  unfold engineCommand checkOperands faultLatch
  split_ifs <;> rfl

/-- The checks of an AC command read the AC engine only. -/
theorem engineCommand_mapHuf {operandsOk modeOk : Bool} {s : State} {h : HufState} {k k' : Result} (hk : k' = mapHuf h k) :
    engineCommand .ac operandsOk modeOk { s with huf := h } k' = mapHuf h (engineCommand .ac operandsOk modeOk s k) := by
  subst hk
  unfold engineCommand checkOperands faultLatch
  split_ifs <;> rfl

/-- Past the checks, the tests of a Huffman command are on the engine and the build, and its answers and faults write the
Huffman engine only. -/
theorem exec_mapAc {i : Instr} (s : State) (c : AcState) (hunit : unitOf i = some .huf) :
    exec i { s with ac := c } = mapAc c (exec i s) := by
  cases i with
  | nop | resetAll => cases (unitOf_eq_none rfl).symm.trans hunit
  | acReset | acModelInit | acSetcnt | acSettotal | acInc | acEncInit | acEncSym | acEncFinish | acInByte | acInClear
  | acDecInit | acDecSym | acDecEnd | acRd => cases (unitOf_eq_ac rfl).symm.trans hunit
  | hufReset a d =>
    change checkOperands _ _ _ = mapAc c (checkOperands _ _ _)
    unfold checkOperands
    split <;> rfl
  | hufSetfreq | hufEncBegin | hufInClear | hufDecEnd => exact engineCommand_mapAc rfl
  | hufCount | hufBuild | hufGencodes | hufInByte | hufDecBegin =>
    refine engineCommand_mapAc ?_
    dsimp only
    split <;> rfl
  | hufEncSym | hufEncEnd =>
    refine engineCommand_mapAc ?_
    dsimp only
    split
    · rfl
    · split <;> rfl
  | hufDecSym =>
    refine engineCommand_mapAc ?_
    dsimp only
    split_ifs
    · rfl
    · rfl
    · split
      · rfl
      · rfl
      · split <;> rfl
  | hufDecAll =>
    refine engineCommand_mapAc ?_
    dsimp only
    split
    · rfl
    · rfl
    · split <;> rfl
  | hufRd a d =>
    change execHufRd a d _ = mapAc c (execHufRd a d s)
    unfold execHufRd faultLatch
    dsimp only
    split
    · rfl
    · split_ifs <;> rfl

/-- Past the checks, the tests of an AC command are on the engine and the build, and its answers and faults write the AC
engine only. -/
theorem exec_mapHuf {i : Instr} (s : State) (h : HufState) (hunit : unitOf i = some .ac) :
    exec i { s with huf := h } = mapHuf h (exec i s) := by
  cases i with
  | nop | resetAll => cases (unitOf_eq_none rfl).symm.trans hunit
  | hufReset | hufCount | hufSetfreq | hufBuild | hufGencodes | hufEncBegin | hufEncSym | hufEncEnd | hufInByte | hufInClear
  | hufDecBegin | hufDecSym | hufDecAll | hufDecEnd | hufRd => cases (unitOf_eq_huf rfl).symm.trans hunit
  | acReset a d =>
    change checkOperands _ _ _ = mapHuf h (checkOperands _ _ _)
    unfold checkOperands
    split <;> rfl
  | acModelInit | acSetcnt | acSettotal | acInClear | acDecEnd => exact engineCommand_mapHuf rfl
  | acInc | acEncInit | acInByte | acDecInit =>
    refine engineCommand_mapHuf ?_
    dsimp only
    split <;> rfl
  | acEncSym =>
    refine engineCommand_mapHuf ?_
    dsimp only
    split_ifs
    · rfl
    · rfl
    · split
      · rfl
      · split_ifs
        · rfl
        · split <;> rfl
  | acEncFinish =>
    refine engineCommand_mapHuf ?_
    dsimp only
    split
    · rfl
    · split
      · rfl
      · split <;> rfl
  | acDecSym =>
    refine engineCommand_mapHuf ?_
    dsimp only
    split_ifs
    · rfl
    · rfl
    · rfl
    · split
      · rfl
      · split
        · rfl
        · split
          · rfl
          · split_ifs <;> rfl
  | acRd a d =>
    change execAcRd a d _ = mapHuf h (execAcRd a d s)
    unfold execAcRd faultLatch
    dsimp only
    split
    · rfl
    · split_ifs <;> rfl

/-- A result that does not depend on an engine keeps it: the engine may be replaced by itself. -/
theorem ac_eq_of_exec_next {i : Instr} {s t : State} (hunit : unitOf i = some .huf) (h : exec i s = .next t) :
    t.ac = s.ac := by
  have hself : exec i s = mapAc s.ac (exec i s) := exec_mapAc s s.ac hunit
  rw [h] at hself
  have heq : t = { t with ac := s.ac } := Host.Outcome.next.inj hself
  rw [heq]

theorem huf_eq_of_exec_next {i : Instr} {s t : State} (hunit : unitOf i = some .ac) (h : exec i s = .next t) :
    t.huf = s.huf := by
  have hself : exec i s = mapHuf s.huf (exec i s) := exec_mapHuf s s.huf hunit
  rw [h] at hself
  have heq : t = { t with huf := s.huf } := Host.Outcome.next.inj hself
  rw [heq]

/-- Settles O15: replacing the other engine commutes with every command of an engine. -/
theorem enginesAreIndependent : Obligations.EnginesAreIndependent := by
  refine fun i s => ⟨fun hunit => ⟨fun c => exec_mapAc s c hunit, fun t => ac_eq_of_exec_next hunit⟩,
    fun hunit => ⟨fun h => exec_mapHuf s h hunit, fun t => huf_eq_of_exec_next hunit⟩, fun a d t hnop hexec => ?nop,
    fun t hreset hexec => ?resetAll⟩
  case nop =>
    subst hnop
    obtain ⟨code, -, rfl⟩ | rfl := checkOperands_answer_next hexec
    · exact ⟨rfl, rfl⟩
    · exact ⟨rfl, rfl⟩
  case resetAll =>
    subst hreset
    obtain rfl := Host.Outcome.next.inj ((exec_resetAll_eq s).symm.trans hexec)
    exact ⟨hufIsReset_reset, acIsReset_reset⟩

end Sys2Proof.Proofs

/-! SUPPORT. The single commands of the Huffman engine that need no induction: the frequency table, the input buffer, the
start and end of an encode and a decode, the reads (41_huffman_tree.md section 2, 42_huffman_packer.md section 2,
43_huffman_unpacker.md). -/

namespace Sys2Proof.Proofs

open Sys2Proof.Machine Sys2Proof.Statements

/-! ### The frequency table -/

/-- A counter below its limit is incremented without wrapping. -/
theorem toNat_add_one_of_ne_max {w : Nat} {x : BitVec w} (h : x.toNat ≠ 2 ^ w - 1) : (x + 1).toNat = x.toNat + 1 := by
  have hx := x.isLt
  rcases w with _ | w
  · omega
  · have hone : (1 : BitVec (w + 1)).toNat = 1 := by simp
    rw [BitVec.toNat_add, hone, Nat.mod_eq_of_lt (by omega)]

/-- Settles O16: past its checks `HUF_COUNT` tests the limit of one entry and writes it. -/
theorem hufCountIncrementsOneEntry : Obligations.HufCountIncrementsOneEntry := by
  intro a s hfault hmode
  have hexec : exec (.hufCount a 0) s = _ := engineCommand_pass (e := .huf) rfl hfault (beq_iff_eq.mpr hmode)
  refine ⟨fun hmax => hexec.trans (if_pos hmax), fun hne => ?_⟩
  refine ⟨tableWrite s.huf.freq a (tableRead s.huf.freq a + 1), hexec.trans (if_neg hne), ?_, fun b hb => ?_⟩
  · rw [tableRead_tableWrite_same, toNat_add_one_of_ne_max hne]
  · exact tableRead_tableWrite_ne _ _ hb

/-- Settles O17: past its checks `HUF_SETFREQ` writes the low 32 bits of `d`, which are all of it. -/
theorem hufSetfreqWritesOneEntry : Obligations.HufSetfreqWritesOneEntry := by
  intro a d s hfault hmode hd
  refine ⟨tableWrite s.huf.freq a (d.setWidth 32), ?_, ?_, fun b hb => tableRead_tableWrite_ne _ _ hb⟩
  · exact engineCommand_pass (e := .huf) (decide_eq_true hd) hfault (beq_iff_eq.mpr hmode)
  · rw [tableRead_tableWrite_same, BitVec.toNat_setWidth, Nat.mod_eq_of_lt hd]

/-! ### Opening and closing -/

/-- Settles O24: neither command tests anything past its checks. -/
theorem hufEncBeginAndDecEnd : Obligations.HufEncBeginAndDecEnd :=
  ⟨fun _ hfault hmode => engineCommand_huf_pass hfault hmode _, fun _ hfault hmode => engineCommand_huf_pass hfault hmode _⟩

/-- An append that fits, as a test on the result of `appendBytes`. -/
theorem appendBytes_of_fits {cap : Option Nat} {buf bytes : List Byte} (h : fitsCap cap (buf.length + bytes.length) = true) :
    appendBytes cap buf bytes = some (buf ++ bytes) := appendBytes_eq_some.mpr ⟨h, rfl⟩

theorem appendBytes_of_not_fits {cap : Option Nat} {buf bytes : List Byte}
    (h : fitsCap cap (buf.length + bytes.length) = false) : appendBytes cap buf bytes = none := appendBytes_eq_none.mpr h

/-- Settles O27: the append of one byte fits or not. -/
theorem hufInputBufferCommands : Obligations.HufInputBufferCommands := by
  intro s hfault hmode
  have hbyte : ∀ a : Byte, exec (.hufInByte a 0) s = _ := fun a =>
    engineCommand_pass (e := .huf) rfl hfault (bne_iff_ne.mpr hmode)
  refine ⟨fun a hfits => (hbyte a).trans ?_, fun a hfits => (hbyte a).trans ?_, ?_⟩
  · rw [appendBytes_of_fits hfits]; rfl
  · rw [appendBytes_of_not_fits hfits]; rfl
  · exact engineCommand_pass (e := .huf) rfl hfault (bne_iff_ne.mpr hmode)

/-! ### The payload's trailer (43_huffman_unpacker.md R147) -/

theorem payloadBits_concat (data : List Byte) (pad : Byte) :
    payloadBits (data ++ [pad]) =
      if 7 < pad.toNat ∨ (data = [] ∧ pad ≠ 0) then none else some (8 * data.length - pad.toNat) := by
  rw [payloadBits, List.getLast?_concat]
  by_cases h7 : 7 < pad.toNat
  · simp [h7]
  · by_cases hdata : data = [] <;> simp [h7, hdata]

/-- A payload with code bits has a byte for each of them before its padding count. -/
theorem payloadBits_eq_some {ibuf : List Byte} {n : Nat} (h : payloadBits ibuf = some n) :
    ∃ data pad, ibuf = data ++ [pad] ∧ pad.toNat ≤ 7 ∧ n = 8 * data.length - pad.toNat := by
  rcases List.eq_nil_or_concat' ibuf with rfl | ⟨data, pad, rfl⟩
  · cases h
  · rw [payloadBits_concat] at h
    split at h
    · cases h
    next hok =>
      rw [not_or, not_lt] at hok
      exact ⟨data, pad, rfl, hok.1, (Option.some.inj h).symm⟩

/-- Settles O28: the payload is empty or ends in its padding count. -/
theorem hufDecBeginReadsTheTrailer : Obligations.HufDecBeginReadsTheTrailer := by
  intro s hfault hmode
  have hexec : exec (.hufDecBegin 0 0) s = _ := engineCommand_huf_pass hfault hmode _
  refine ⟨fun hnil => ?empty, fun data pad hbuf => ⟨fun hbad => ?malformed, fun hpad hdata hlen => ?opens⟩⟩
  case empty => rw [hexec, hnil]; rfl
  case malformed => rw [hexec, hbuf, payloadBits_concat, if_pos hbad]; rfl
  case opens =>
    have hok : ¬ (7 < pad.toNat ∨ (data = [] ∧ pad ≠ 0)) := by
      rintro (h7 | ⟨hnil, hne⟩)
      · omega
      · exact hne (hdata hnil)
    have hcount : count64 (8 * data.length - pad.toNat) = BitVec.ofNat 64 (8 * data.length - pad.toNat) :=
      count64_of_lt (by omega)
    rw [hexec, hbuf, payloadBits_concat, if_neg hok]
    dsimp only
    rw [hcount]
    rfl

/-! ### The reads (43_huffman_unpacker.md R158) -/

/-- A concatenation as a number. -/
theorem toNat_append_eq {v w : Nat} (x : BitVec v) (y : BitVec w) : (x ++ y).toNat = 2 ^ w * x.toNat + y.toNat := by
  rw [BitVec.toNat_append, ← Nat.shiftLeft_add_eq_or_of_lt y.isLt, Nat.shiftLeft_eq, mul_comm]

theorem hufStatusWord_eq (h : HufState) :
    hufStatusWord h = BitVec.ofNat 64 (256 * h.fault.toNat + (hufModeCode h.mode).toNat) := by
  apply BitVec.eq_of_toNat_eq
  simp only [hufStatusWord, BitVec.toNat_setWidth, toNat_append_eq, BitVec.ofNat_eq_ofNat, BitVec.toNat_ofNat]
  omega

theorem packNode_eq (n : HufNode) :
    packNode n = BitVec.ofNat 64
      (if n.v then 1 + 2 * n.leaf.toNat + 2 ^ 2 * n.left.toNat + 2 ^ 11 * n.right.toNat + 2 ^ 20 * n.w.toNat else 0) := by
  unfold packNode
  split
  next hv =>
    apply BitVec.eq_of_toNat_eq
    simp only [BitVec.toNat_setWidth, toNat_append_eq, BitVec.toNat_ofNat, BitVec.toNat_ofBool, hv, Bool.toNat_true]
    omega
  · rfl

theorem rootWord_eq (h : HufState) :
    ((h.nint ++ h.root).setWidth 64 : Word) = BitVec.ofNat 64 (h.root.toNat + 2 ^ 9 * h.nint.toNat) := by
  apply BitVec.eq_of_toNat_eq
  simp only [BitVec.toNat_setWidth, toNat_append_eq, BitVec.toNat_ofNat]
  omega

/-- A byte as an index and back. -/
theorem setWidth_setWidth_byte (b : Byte) : (b.setWidth 64).setWidth 8 = b := by
  rw [BitVec.setWidth_setWidth_of_le b (by decide), BitVec.setWidth_eq]

theorem toNat_setWidth_byte (b : Byte) : (b.setWidth 64).toNat = b.toNat :=
  (BitVec.toNat_setWidth ..).trans (Nat.mod_eq_of_lt (b.isLt.trans (by decide)))

/-- `codeBit` reads the bits of `codeOf`. -/
theorem codeBit_eq (t : CodeTable) (b : Byte) (i : Nat) : codeBit t b i = ((codeOf t b)[i]?).getD false := by
  rw [codeBit, codeOf, List.getElem?_map]
  by_cases hi : i < (tableRead t.clen b).toNat
  · rw [List.getElem?_range hi]; simp [hi]
  · rw [List.getElem?_eq_none (by simpa using hi)]; simp [hi]

/-- Bit `63 - i` of the number of a 64-bit string is its bit `i`. -/
theorem getLsbD_ofNat_bitsToNat {f : Nat → Bool} {i : Nat} (hi : i < 64) :
    (BitVec.ofNat 64 (bitsToNat ((List.range 64).map f))).getLsbD (63 - i) = f i := by
  have hbit := testBit_bitsToNat ((List.range 64).map f) (i := i) (by simpa using hi)
  rw [List.getElem_map, List.getElem_range, List.length_map, List.length_range] at hbit
  rw [BitVec.getLsbD_ofNat, hbit, decide_eq_true (by omega), Bool.true_and]

/-- The index of `HUF_RD 5`: the byte in bits 7:0, the part of the code in bits 9:8. -/
theorem codeWord_getLsbD (t : CodeTable) (b : Byte) {k i : Nat} (hk : k < 4) (hi : i < 64) :
    (codeWord t (BitVec.ofNat 64 (b.toNat + 256 * k))).getLsbD (63 - i) = ((codeOf t b)[64 * k + i]?).getD false := by
  have hb := b.isLt
  have hbyte : (BitVec.ofNat 64 (b.toNat + 256 * k)).extractLsb' 0 8 = b := by
    apply BitVec.eq_of_toNat_eq
    simp only [BitVec.extractLsb'_toNat, BitVec.toNat_ofNat, Nat.shiftRight_eq_div_pow]
    omega
  have hpart : ((BitVec.ofNat 64 (b.toNat + 256 * k)).extractLsb' 8 2).toNat = k := by
    simp only [BitVec.extractLsb'_toNat, BitVec.toNat_ofNat, Nat.shiftRight_eq_div_pow]
    omega
  simp only [codeWord, hbyte, hpart]
  rw [getLsbD_ofNat_bitsToNat hi, codeBit_eq]

/-- A read of the Huffman engine whose checks pass answers its item. -/
theorem exec_hufRd_answers {s : State} {sel : HufSel} {d : Word} (hfault : s.huf.fault = 0)
    (hmode : hufSelModeOk sel s.huf.mode = true) (hindex : hufSelIndexOk s.huf d sel = true) :
    exec (.hufRd (hufSelCode sel) d) s = .next (replied s .ok (hufSelValue s.huf d sel)) :=
  (exec_hufRd_pass d (.inl hfault) hmode).trans (if_pos hindex)

/-- An index that fits 64 bits, of an entry of a buffer. -/
theorem toNat_ofNat_word {i : Nat} (hi : i < 2 ^ 64) : (BitVec.ofNat 64 i).toNat = i :=
  (BitVec.toNat_ofNat ..).trans (Nat.mod_eq_of_lt hi)

/-- Settles O33: each selector past its checks, with its item in the form of R158. -/
theorem hufRdReturnsTheItem : Obligations.HufRdReturnsTheItem := by
  refine ⟨fun s => hufStatusWord_eq s.huf ▸ exec_hufRd_status s, fun s hfault => ⟨fun b => ?freq, fun hmode i hi n hn => ?node,
    fun hmode => ?root, fun hmode b => ⟨?clen, fun k hk => ?cword⟩, fun hmode => ⟨fun hlen => ?outLen, fun i b hi hb => ?out⟩,
    fun hlen => ?inLen, fun hmode => ⟨?nbits, ?cur⟩⟩⟩
  case freq =>
    have hindex : (b.setWidth 64).toNat < 256 := toNat_setWidth_byte b ▸ b.isLt
    have hread := exec_hufRd_answers (sel := .freq) hfault rfl (decide_eq_true hindex)
    rwa [hufSelValue, setWidth_setWidth_byte] at hread
  case node =>
    have hindex : (BitVec.ofNat 64 i).toNat = i := toNat_ofNat_word (by omega)
    have hread := exec_hufRd_answers (sel := .node) (d := BitVec.ofNat 64 i) hfault (bne_iff_ne.mpr hmode)
      (decide_eq_true (hindex.trans_lt hi))
    rwa [hufSelValue, hindex, packNode_eq, ← nodeAt, ← hn] at hread
  case root => exact rootWord_eq s.huf ▸ exec_hufRd_answers (sel := .root) hfault (bne_iff_ne.mpr hmode) rfl
  case clen =>
    have hindex : (b.setWidth 64).toNat < 256 := toNat_setWidth_byte b ▸ b.isLt
    have hread := exec_hufRd_answers (sel := .clen) hfault (by simpa [hufSelModeOk, or_assoc] using hmode)
      (decide_eq_true hindex)
    rwa [hufSelValue, setWidth_setWidth_byte] at hread
  case cword =>
    have hindex : (BitVec.ofNat 64 (b.toNat + 256 * k)).toNat < 2 ^ 10 := by
      have hb := b.isLt
      rw [toNat_ofNat_word (by omega)]; omega
    exact ⟨_, exec_hufRd_answers (sel := .cword) hfault (by simpa [hufSelModeOk, or_assoc] using hmode)
      (decide_eq_true hindex), fun i hi => codeWord_getLsbD s.huf.code b hk hi⟩
  case outLen =>
    exact count64_of_lt hlen ▸ exec_hufRd_answers (sel := .outLen) hfault (beq_iff_eq.mpr hmode) rfl
  case out =>
    have hindex : (BitVec.ofNat 64 i).toNat = i := toNat_ofNat_word hi
    obtain ⟨hlt, -⟩ := List.getElem?_eq_some_iff.mp hb
    have hread := exec_hufRd_answers (sel := .out) (d := BitVec.ofNat 64 i) hfault (beq_iff_eq.mpr hmode)
      (decide_eq_true (hindex.trans_lt hlt))
    rwa [hufSelValue, hindex, hb] at hread
  case inLen => exact count64_of_lt hlen ▸ exec_hufRd_answers (sel := .inLen) hfault rfl rfl
  case nbits => exact exec_hufRd_answers (sel := .nbits) hfault (beq_iff_eq.mpr hmode) rfl
  case cur => exact exec_hufRd_answers (sel := .cur) hfault (beq_iff_eq.mpr hmode) rfl

end Sys2Proof.Proofs

/-! SUPPORT. The probability table and the single commands of the arithmetic coder that need no renormalisation: the model
port with the cumulative counts (44_ac_model_port.md), the start of an encode and a decode, the input buffer, the reads
(45_ac_encoder.md section 1, 47_ac_decoder.md sections 1, 2 and 4). -/

namespace Sys2Proof.Proofs

open Sys2Proof.Machine Sys2Proof.Statements

/-! ### Cumulative counts (R170) -/

theorem cum_eq_sum (cnt : Vector (BitVec 32) 256) (s : Nat) : cum cnt s = ((cnt.toList.take s).map BitVec.toNat).sum := by
  rw [cum, List.sum_eq_foldl, List.foldl_map]

@[simp] theorem cum_zero (cnt : Vector (BitVec 32) 256) : cum cnt 0 = 0 := rfl

/-- `cum` grows by the count of each symbol. -/
theorem cum_succ (cnt : Vector (BitVec 32) 256) (b : Byte) :
    cum cnt (b.toNat + 1) = cum cnt b.toNat + (tableRead cnt b).toNat := by
  rw [cum_eq_sum, cum_eq_sum, List.take_add_one, tableRead_eq_toList]
  simp

theorem cum_256 (cnt : Vector (BitVec 32) 256) : cum cnt 256 = (cnt.toList.map BitVec.toNat).sum := by
  rw [cum_eq_sum, List.take_of_length_le (by simp)]

/-- A statement about every entry of a table, as one about its list. -/
theorem forall_mem_toList_iff {α : Type} {t : Vector α 256} {p : α → Prop} :
    (∀ x ∈ t.toList, p x) ↔ ∀ b : Byte, p (tableRead t b) := by
  constructor
  · exact fun h b => h _ (List.mem_of_getElem? (tableRead_eq_toList t b))
  · intro h x hx
    obtain ⟨i, hi, rfl⟩ := List.getElem_of_mem hx
    have hi' : i < 256 := by simpa using hi
    have hread := h (BitVec.ofNat 8 i)
    simpa [tableRead, Nat.mod_eq_of_lt hi'] using hread

theorem tableValid_iff {cnt : Vector (BitVec 32) 256} {total : BitVec 40} :
    tableValid cnt total = true ↔ (∀ b : Byte, 1 ≤ (tableRead cnt b).toNat) ∧ total.toNat = cum cnt 256 := by
  rw [tableValid, Bool.and_eq_true, List.all_eq_true, decide_eq_true_iff]
  simp only [decide_eq_true_iff]
  exact and_congr_left' (forall_mem_toList_iff (p := fun c : BitVec 32 => 1 ≤ c.toNat))

/-- In a valid table the cumulative counts grow strictly. -/
theorem cum_lt_cum {cnt : Vector (BitVec 32) 256} (hpos : ∀ b : Byte, 1 ≤ (tableRead cnt b).toNat) {i j : Nat}
    (hij : i < j) (hj : j ≤ 256) : cum cnt i < cum cnt j := by
  have hstep : ∀ k < 256, cum cnt k < cum cnt (k + 1) := fun k hk => by
    have hsucc := cum_succ cnt (BitVec.ofNat 8 k)
    have hcount := hpos (BitVec.ofNat 8 k)
    rw [show (BitVec.ofNat 8 k).toNat = k from (BitVec.toNat_ofNat ..).trans (Nat.mod_eq_of_lt hk)] at hsucc
    omega
  induction j, hij using Nat.le_induction with
  | base => exact hstep i (by omega)
  | succ j hij ih => exact (ih (by omega)).trans (hstep j (by omega))

/-- A valid table has a total of at least 1 for each symbol. -/
theorem le_cum {cnt : Vector (BitVec 32) 256} (hpos : ∀ b : Byte, 1 ≤ (tableRead cnt b).toNat) {j : Nat} (hj : j ≤ 256) :
    j ≤ cum cnt j := by
  induction j with
  | zero => exact Nat.zero_le _
  | succ j ih =>
    have hlt := cum_lt_cum hpos (Nat.lt_add_one j) hj
    have := ih (by omega)
    omega

/-- 256 counts of 32 bits. -/
theorem cum_256_le (cnt : Vector (BitVec 32) 256) : cum cnt 256 ≤ 256 * (2 ^ 32 - 1) := by
  have hle : ∀ c ∈ cnt.toList.map BitVec.toNat, c ≤ 2 ^ 32 - 1 := by
    simp only [List.forall_mem_map]
    intro c _
    have := c.isLt
    omega
  have hsum := List.sum_le_card_nsmul _ _ hle
  rw [cum_256]
  simpa using hsum

/-- Settles O38: the equations of `cum`, and its strict growth in a valid table. -/
theorem tableValidityAndCumulativeCounts : Obligations.TableValidityAndCumulativeCounts := by
  refine fun cnt total => ⟨?iff, cum_zero cnt, cum_succ cnt, fun hvalid => ?bounds⟩
  case iff => rw [tableValid_iff, cum_256]
  case bounds =>
    obtain ⟨hpos, htotal⟩ := tableValid_iff.mp hvalid
    rw [htotal]
    exact ⟨rfl, le_cum hpos le_rfl, cum_256_le cnt, fun i j hij hj => cum_lt_cum hpos hij hj⟩

/-! ### The model port -/

/-- Settles O35: 256 counts of 1. -/
theorem acModelInitIsLaplace : Obligations.AcModelInitIsLaplace :=
  fun _ hfault => ⟨Vector.replicate 256 1, engineCommand_pass (e := .ac) rfl hfault rfl, tableRead_replicate 1⟩

/-- Settles O36: the operand fits its field, so no bit of it is dropped. -/
theorem acSetcntAndSettotalWrite : Obligations.AcSetcntAndSettotalWrite := by
  refine fun s hfault => ⟨fun a d hd => ?count, fun d hd => ?total⟩
  case count =>
    refine ⟨tableWrite s.ac.cnt a (d.setWidth 32), engineCommand_pass (e := .ac) (decide_eq_true hd) hfault rfl, ?_,
      fun b hb => tableRead_tableWrite_ne _ _ hb⟩
    rw [tableRead_tableWrite_same, BitVec.toNat_setWidth, Nat.mod_eq_of_lt hd]
  case total =>
    have hops : usesTotal 0 d = true := (Bool.and_eq_true _ _).mpr ⟨rfl, decide_eq_true hd⟩
    refine ⟨d.setWidth 40, engineCommand_pass (e := .ac) hops hfault rfl, ?_⟩
    rw [BitVec.toNat_setWidth, Nat.mod_eq_of_lt hd]

/-- Writing one count changes the sum by the difference. -/
theorem cum_256_tableWrite (cnt : Vector (BitVec 32) 256) (a : Byte) (x : BitVec 32) :
    cum (tableWrite cnt a x) 256 + (tableRead cnt a).toNat = cum cnt 256 + x.toNat := by
  have hlen : a.toNat < (cnt.toList.map BitVec.toNat).length := by simpa using a.isLt
  have hread : (cnt.toList.map BitVec.toNat)[a.toNat]? = some (tableRead cnt a).toNat := by
    rw [List.getElem?_map, tableRead_eq_toList]; rfl
  have hnew : (tableWrite cnt a x).toList.map BitVec.toNat = (cnt.toList.map BitVec.toNat).set a.toNat x.toNat := by
    rw [tableWrite, Vector.toList_set, List.map_set]
  have hold : (cnt.toList.map BitVec.toNat).set a.toNat (tableRead cnt a).toNat = cnt.toList.map BitVec.toNat :=
by
    obtain ⟨hlt, hget⟩ := List.getElem?_eq_some_iff.mp hread
    rw [← hget, List.set_getElem_self]
  rw [cum_256, cum_256, hnew, ← hold, List.set_set, List.sum_set, List.sum_set, if_pos hlen, if_pos hlen]
  omega

/-- Settles O37: below both limits neither increment wraps, so the sum and the total grow together. -/
theorem acIncIncrementsCountAndTotal : Obligations.AcIncIncrementsCountAndTotal := by
  intro a s hfault
  have hexec : exec (.acInc a 0) s = _ := engineCommand_pass (e := .ac) rfl hfault rfl
  refine ⟨fun hmax => hexec.trans (if_pos (by simpa using hmax)), fun hcount htotal => ?_⟩
  have hbelow : ¬ (decide ((tableRead s.ac.cnt a).toNat = 2 ^ 32 - 1) || decide (s.ac.total.toNat = 2 ^ 40 - 1)) = true := by
    rw [decide_eq_false hcount, decide_eq_false htotal]; nofun
  have hcnt : (tableRead s.ac.cnt a + 1).toNat = _ := toNat_add_one_of_ne_max hcount
  have htot : (s.ac.total + 1).toNat = _ := toNat_add_one_of_ne_max htotal
  refine ⟨tableWrite s.ac.cnt a (tableRead s.ac.cnt a + 1), s.ac.total + 1, hexec.trans (if_neg hbelow),
    by rw [tableRead_tableWrite_same, hcnt], htot, fun b hb => tableRead_tableWrite_ne _ _ hb, fun hvalid => ?_⟩
  obtain ⟨hpos, hsum⟩ := tableValid_iff.mp hvalid
  have hwrite := cum_256_tableWrite s.ac.cnt a (tableRead s.ac.cnt a + 1)
  refine tableValid_iff.mpr ⟨fun b => ?_, by omega⟩
  by_cases hb : b = a
  · rw [hb, tableRead_tableWrite_same]; omega
  · rw [tableRead_tableWrite_ne _ _ hb]; exact hpos b

/-! ### The start of an encode and of a decode -/

/-- The two modes from which a stream can be opened. -/
theorem idle_or_done_of {m : AcMode} (h : m = .idle ∨ m = .done) : (m == .idle || m == .done) = true := by
  obtain rfl | rfl := h <;> rfl

/-- Settles O39: the 8-byte placeholder fits or not. -/
theorem acEncInitOpensAnEncode : Obligations.AcEncInitOpensAnEncode := by
  intro s hfault hmode
  have hexec : exec (.acEncInit 0 0) s = _ := engineCommand_pass (e := .ac) rfl hfault (idle_or_done_of hmode)
  have happend : appendBytes s.params.outCap [] (List.replicate 8 0) =
      if fitsCap s.params.outCap 8 then some [0, 0, 0, 0, 0, 0, 0, 0] else none := rfl
  refine ⟨fun hfits => hexec.trans ?_, fun hfits => hexec.trans ?_⟩
  · rw [happend, hfits]; rfl
  · rw [happend, hfits]; rfl

/-- The first byte of a number is its most significant. -/
theorem unBe64_cons (b : Byte) (bytes : List Byte) : unBe64 (b :: bytes) = b.toNat * 256 ^ bytes.length + unBe64 bytes := by
  induction bytes using List.reverseRecOn with
  | nil => simp [unBe64]
  | append_singleton bytes c ih =>
    have hconcat : ∀ bs : List Byte, unBe64 (bs ++ [c]) = 256 * unBe64 bs + c.toNat := fun bs => List.foldl_concat ..
    rw [← List.cons_append, hconcat, hconcat, ih, List.length_append, List.length_singleton, pow_succ]
    ring

theorem unBe64_eq_sum (bytes : List Byte) :
    unBe64 bytes = ((List.range bytes.length).map fun i =>
      ((bytes[i]?).getD 0).toNat * 256 ^ (bytes.length - 1 - i)).sum := by
  induction bytes with
  | nil => rfl
  | cons b bytes ih =>
    rw [unBe64_cons, ih, List.length_cons, List.range_succ_eq_map, List.map_cons, List.sum_cons, List.map_map]
    refine congrArg _ (congrArg List.sum (List.map_congr_left fun i _ => ?_))
    rw [Function.comp_apply, List.getElem?_cons_succ, show bytes.length + 1 - 1 - i.succ = bytes.length - 1 - i by omega]

/-- The header of 8 bytes as a number, most significant byte first (20_memory.md R68). -/
theorem unBe64_take_eight {ibuf : List Byte} (h : 8 ≤ ibuf.length) :
    unBe64 (ibuf.take 8) = ((List.range 8).map fun i => ((ibuf[i]?).getD 0).toNat * 2 ^ (8 * (7 - i))).sum := by
  rw [unBe64_eq_sum, List.length_take_of_le h]
  refine congrArg List.sum (List.map_congr_left fun i hi => ?_)
  rw [List.getElem?_take_of_lt (List.mem_range.mp hi), show 256 = 2 ^ 8 from rfl, ← pow_mul]

theorem unBe64_lt (bytes : List Byte) : unBe64 bytes < 256 ^ bytes.length := by
  induction bytes using List.reverseRecOn with
  | nil => exact Nat.one_pos
  | append_singleton bytes b ih =>
    have hb := b.isLt
    have hconcat : unBe64 (bytes ++ [b]) = 256 * unBe64 bytes + b.toNat := by rw [unBe64, List.foldl_concat]; rfl
    rw [hconcat, List.length_append, List.length_singleton, pow_succ]
    omega

theorem abit_eq (ibuf : List Byte) (k : Nat) :
    abit ibuf k = ((ibuf[8 + k / 8]?).map fun b => b.getLsbD (7 - k % 8)).getD false := by
  rw [abit, bitAt, show (64 + k) / 8 = 8 + k / 8 by omega, show (64 + k) % 8 = k % 8 by omega]

/-- Settles O49: the header and the first 64 bits fit their registers. -/
theorem acDecInitReadsHeaderAndValue : Obligations.AcDecInitReadsHeaderAndValue := by
  intro s hfault hmode
  have hexec : exec (.acDecInit 0 0) s = _ := engineCommand_pass (e := .ac) rfl hfault (idle_or_done_of hmode)
  refine ⟨fun hshort => hexec.trans (if_pos hshort), fun hlen => ?_⟩
  refine ⟨BitVec.ofNat 64 (unBe64 (s.ac.ibuf.take 8)), firstValue s.ac.ibuf, hexec.trans (if_neg (not_lt.mpr hlen)), ?_,
    fun k hk => ?_⟩
  · have hlt := unBe64_lt (s.ac.ibuf.take 8)
    rw [List.length_take_of_le hlen] at hlt
    rw [toNat_ofNat_word hlt, unBe64_take_eight hlen]
  · rw [firstValue, getLsbD_ofNat_bitsToNat hk, abit_eq]

/-! ### The input buffer and the end of a decode -/

/-- Settles O48: the append of one byte fits or not; the other two commands test nothing past their checks. -/
theorem acInputBufferCommandsAndDecEnd : Obligations.AcInputBufferCommandsAndDecEnd := by
  refine ⟨fun s hfault hmode => ?_, fun s hfault hmode => engineCommand_pass (e := .ac) rfl hfault (beq_iff_eq.mpr hmode)⟩
  have hbyte : ∀ a : Byte, exec (.acInByte a 0) s = _ := fun a =>
    engineCommand_pass (e := .ac) rfl hfault (bne_iff_ne.mpr hmode)
  refine ⟨fun a hfits => (hbyte a).trans ?_, fun a hfits => (hbyte a).trans ?_, ?_⟩
  · rw [appendBytes_of_fits hfits]; rfl
  · rw [appendBytes_of_not_fits hfits]; rfl
  · exact engineCommand_pass (e := .ac) rfl hfault (bne_iff_ne.mpr hmode)

/-- Settles O31: with nothing left both decoders answer before they read their tables. -/
theorem endMarkerChangesNothing : Obligations.EndMarkerChangesNothing := by
  refine ⟨fun s hfault hmode hend => ?huf, fun s hfault hmode hend => ?ac⟩
  case huf =>
    have hexec : exec (.hufDecSym 0 0) s = _ := engineCommand_huf_pass hfault hmode _
    exact hexec.trans (if_pos hend)
  case ac =>
    have hexec : exec (.acDecSym 0 0) s = _ := engineCommand_pass (e := .ac) rfl hfault (beq_iff_eq.mpr hmode)
    exact hexec.trans (if_pos hend)

/-! ### The reads (47_ac_decoder.md R218) -/

theorem acStatusWord_eq (c : AcState) :
    acStatusWord c = BitVec.ofNat 64 (256 * c.fault.toNat + (acModeCode c.mode).toNat) := by
  apply BitVec.eq_of_toNat_eq
  simp only [acStatusWord, BitVec.toNat_setWidth, toNat_append_eq, BitVec.ofNat_eq_ofNat, BitVec.toNat_ofNat]
  omega

/-- A read of the arithmetic coder whose checks pass answers its item. -/
theorem exec_acRd_answers {s : State} {sel : AcSel} {d : Word} (hfault : s.ac.fault = 0)
    (hmode : acSelModeOk sel s.ac.mode = true) (hindex : acSelIndexOk s.ac d sel = true) :
    exec (.acRd (acSelCode sel) d) s = .next (replied s .ok (acSelValue s.ac d sel)) :=
  (exec_acRd_pass d (.inl hfault) hmode).trans (if_pos hindex)

/-- Settles O55: each selector past its checks. -/
theorem acRdReturnsTheItem : Obligations.AcRdReturnsTheItem := by
  refine ⟨fun s => acStatusWord_eq s.ac ▸ exec_acRd_status s, fun s hfault => ?_⟩
  refine ⟨exec_acRd_answers (sel := .low) hfault rfl rfl, exec_acRd_answers (sel := .high) hfault rfl rfl,
    exec_acRd_answers (sel := .pending) hfault rfl rfl, exec_acRd_answers (sel := .value) hfault rfl rfl, fun b => ?cnt,
    exec_acRd_answers (sel := .total) hfault rfl rfl, fun hmode => ⟨fun hlen => ?outLen, fun i b hi hb => ?out⟩,
    fun hlen => ?inLen, exec_acRd_answers (sel := .nsym) hfault rfl rfl, exec_acRd_answers (sel := .remain) hfault rfl rfl,
    exec_acRd_answers (sel := .cur) hfault rfl rfl⟩
  case cnt =>
    have hindex : (b.setWidth 64).toNat < 256 := toNat_setWidth_byte b ▸ b.isLt
    have hread := exec_acRd_answers (sel := .cnt) hfault rfl (decide_eq_true hindex)
    rwa [acSelValue, setWidth_setWidth_byte] at hread
  case outLen => exact count64_of_lt hlen ▸ exec_acRd_answers (sel := .outLen) hfault (beq_iff_eq.mpr hmode) rfl
  case out =>
    have hindex : (BitVec.ofNat 64 i).toNat = i := toNat_ofNat_word hi
    obtain ⟨hlt, -⟩ := List.getElem?_eq_some_iff.mp hb
    have hread := exec_acRd_answers (sel := .out) (d := BitVec.ofNat 64 i) hfault (beq_iff_eq.mpr hmode)
      (decide_eq_true (hindex.trans_lt hlt))
    rwa [acSelValue, hindex, hb] at hread
  case inLen => exact count64_of_lt hlen ▸ exec_acRd_answers (sel := .inLen) hfault rfl rfl

end Sys2Proof.Proofs

/-! SUPPORT. The bit packer (42_huffman_packer.md R130 to R132): the string of bits that a packer and its buffer hold, what
pushing and flushing do to it, and when the bytes fit. The commands that only pack: `HUF_ENC_SYM`, `HUF_ENC_END`,
`AC_ENC_FINISH`. -/

namespace Sys2Proof.Proofs

open Sys2Proof.Machine Sys2Proof.Statements

/-! ### Bits of bytes -/

/-- The low `n` bits of a byte, most significant first: what a packer with `N = n` holds (10_state.md R30). -/
def heldBits (acc : Byte) (n : Nat) : List Bool := (List.range n).map fun i => acc.getLsbD (n - 1 - i)

@[simp] theorem length_heldBits (acc : Byte) (n : Nat) : (heldBits acc n).length = n := by simp [heldBits]

theorem getElem?_heldBits (acc : Byte) {n i : Nat} (hi : i < n) : (heldBits acc n)[i]? = some (acc.getLsbD (n - 1 - i)) := by
  simp [heldBits, hi]

theorem byteBits_eq_heldBits (b : Byte) : byteBits b = heldBits b 8 := rfl

theorem packedBits_eq (pk : Packer) (out : List Byte) :
    packedBits pk out = out.flatMap byteBits ++ heldBits pk.acc pk.n.toNat := rfl

@[simp] theorem length_flatMap_byteBits (out : List Byte) : (out.flatMap byteBits).length = 8 * out.length := by
  induction out with
  | nil => rfl
  | cons b out ih =>
    rw [List.flatMap_cons, List.length_append, ih, byteBits_eq_heldBits, length_heldBits, List.length_cons]
    ring

/-- `bitAt` counts the bits of the bytes one after the other (20_memory.md R65). -/
theorem bitAt_eq (buf : List Byte) (k : Nat) : bitAt buf k = (buf.flatMap byteBits)[k]? := by
  induction buf generalizing k with
  | nil => rfl
  | cons b buf ih =>
    rw [List.flatMap_cons, byteBits_eq_heldBits]
    by_cases hk : k < 8
    · rw [List.getElem?_append_left (by simpa using hk), getElem?_heldBits b hk, bitAt, Nat.div_eq_of_lt hk,
        Nat.mod_eq_of_lt hk]
      rfl
    · obtain ⟨j, rfl⟩ : ∃ j, k = j + 8 := ⟨k - 8, by omega⟩
      rw [List.getElem?_append_right (by simp), length_heldBits, Nat.add_sub_cancel, ← ih, bitAt, bitAt,
        Nat.add_div_right j (by decide), Nat.add_mod_right, List.getElem?_cons_succ]

/-! ### Pushing -/

/-- The byte after a bit has been shifted in (R130). -/
theorem getLsbD_shiftIn (acc : Byte) (b : Bool) {j : Nat} (hj : j < 8) :
    ((acc <<< 1) ||| (BitVec.ofBool b).setWidth 8).getLsbD j = if j = 0 then b else acc.getLsbD (j - 1) := by
  rw [BitVec.getLsbD_or, BitVec.getLsbD_shiftLeft, BitVec.getLsbD_setWidth, BitVec.getLsbD_ofBool]
  by_cases hzero : j = 0
  · simp [hzero]
  · have hone : ¬ j < 1 := by omega
    simp [hzero, hj]

theorem heldBits_shiftIn (acc : Byte) (b : Bool) {n : Nat} (hn : n < 8) :
    heldBits ((acc <<< 1) ||| (BitVec.ofBool b).setWidth 8) (n + 1) = heldBits acc n ++ [b] := by
  rw [heldBits, List.range_succ, List.map_append, List.map_singleton, getLsbD_shiftIn acc b (by omega), if_pos (by omega)]
  refine congrArg (· ++ [b]) (List.map_congr_left fun i hi => ?_)
  have hi := List.mem_range.mp hi
  rw [getLsbD_shiftIn acc b (by omega), if_neg (by omega), show n + 1 - 1 - i - 1 = n - 1 - i by omega]

/-- A pushed bit is appended to the bit string. -/
theorem packedBits_pushBit {cap : Option Nat} {p q : PackState} {b : Bool} (h : pushBit cap p b = some q) :
    packedBits q.pk q.out = packedBits p.pk p.out ++ [b] := by
  rw [packedBits_eq, packedBits_eq]
  obtain ⟨hlt, hn, hout, hacc⟩ | ⟨h8, hpk, -, hout⟩ := pushBit_cases h
  · rw [hn, hout, hacc, heldBits_shiftIn _ _ (by omega), List.append_assoc]
  · have hbyte := heldBits_shiftIn p.pk.acc b (n := p.pk.n.toNat) (by omega)
    rw [h8] at hbyte
    rw [hout, List.flatMap_append, List.flatMap_singleton, byteBits_eq_heldBits, hbyte, hpk]
    exact List.append_nil _ |>.trans (List.append_assoc ..).symm

/-- A pushed string is appended to the bit string (R132). -/
theorem packedBits_pushBits {cap : Option Nat} {p q : PackState} {bits : List Bool} (h : pushBits cap p bits = some q) :
    packedBits q.pk q.out = packedBits p.pk p.out ++ bits := by
  induction bits generalizing p with
  | nil => obtain rfl := Option.some.inj h; rw [List.append_nil]
  | cons b bits ih =>
    obtain ⟨r, hr, hq⟩ := pushBits_cons_eq_some.mp h
    rw [ih hq, packedBits_pushBit hr, List.append_assoc, List.singleton_append]

/-- A packer that completes its last byte with the last bit of a string is empty. -/
theorem pk_eq_empty_of_pushBits {cap : Option Nat} {p q : PackState} {bits : List Bool} (h : pushBits cap p bits = some q)
    (hne : bits ≠ []) (hn : q.pk.n.toNat = 0) : q.pk = Packer.empty := by
  obtain ⟨bits, b, rfl⟩ := (List.eq_nil_or_concat' bits).resolve_left hne
  obtain ⟨r, -, hr⟩ := pushBits_append_eq_some.mp h
  obtain ⟨r', hr', hnil⟩ := pushBits_cons_eq_some.mp hr
  obtain rfl := Option.some.inj hnil
  obtain ⟨-, hsucc, -⟩ | ⟨-, hempty, -⟩ := pushBit_cases hr'
  · omega
  · exact hempty

/-! ### When the bytes fit -/

/-- The bytes that a string completes fit, so it is pushed. -/
theorem exists_pushBits {cap : Option Nat} {p : PackState} {bits : List Bool}
    (h : Room cap p.out.length ((p.pk.n.toNat + bits.length) / 8)) : ∃ q, pushBits cap p bits = some q := by
  induction bits generalizing p with
  | nil => exact ⟨p, rfl⟩
  | cons b bits ih =>
    have hn := p.pk.n.isLt
    rw [List.length_cons] at h
    cases hpush : pushBit cap p b with
    | none =>
      obtain ⟨h7, hfull⟩ := pushBit_eq_none.mp hpush
      have hfits := fitsCap_mono (h.resolve_left (by omega)) (m := p.out.length + 1) (by omega)
      exact absurd (hfits.symm.trans hfull) nofun
    | some r =>
      have hroom : Room cap r.out.length ((r.pk.n.toNat + bits.length) / 8) := by
        obtain ⟨-, hrn, hout, -⟩ | ⟨h8, hpk, -, hout⟩ := pushBit_cases hpush
        · rwa [hrn, hout, add_assoc, add_comm 1]
        · have hrn : r.pk.n.toNat = 0 := by rw [hpk]; rfl
          have hfits := h.resolve_left (by omega)
          rw [hrn, hout, List.length_append, List.length_singleton]
          refine or_iff_not_imp_left.mpr fun _ => ?_
          rwa [show p.out.length + 1 + (0 + bits.length) / 8 = p.out.length + (p.pk.n.toNat + (bits.length + 1)) / 8 by omega]
      obtain ⟨q, hq⟩ := ih hroom
      exact ⟨q, pushBits_cons_eq_some.mpr ⟨r, hpush, hq⟩⟩

/-- A string is pushed only where the bytes that it completes fit. -/
theorem room_of_pushBits {cap : Option Nat} {p q : PackState} {bits : List Bool} (h : pushBits cap p bits = some q) :
    Room cap p.out.length ((p.pk.n.toNat + bits.length) / 8) := by
  obtain ⟨-, ⟨new, hout, hlen⟩, hsame | hfits⟩ := pushBits_counts h
  · have hnil : new = [] := List.self_eq_append_right.mp (hsame.symm.trans hout)
    exact .inl (by rw [← hlen, hnil]; rfl)
  · rw [hout, List.length_append, hlen] at hfits
    exact .inr hfits

theorem pushBits_eq_none {cap : Option Nat} {p : PackState} {bits : List Bool}
    (h : ¬ Room cap p.out.length ((p.pk.n.toNat + bits.length) / 8)) : pushBits cap p bits = none :=
  Option.eq_none_iff_forall_ne_some.mpr fun _ hq => h (room_of_pushBits hq)

/-! ### Flushing (R131) -/

/-- The padding of a packer, as the spec's statements write it. -/
theorem padCount_eq (pk : Packer) : padCount pk = (8 - pk.n.toNat) % 8 := by
  have hn := pk.n.isLt
  rw [padCount]
  split
  next hzero => rw [hzero]; rfl
  next hne =>
    have hpos : pk.n.toNat ≠ 0 := fun h => hne (BitVec.eq_of_toNat_eq h)
    omega

/-- The completed byte: the held bits, then zeros. -/
theorem byteBits_shiftLeft (acc : Byte) {n : Nat} (hn : n ≤ 8) :
    byteBits (acc <<< (8 - n)) = heldBits acc n ++ List.replicate (8 - n) false := by
  refine List.ext_getElem? fun i => ?_
  rw [byteBits_eq_heldBits]
  by_cases hi : i < 8
  · rw [getElem?_heldBits _ hi, BitVec.getLsbD_shiftLeft]
    by_cases hin : i < n
    · rw [List.getElem?_append_left (by simpa using hin), getElem?_heldBits _ hin, show 8 - 1 - i - (8 - n) = n - 1 - i by omega,
        decide_eq_true (show 8 - 1 - i < 8 by omega), decide_eq_false (show ¬ 8 - 1 - i < 8 - n by omega)]
      rfl
    · rw [List.getElem?_append_right (by simpa using hin), length_heldBits, List.getElem?_replicate, if_pos (by omega),
        decide_eq_true (show 8 - 1 - i < 8 - n by omega)]
      simp
  · rw [List.getElem?_eq_none (by simpa using hi), List.getElem?_eq_none (by simp; omega)]

/-- A flush appends the padding to the bit string, and all of it is in the buffer. -/
theorem flatMap_byteBits_flushPacker {cap : Option Nat} {p q : PackState} (h : flushPacker cap p = some q) :
    q.out.flatMap byteBits = packedBits p.pk p.out ++ List.replicate (padCount p.pk) false := by
  have hn := p.pk.n.isLt
  rw [packedBits_eq]
  obtain ⟨hzero, rfl⟩ | ⟨hne, -, -, hout⟩ := flushPacker_cases h
  · rw [padCount, if_pos hzero, hzero]
    exact ((List.append_nil _).trans (List.append_nil _)).symm
  · rw [hout, List.flatMap_append, List.flatMap_singleton, padCount, if_neg hne, byteBits_shiftLeft _ (by omega),
      List.append_assoc]

theorem length_flushPacker {cap : Option Nat} {p q : PackState} (h : flushPacker cap p = some q) :
    q.out.length = p.out.length + (p.pk.n.toNat + 7) / 8 := by
  have hn := p.pk.n.isLt
  obtain ⟨hzero, rfl⟩ | ⟨hne, -, -, hout⟩ := flushPacker_cases h
  · rw [hzero]; rfl
  · have hpos : p.pk.n.toNat ≠ 0 := fun h => hne (BitVec.eq_of_toNat_eq h)
    rw [hout, List.length_append, List.length_singleton]
    omega

/-- A packer without a held bit has nothing to flush, and one that its invariant calls empty is. -/
theorem pk_eq_empty_of_packerOk {pk : Packer} (h : PackerOk pk) (hn : pk.n.toNat = 0) : pk = Packer.empty := by
  obtain ⟨acc, n⟩ := pk
  have hzero : n = 0 := BitVec.eq_of_toNat_eq hn
  subst hzero
  have hacc : acc = 0 := BitVec.eq_of_toNat_eq (Nat.lt_one_iff.mp h)
  rw [hacc]
  rfl

/-- Settles O23: the string pushed is the string held, in the buffer's new bytes and then in the packer. -/
theorem packerFacts : Obligations.PackerFacts := by
  intro cap out bits p h
  obtain ⟨hn, ⟨new, hout, hlen⟩, -⟩ := pushBits_counts h
  have hzero : Packer.empty.n.toNat = 0 := rfl
  simp only [hzero, Nat.zero_add] at hn hlen hout
  have hbits : new.flatMap byteBits ++ heldBits p.pk.acc p.pk.n.toNat = bits := by
    have hpacked := packedBits_pushBits h
    rw [packedBits_eq, packedBits_eq, hout, List.flatMap_append, List.append_assoc, hzero] at hpacked
    rw [List.append_assoc] at hpacked
    exact List.append_cancel_left hpacked
  refine ⟨new, hout, hlen, hn, fun j hj => ?complete, fun j hj => ?held, ?pad, fun q hq => ⟨?empty, ?length⟩⟩
  case complete =>
    have hj' : j < (new.flatMap byteBits).length := by rw [length_flatMap_byteBits]; omega
    calc bits[j]? = (new.flatMap byteBits)[j]? := by rw [← hbits, List.getElem?_append_left hj']
      _ = bitAt new j := (bitAt_eq new j).symm
  case held =>
    have hpos : (new.flatMap byteBits).length = 8 * (bits.length / 8) := by rw [length_flatMap_byteBits, hlen]
    calc bits[8 * (bits.length / 8) + j]?
        = (new.flatMap byteBits ++ heldBits p.pk.acc p.pk.n.toNat)[8 * (bits.length / 8) + j]? := by rw [hbits]
      _ = (heldBits p.pk.acc p.pk.n.toNat)[j]? := by
        rw [List.getElem?_append_right (by omega), hpos, Nat.add_sub_cancel_left]
      _ = some (p.pk.acc.getLsbD (bits.length % 8 - 1 - j)) := by rw [hn, getElem?_heldBits _ hj]
  case pad => rw [padCount_eq, hn]
  case empty =>
    obtain ⟨hq0, rfl⟩ | ⟨-, hempty, -⟩ := flushPacker_cases hq
    · by_cases hne : bits = []
      · subst hne; exact (Option.some.inj h) ▸ rfl
      · exact pk_eq_empty_of_pushBits h hne (congrArg BitVec.toNat hq0)
    · exact hempty
  case length => rw [length_flushPacker hq, hout, List.length_append, hlen, hn]; omega

/-! ### `HUF_ENC_SYM` and `HUF_ENC_END` -/

@[simp] theorem length_codeOf (t : CodeTable) (b : Byte) : (codeOf t b).length = (tableRead t.clen b).toNat := by
  simp [codeOf]

/-- Settles O25: the code is pushed where its bytes fit. -/
theorem hufEncSymAppendsTheCode : Obligations.HufEncSymAppendsTheCode := by
  intro a s hfault hmode
  have hexec : exec (.hufEncSym a 0) s = _ := engineCommand_pass (e := .huf) rfl hfault (beq_iff_eq.mpr hmode)
  have hcoded : (tableRead s.huf.code.clen a).toNat ≠ 0 → tableRead s.huf.code.clen a ≠ 0 := fun h hzero =>
    h (congrArg BitVec.toNat hzero)
  refine ⟨fun hlen => ?noCode, fun hlen hroom => ?full, fun hlen hroom => ?fits⟩
  case noCode => exact hexec.trans (if_pos (BitVec.eq_of_toNat_eq hlen))
  case full =>
    rw [← length_codeOf] at hroom
    rw [hexec, if_neg (hcoded hlen), pushBits_eq_none (p := { pk := s.huf.pk, out := s.huf.obuf }) hroom]
    rfl
  case fits =>
    rw [← length_codeOf] at hroom
    obtain ⟨q, hq⟩ := exists_pushBits (p := { pk := s.huf.pk, out := s.huf.obuf }) hroom
    obtain ⟨hn, ⟨new, hout, hnew⟩, -⟩ := pushBits_counts hq
    refine ⟨q.pk, q.out, ?_, packedBits_pushBits hq, ?_, ⟨new, hout⟩, ?_⟩
    · rw [hexec, if_neg (hcoded hlen), hq]; rfl
    · rw [hout, List.length_append, hnew, length_codeOf]
    · rw [hn, length_codeOf]

/-- A flush appends the held bits, completed with zeros, if their byte fits. -/
theorem flushPacker_eq (cap : Option Nat) (p : PackState) :
    flushPacker cap p =
      if p.pk.n.toNat = 0 then some p
      else if fitsCap cap (p.out.length + 1) then
        some { pk := Packer.empty, out := p.out ++ [p.pk.acc <<< ((8 - p.pk.n.toNat) % 8)] }
      else none := by
  have hiff : p.pk.n = 0 ↔ p.pk.n.toNat = 0 := ⟨congrArg BitVec.toNat, fun h => BitVec.eq_of_toNat_eq h⟩
  rw [flushPacker]
  simp only [hiff, padCount_eq]
  split
  · rfl
  · rw [appendBytes, List.length_singleton]
    split <;> rfl

/-- Settles O26: the flush and the append of the padding count, with and without held bits. -/
theorem hufEncEndClosesThePayload : Obligations.HufEncEndClosesThePayload := by
  intro s hfault hmode
  have hexec : exec (.hufEncEnd 0 0) s = _ := engineCommand_huf_pass hfault hmode _
  dsimp only at hexec
  rw [flushPacker_eq, padCount_eq] at hexec
  dsimp only at hexec ⊢
  by_cases hn : s.huf.pk.n.toNat = 0
  · simp only [if_pos hn, List.nil_append] at hexec ⊢
    refine ⟨fun hfull => hexec.trans ?_, fun hfits => hexec.trans ?_, fun hok => pk_eq_empty_of_packerOk hok hn⟩
    · rw [appendBytes_of_not_fits hfull]; rfl
    · rw [appendBytes_of_fits hfits]; rfl
  · simp only [if_neg hn, List.singleton_append] at hexec ⊢
    refine ⟨fun hfull => hexec.trans ?_, fun hfits => hexec.trans ?_, fun _ => trivial⟩
    · split
      · rfl
      next q hq =>
        split at hq
        · obtain rfl := Option.some.inj hq
          rw [appendBytes_of_not_fits (by simpa using hfull)]; rfl
        · cases hq
    · rw [if_pos (fitsCap_mono hfits (by simp))]
      dsimp only
      rw [appendBytes_of_fits (by simpa using hfits), List.append_assoc]; rfl

/-! ### `AC_ENC_FINISH` -/

/-- `BE64` has 8 bytes. -/
@[simp] theorem length_be64 (n : Word) : (be64 n).length = 8 := by simp [be64]

/-- The bytes of a number in base 256, most significant first, give the number back. -/
theorem unBe64_map_range (n k : Nat) :
    unBe64 ((List.range k).map fun i => BitVec.ofNat 8 (n / 256 ^ (k - 1 - i))) = n % 256 ^ k := by
  induction k with
  | zero => simp [unBe64, Nat.mod_one]
  | succ k ih =>
    have htail : (List.range k).map ((fun i => BitVec.ofNat 8 (n / 256 ^ (k + 1 - 1 - i))) ∘ Nat.succ) =
        (List.range k).map fun i => BitVec.ofNat 8 (n / 256 ^ (k - 1 - i)) :=
      List.map_congr_left fun i _ => by
        rw [Function.comp_apply, show k + 1 - 1 - i.succ = k - 1 - i by omega]
    rw [List.range_succ_eq_map, List.map_cons, List.map_map, htail, unBe64_cons, ih, List.length_map, List.length_range,
      Nat.mod_pow_succ, BitVec.toNat_ofNat, Nat.add_sub_cancel, Nat.sub_zero, add_comm, mul_comm]

/-- `unBE64` is the inverse of `BE64` (00_scope.md R12). -/
theorem unBe64_be64 (n : Word) : unBe64 (be64 n) = n.toNat := by
  have hbytes : be64 n = (List.range 8).map fun i => BitVec.ofNat 8 (n.toNat / 256 ^ (8 - 1 - i)) :=
    List.map_congr_left fun i _ => by
      rw [BitVec.extractLsb', Nat.shiftRight_eq_div_pow, pow_mul]; rfl
  have hlt : n.toNat < 256 ^ 8 := n.isLt
  rw [hbytes, unBe64_map_range, Nat.mod_eq_of_lt hlt]

/-- A string that is not empty is pushed and flushed where the completed bytes fit; the packer is empty then. -/
theorem exists_pushBits_flushPacker {cap : Option Nat} {p : PackState} {bits : List Bool} (hne : bits ≠ [])
    (hfits : fitsCap cap (p.out.length + (p.pk.n.toNat + bits.length + 7) / 8) = true) :
    ∃ q q', pushBits cap p bits = some q ∧ flushPacker cap q = some q' ∧ q'.pk = Packer.empty ∧
      q'.out.length = p.out.length + (p.pk.n.toNat + bits.length + 7) / 8 ∧
      q'.out.flatMap byteBits =
        packedBits p.pk p.out ++ bits ++ List.replicate ((8 - (p.pk.n.toNat + bits.length) % 8) % 8) false := by
  obtain ⟨q, hq⟩ := exists_pushBits (p := p) (bits := bits) (.inr (fitsCap_mono hfits (by omega)))
  obtain ⟨hn, ⟨new, hout, hnew⟩, -⟩ := pushBits_counts hq
  have hqlen : q.out.length = p.out.length + (p.pk.n.toNat + bits.length) / 8 := by rw [hout, List.length_append, hnew]
  have hflush : ∃ q', flushPacker cap q = some q' ∧ q'.pk = Packer.empty := by
    rw [flushPacker_eq]
    by_cases hzero : q.pk.n.toNat = 0
    · exact ⟨q, if_pos hzero, pk_eq_empty_of_pushBits hq hne hzero⟩
    · exact ⟨_, (if_neg hzero).trans (if_pos (fitsCap_mono hfits (by omega))), rfl⟩
  obtain ⟨q', hq', hempty⟩ := hflush
  refine ⟨q, q', hq, hq', hempty, ?_, ?_⟩
  · rw [length_flushPacker hq', hqlen, hn]; omega
  · rw [flatMap_byteBits_flushPacker hq', packedBits_pushBits hq, padCount_eq, hn]

/-- A string is pushed and flushed only where the completed bytes fit. -/
theorem fits_of_pushBits_flushPacker {cap : Option Nat} {p q q' : PackState} {bits : List Bool}
    (hq : pushBits cap p bits = some q) (hq' : flushPacker cap q = some q') (hpos : 0 < bits.length) :
    fitsCap cap (p.out.length + (p.pk.n.toNat + bits.length + 7) / 8) = true := by
  obtain ⟨hn, ⟨new, hout, hnew⟩, -⟩ := pushBits_counts hq
  have hqlen : q.out.length = p.out.length + (p.pk.n.toNat + bits.length) / 8 := by rw [hout, List.length_append, hnew]
  obtain ⟨hzero, -⟩ | ⟨hne, -, hfits, -⟩ := flushPacker_cases hq'
  · have hq0 : q.pk.n.toNat = 0 := congrArg BitVec.toNat hzero
    have hfits := (room_of_pushBits hq).resolve_left (by omega)
    rwa [show (p.pk.n.toNat + bits.length + 7) / 8 = (p.pk.n.toNat + bits.length) / 8 by omega]
  · have hq0 : q.pk.n.toNat ≠ 0 := fun h => hne (BitVec.eq_of_toNat_eq h)
    rwa [show p.out.length + (p.pk.n.toNat + bits.length + 7) / 8 = q.out.length + 1 by omega]

/-- Settles O47: the finish bits are pushed and flushed where the archive fits, and the header gets the count. -/
theorem acEncFinishClosesTheArchive : Obligations.AcEncFinishClosesTheArchive := by
  intro s hfault hmode hlen8 b bits total len
  have hexec : exec (.acEncFinish 0 0) s = _ := engineCommand_pass (e := .ac) rfl hfault (beq_iff_eq.mpr hmode)
  rw [if_neg (not_lt.mpr hlen8)] at hexec
  have hbits : finishBits s.ac.low.toNat s.ac.pending.toNat s.params.acFlushExtra = bits := rfl
  rw [hbits] at hexec
  refine ⟨fun hfull => hexec.trans ?_, fun hfits hlen => ?_⟩
  · split
    · rfl
    next q hq =>
      split
      · rfl
      next q' hq' => exact absurd ((fits_of_pushBits_flushPacker hq hq' Nat.succ_pos').symm.trans hfull) nofun
  · obtain ⟨q, q', hq, hq', hempty, hlen', hout⟩ :=
      exists_pushBits_flushPacker (p := { pk := s.ac.pk, out := s.ac.obuf }) (List.cons_ne_nil _ _) hfits
    have harchive : (be64 s.ac.nsym ++ q'.out.drop 8).length = len :=
      (header_length (by rw [hlen']; dsimp only; omega)).trans hlen'
    refine ⟨q'.out, be64 s.ac.nsym, ?_, hlen', hout, length_be64 _, unBe64_be64 _⟩
    rw [hexec, hq]
    dsimp only
    rw [hq']
    dsimp only
    rw [harchive, count64_of_lt hlen, hempty]
    rfl

end Sys2Proof.Proofs

/-! SUPPORT. What the loops of the renormalization unit return (46_renorm_unit.md section 4): a normalised interval, after as
many steps in the decoder as in the encoder, each of which doubles the range and keeps a value inside. -/

namespace Sys2Proof.Proofs

open Sys2Proof.Machine Sys2Proof.Statements

/-! ### The interval on return -/

/-- The stop case is the normalised interval (10_state.md R46). -/
theorem intervalOk_iff_stop {low high : Nat} : IntervalOk low high ↔ rnuCase low high = .stop := by
  rw [rnuCase_eq_stop_iff]
  exact ⟨fun ⟨hlow, hhigh, hmid⟩ => ⟨hhigh, hlow, hmid⟩, fun ⟨hhigh, hlow, hmid⟩ => ⟨hlow, hhigh, hmid⟩⟩

/-- With enough steps the encoder's loop ends in the stop case, inside the 64 bits. -/
theorem EnoughSteps.rnuEncLoop_stops {n low high : Nat} (h : EnoughSteps n low high) (p : Nat) :
    IntervalOk (rnuEncLoop n low high p).low (rnuEncLoop n low high p).high ∧ (rnuEncLoop n low high p).high ≤ maxV := by
  induction n generalizing low high p with
  | zero => exact ⟨intervalOk_iff_stop.mpr h.rnuCase_eq_stop, h.bounded⟩
  | succ n ih =>
    by_cases hc : rnuCase low high = .stop
    · rw [rnuEncLoop_of_stop _ _ hc]
      exact ⟨intervalOk_iff_stop.mpr hc, h.bounded⟩
    · rw [rnuEncLoop_succ_of_ne_stop _ _ hc]
      exact ih (h.step hc) _

/-- On return the interval is normalised (R197). -/
theorem rnuEnc_intervalOk {low high : Nat} (hle : low ≤ high) (hmax : high ≤ maxV) (p : Nat) :
    IntervalOk (rnuEnc low high p).low (rnuEnc low high p).high ∧ (rnuEnc low high p).high ≤ maxV :=
  (enoughSteps_sixtyFour hle hmax).rnuEncLoop_stops p

/-- A normalised interval has more than a quarter of the full range. -/
theorem intervalOk_range {low high : Nat} (h : IntervalOk low high) : low ≤ high ∧ 2 ^ 62 + 1 ≤ high - low + 1 := by
  obtain ⟨hlow, hhigh, hmid⟩ := h
  simp only [half, quarter, threeQuarter] at *
  omega

/-- Settles O44: the stop case, spelt out. -/
theorem rnuNormalises : Obligations.RnuNormalises := by
  intro low high p hle hmax
  obtain ⟨hok, hbound⟩ := rnuEnc_intervalOk hle hmax p
  dsimp only
  generalize hr : rnuEnc low high p = r at *
  obtain ⟨hordered, hrange⟩ := intervalOk_range hok
  obtain ⟨hlow, hhigh, hmid⟩ := hok
  refine ⟨hordered, hbound, hlow, hhigh, hmid, ?quarters, hrange, ?step, fun hstop => ?stop⟩
  case quarters =>
    simp only [half, quarter, threeQuarter] at hlow hhigh hmid
    omega
  case step =>
    rintro c rfl
    by_cases hc : rnuCase low high = .stop
    · rw [hc]; simp only [stepLow, stepHigh, rnuOff]; omega
    · exact (rnuCase_step_doubles hle hmax hc).1
  case stop =>
    obtain rfl : r = _ := hr.symm.trans (rnuEncLoop_of_stop 64 p hstop)
    exact ⟨rfl, rfl, rfl, rfl⟩

/-! ### The number of steps -/

/-- The bits of a step and the pending bits after it are one more than the pending bits before it (R193). -/
theorem length_stepBits_add_stepPending {c : RnuCase} (hc : c ≠ .stop) (p : Nat) :
    (stepBits c p).length + stepPending c p = p + 1 := by
  cases c with
  | e1 | e2 => simp [stepBits, stepPending]
  | e3 => simp [stepBits, stepPending]
  | stop => exact absurd rfl hc

/-- Encoder and decoder take the same `k` steps from an interval (R197). -/
theorem EnoughSteps.exists_steps {n low high : Nat} (h : EnoughSteps n low high) :
    ∃ k ≤ n, ∀ p,
      (rnuEncLoop n low high p).high + 1 - (rnuEncLoop n low high p).low = 2 ^ k * (high + 1 - low) ∧
      (rnuEncLoop n low high p).bits.length + (rnuEncLoop n low high p).pending = p + k ∧
      ∀ ibuf v c, (rnuDecLoop ibuf n low high v c).low = (rnuEncLoop n low high p).low ∧
        (rnuDecLoop ibuf n low high v c).high = (rnuEncLoop n low high p).high ∧
        (rnuDecLoop ibuf n low high v c).cur = c + k := by
  induction n generalizing low high with
  | zero => exact ⟨0, le_rfl, fun p => ⟨(Nat.one_mul _).symm, Nat.zero_add _, fun _ _ _ => ⟨rfl, rfl, rfl⟩⟩⟩
  | succ n ih =>
    by_cases hc : rnuCase low high = .stop
    · refine ⟨0, Nat.zero_le _, fun p => ?_⟩
      simp only [rnuEncLoop_of_stop _ _ hc, rnuDecLoop_of_stop _ _ _ _ hc]
      exact ⟨(Nat.one_mul _).symm, Nat.zero_add _, fun _ _ _ => ⟨trivial, trivial, rfl⟩⟩
    · obtain ⟨k, hk, hsteps⟩ := ih (h.step hc)
      obtain ⟨-, -, hdouble⟩ := rnuCase_step_doubles h.ordered h.bounded hc
      refine ⟨k + 1, Nat.succ_le_succ hk, fun p => ?_⟩
      obtain ⟨hrange, hbits, hdec⟩ := hsteps (stepPending (rnuCase low high) p)
      rw [rnuEncLoop_succ_of_ne_stop _ _ hc]
      refine ⟨?_, ?_, fun ibuf v c => ?_⟩
      · rw [hdouble] at hrange
        rw [hrange, pow_succ, mul_assoc]
      · have hone := length_stepBits_add_stepPending hc p
        dsimp only
        rw [List.length_append]
        omega
      · obtain ⟨hlow, hhigh, hcur⟩ := hdec ibuf (stepValue (rnuCase low high) v (abit ibuf c)) (c + 1)
        rw [rnuDecLoop_succ_of_ne_stop _ _ _ _ hc]
        exact ⟨hlow, hhigh, by rw [hcur]; omega⟩

/-- The calls of both units from one interval (R197). -/
theorem exists_rnu_steps {low high : Nat} (hle : low ≤ high) (hmax : high ≤ maxV) :
    ∃ k ≤ 64, ∀ p,
      (rnuEnc low high p).high + 1 - (rnuEnc low high p).low = 2 ^ k * (high + 1 - low) ∧
      (rnuEnc low high p).bits.length + (rnuEnc low high p).pending = p + k ∧
      ∀ ibuf v c, (rnuDec ibuf low high v c).low = (rnuEnc low high p).low ∧
        (rnuDec ibuf low high v c).high = (rnuEnc low high p).high ∧ (rnuDec ibuf low high v c).cur = c + k :=
  (enoughSteps_sixtyFour hle hmax).exists_steps

/-- Settles O45: the common number of steps. -/
theorem rnuDoublesAtMostSixtyFourTimes : Obligations.RnuDoublesAtMostSixtyFourTimes := by
  intro low high p hle hmax
  obtain ⟨k, hk, hsteps⟩ := exists_rnu_steps hle hmax
  obtain ⟨hrange, hbits, hdec⟩ := hsteps p
  obtain ⟨hok, -⟩ := rnuEnc_intervalOk hle hmax p
  obtain ⟨hordered, -⟩ := intervalOk_range hok
  refine ⟨k, hk, ?_, by omega, by omega, hdec⟩
  rw [show high - low + 1 = high + 1 - low by omega, ← hrange]
  omega

/-! ### The value -/

/-- A step keeps the value inside the interval, whatever bit it shifts in (R194). -/
theorem stepValue_mem {low high v : Nat} (hlow : low ≤ v) (hhigh : v ≤ high) (bit : Bool) :
    stepLow (rnuCase low high) low ≤ stepValue (rnuCase low high) v bit ∧
      stepValue (rnuCase low high) v bit ≤ stepHigh (rnuCase low high) high := by
  have hbit := bit.toNat_lt
  simp only [stepLow, stepHigh, stepValue]
  omega

theorem rnuDecLoop_value_mem (ibuf : List Byte) (n : Nat) {low high v : Nat} (c : Nat) (hlow : low ≤ v) (hhigh : v ≤ high) :
    (rnuDecLoop ibuf n low high v c).low ≤ (rnuDecLoop ibuf n low high v c).value ∧
      (rnuDecLoop ibuf n low high v c).value ≤ (rnuDecLoop ibuf n low high v c).high := by
  induction n generalizing low high v c with
  | zero => exact ⟨hlow, hhigh⟩
  | succ n ih =>
    by_cases hc : rnuCase low high = .stop
    · rw [rnuDecLoop_of_stop _ _ _ _ hc]
      exact ⟨hlow, hhigh⟩
    · obtain ⟨hlow', hhigh'⟩ := stepValue_mem hlow hhigh (abit ibuf c)
      rw [rnuDecLoop_succ_of_ne_stop _ _ _ _ hc]
      exact ih _ hlow' hhigh'

/-- The value stays inside through a call of the decoder's unit (R197). -/
theorem rnuDec_value_mem (ibuf : List Byte) {low high v : Nat} (c : Nat) (hlow : low ≤ v) (hhigh : v ≤ high) :
    (rnuDec ibuf low high v c).low ≤ (rnuDec ibuf low high v c).value ∧
      (rnuDec ibuf low high v c).value ≤ (rnuDec ibuf low high v c).high :=
  rnuDecLoop_value_mem ibuf 64 c hlow hhigh

/-- Settles O46. -/
theorem rnuKeepsTheValueInside : Obligations.RnuKeepsTheValueInside :=
  fun ibuf _ _ _ c hlow hhigh _ => rnuDec_value_mem ibuf c hlow hhigh

end Sys2Proof.Proofs

/-! SUPPORT. Narrowing and its inverse (45_ac_encoder.md section 2, 47_ac_decoder.md section 3): the sub-interval of a symbol,
the target of a value, the symbol of a target; what `AC_ENC_SYM` and `AC_DEC_SYM` do from a coding state. -/

namespace Sys2Proof.Proofs

open Sys2Proof.Machine Sys2Proof.Statements

/-! ### Narrowing -/

/-- Where the range has at least one point for each count, narrowing gives a non-empty sub-interval. -/
theorem narrow_spec {low high cl ch total : Nat} (hle : low ≤ high) (hpos : 0 < total) (hrange : total ≤ high - low + 1)
    (hcl : cl < ch) (hch : ch ≤ total) :
    narrow low high cl ch total = some (narrowLow low high cl total, narrowHigh low high ch total) ∧
      narrowLow low high cl total ≤ narrowHigh low high ch total ∧ low ≤ narrowLow low high cl total ∧
      narrowHigh low high ch total ≤ high ∧ narrowHigh low high ch total + 1 = narrowLow low high ch total := by
  have hr : high + 1 - low = high - low + 1 := by omega
  have hstep : (high - low + 1) * cl / total + 1 ≤ (high - low + 1) * ch / total := by
    rw [← Nat.add_div_right _ hpos]
    refine Nat.div_le_div_right ?_
    calc (high - low + 1) * cl + total ≤ (high - low + 1) * cl + (high - low + 1) := by omega
      _ = (high - low + 1) * (cl + 1) := by ring
      _ ≤ (high - low + 1) * ch := Nat.mul_le_mul_left _ hcl
  have htop : (high - low + 1) * ch / total ≤ high - low + 1 :=
    Nat.div_le_of_le_mul (mul_comm total (high - low + 1) ▸ Nat.mul_le_mul_left _ hch)
  unfold narrow narrowLow narrowHigh
  simp only [hr]
  generalize (high - low + 1) * cl / total = dl at *
  generalize (high - low + 1) * ch / total = dh at *
  rw [if_pos ⟨hle, by omega⟩]
  exact ⟨rfl, by omega, by omega, by omega, by omega⟩

/-- The total of a valid table: positive, and below the range of a normalised interval (R179). -/
theorem total_bounds {cnt : Vector (BitVec 32) 256} {total : BitVec 40} (hvalid : tableValid cnt total = true) {low high : Nat}
    (hok : IntervalOk low high) : 0 < total.toNat ∧ total.toNat ≤ high - low + 1 := by
  obtain ⟨hpos, htotal⟩ := tableValid_iff.mp hvalid
  obtain ⟨-, hrange⟩ := intervalOk_range hok
  have hmin := le_cum hpos le_rfl
  have hmax := cum_256_le cnt
  omega

/-- The counts below and up to a symbol of a valid table. -/
theorem cum_bounds {cnt : Vector (BitVec 32) 256} {total : BitVec 40} (hvalid : tableValid cnt total = true) (b : Byte) :
    cum cnt b.toNat < cum cnt (b.toNat + 1) ∧ cum cnt (b.toNat + 1) ≤ total.toNat := by
  obtain ⟨hpos, htotal⟩ := tableValid_iff.mp hvalid
  have hb := b.isLt
  refine ⟨cum_lt_cum hpos (Nat.lt_succ_self _) hb, ?_⟩
  rw [htotal]
  obtain heq | hlt := Nat.eq_or_lt_of_le (show b.toNat + 1 ≤ 256 from hb)
  · rw [heq]
  · exact (cum_lt_cum hpos hlt le_rfl).le

/-- The sub-interval of a symbol of a valid table, in a normalised interval (R179). -/
theorem narrow_symbol {cnt : Vector (BitVec 32) 256} {total : BitVec 40} {low high : Nat}
    (hvalid : tableValid cnt total = true) (hok : IntervalOk low high) (b : Byte) :
    narrow low high (cum cnt b.toNat) (cum cnt (b.toNat + 1)) total.toNat =
        some (narrowLow low high (cum cnt b.toNat) total.toNat, narrowHigh low high (cum cnt (b.toNat + 1)) total.toNat) ∧
      narrowLow low high (cum cnt b.toNat) total.toNat ≤ narrowHigh low high (cum cnt (b.toNat + 1)) total.toNat ∧
      low ≤ narrowLow low high (cum cnt b.toNat) total.toNat ∧
      narrowHigh low high (cum cnt (b.toNat + 1)) total.toNat ≤ high ∧
      narrowHigh low high (cum cnt (b.toNat + 1)) total.toNat + 1 = narrowLow low high (cum cnt (b.toNat + 1)) total.toNat := by
  obtain ⟨hpos, hrange⟩ := total_bounds hvalid hok
  obtain ⟨hcl, hch⟩ := cum_bounds hvalid b
  exact narrow_spec (intervalOk_range hok).1 hpos hrange hcl hch

/-- Settles O41: neighbouring sub-intervals share a scaled count, the first is 0 and the last is the range. -/
theorem narrowingTilesTheInterval : Obligations.NarrowingTilesTheInterval := by
  intro cnt total low high hvalid hok hmax
  obtain ⟨hpos, -⟩ := total_bounds hvalid hok
  obtain ⟨hle, -⟩ := intervalOk_range hok
  obtain ⟨-, htotal⟩ := tableValid_iff.mp hvalid
  refine ⟨fun b => ?_, ?_, ?_⟩
  · obtain ⟨hnarrow, hne, hlow, hhigh, htile⟩ := narrow_symbol hvalid hok b
    exact ⟨hnarrow, hne, hlow, hhigh, hhigh.trans hmax, fun _ => htile⟩
  · rw [narrowLow, cum_zero, Nat.mul_zero, Nat.zero_div, Nat.add_zero]
  · rw [narrowHigh, ← htotal, Nat.mul_div_cancel _ hpos]
    omega

/-! ### The target (R212) -/

theorem targetOf_of_lt {low high value total : Nat} (hlt : value < low) :
    targetOf low high value total = none := by
  have hneg : ((value : Int) - low + 1) * total ≤ 0 :=
    Int.mul_nonpos_of_nonpos_of_nonneg (by omega) (Int.natCast_nonneg total)
  rw [targetOf]
  exact if_pos (by omega)

theorem targetOf_of_le {low high value total : Nat} (hle : low ≤ high) (hpos : 0 < total) (hlow : low ≤ value) :
    targetOf low high value total = some (((value - low + 1) * total - 1) / (high - low + 1)) := by
  have hcast : ((value : Int) - low + 1) * total = ((value - low + 1) * total : Nat) := by
    push_cast [Nat.cast_sub hlow]
    ring
  have hnum : 0 < (value - low + 1) * total := Nat.mul_pos (Nat.succ_pos _) hpos
  rw [targetOf]
  simp only [hcast]
  rw [if_neg (by omega), show high + 1 - low = high - low + 1 by omega,
    show (((value - low + 1) * total : Nat) - 1 : Int).toNat = (value - low + 1) * total - 1 by omega]

/-- A value at or above a scaled count has a target at or above the count. -/
theorem narrowLow_le_iff {low high value cl total : Nat} (hpos : 0 < total) (hlow : low ≤ value) :
    narrowLow low high cl total ≤ value ↔ cl ≤ ((value - low + 1) * total - 1) / (high - low + 1) := by
  have hnum : 0 < (value - low + 1) * total := Nat.mul_pos (Nat.succ_pos _) hpos
  calc narrowLow low high cl total ≤ value ↔ (high - low + 1) * cl / total < value - low + 1 := by
        rw [narrowLow]; omega
    _ ↔ (high - low + 1) * cl < (value - low + 1) * total := Nat.div_lt_iff_lt_mul hpos
    _ ↔ cl * (high - low + 1) ≤ (value - low + 1) * total - 1 := by rw [mul_comm cl]; omega
    _ ↔ cl ≤ ((value - low + 1) * total - 1) / (high - low + 1) := (Nat.le_div_iff_mul_le (Nat.succ_pos _)).symm

/-- A value below the next scaled count has a target below the count. -/
theorem le_narrowHigh_iff {low high value ch total : Nat} (hpos : 0 < total) (hlow : low ≤ value)
    (hne : 0 < (high - low + 1) * ch / total) :
    value ≤ narrowHigh low high ch total ↔ ((value - low + 1) * total - 1) / (high - low + 1) < ch := by
  have hnum : 0 < (value - low + 1) * total := Nat.mul_pos (Nat.succ_pos _) hpos
  calc value ≤ narrowHigh low high ch total ↔ value - low + 1 ≤ (high - low + 1) * ch / total := by
        rw [narrowHigh]; omega
    _ ↔ (value - low + 1) * total ≤ (high - low + 1) * ch := Nat.le_div_iff_mul_le hpos
    _ ↔ (value - low + 1) * total - 1 < ch * (high - low + 1) := by rw [mul_comm ch]; omega
    _ ↔ ((value - low + 1) * total - 1) / (high - low + 1) < ch := (Nat.div_lt_iff_lt_mul (Nat.succ_pos _)).symm

/-- A value inside the interval has a target inside the table. -/
theorem target_lt {low high value total : Nat} (hpos : 0 < total) (hlow : low ≤ value) (hhigh : value ≤ high) :
    ((value - low + 1) * total - 1) / (high - low + 1) < total := by
  rw [Nat.div_lt_iff_lt_mul (show 0 < high - low + 1 from Nat.succ_pos _), mul_comm total]
  have hnum : 0 < (value - low + 1) * total := Nat.mul_pos (Nat.succ_pos _) hpos
  have hle : (value - low + 1) * total ≤ (high - low + 1) * total := Nat.mul_le_mul_right _ (by omega)
  omega

/-- Settles O50: the two comparisons of the target are those of the value, cleared of the division. -/
theorem targetInvertsNarrowing : Obligations.TargetInvertsNarrowing := by
  intro low high value total hle hpos
  refine ⟨targetOf_of_lt, fun hlow => ⟨_, targetOf_of_le hle hpos hlow, rfl, fun hhigh => ?_,
    fun cl ch lo hi hcl hch hnarrow => ?_⟩⟩
  · exact Nat.le_sub_one_of_lt (target_lt hpos hlow hhigh)
  · obtain ⟨-, hlt, hlo, hhi, -⟩ := narrow_eq_some hnarrow
    have hr : high + 1 - low = high - low + 1 := by omega
    rw [hr] at hlt hlo hhi
    rw [hlo, hhi]
    exact ⟨narrowLow_le_iff hpos hlow, le_narrowHigh_iff hpos hlow (Nat.zero_lt_of_lt hlt)⟩

/-! ### The symbol of a target (R213) -/

/-- The scan finds the entry whose cumulative counts enclose the target. -/
theorem scanSymbol_spec (target : Nat) (cs : List (BitVec 32)) (s : Nat) {acc : Nat} (hacc : acc ≤ target)
    (hlt : target < acc + (cs.map BitVec.toNat).sum) :
    ∃ i < cs.length, scanSymbol target cs s acc = some (s + i) ∧
      acc + ((cs.take i).map BitVec.toNat).sum ≤ target ∧ target < acc + ((cs.take (i + 1)).map BitVec.toNat).sum := by
  induction cs generalizing s acc with
  | nil => exact absurd hlt (not_lt.mpr hacc)
  | cons c cs ih =>
    rw [List.map_cons, List.sum_cons] at hlt
    rw [scanSymbol]
    by_cases hc : target < acc + c.toNat
    · exact ⟨0, Nat.succ_pos _, if_pos hc, hacc, by simpa using hc⟩
    · obtain ⟨i, hi, hscan, hle, hlt'⟩ := ih (s + 1) (acc := acc + c.toNat) (not_lt.mp hc) (by omega)
      refine ⟨i + 1, Nat.succ_lt_succ hi, ?_, ?_, ?_⟩
      · rw [if_neg hc, hscan, add_right_comm, add_assoc]
      · rw [List.take_succ_cons, List.map_cons, List.sum_cons, ← add_assoc]; exact hle
      · rw [List.take_succ_cons, List.map_cons, List.sum_cons, ← add_assoc]; exact hlt'

/-- A target inside the table has a symbol. -/
theorem findSymbol_spec {cnt : Vector (BitVec 32) 256} {target : Nat} (h : target < cum cnt 256) :
    ∃ sym : Byte, findSymbol cnt target = some sym.toNat ∧ cum cnt sym.toNat ≤ target ∧ target < cum cnt (sym.toNat + 1) := by
  rw [cum_256] at h
  obtain ⟨i, hi, hscan, hle, hlt⟩ := scanSymbol_spec target cnt.toList 0 (Nat.zero_le _) (by rwa [Nat.zero_add])
  rw [Nat.zero_add] at hscan hle hlt
  have hi : (BitVec.ofNat 8 i).toNat = i := (BitVec.toNat_ofNat ..).trans (Nat.mod_eq_of_lt (by simpa using hi))
  refine ⟨BitVec.ofNat 8 i, ?_, ?_, ?_⟩ <;> rw [hi]
  · exact hscan
  · rwa [cum_eq_sum]
  · rwa [cum_eq_sum]

/-- The symbol of a target is the only one. -/
theorem symbol_unique {cnt : Vector (BitVec 32) 256} {total : BitVec 40} (hvalid : tableValid cnt total = true) {a b : Byte}
    {target : Nat} (ha : cum cnt a.toNat ≤ target) (ha' : target < cum cnt (a.toNat + 1)) (hb : cum cnt b.toNat ≤ target)
    (hb' : target < cum cnt (b.toNat + 1)) : a = b := by
  obtain ⟨hpos, -⟩ := tableValid_iff.mp hvalid
  have hmono : ∀ {i j : Nat}, i < j → j ≤ 256 → cum cnt (i + 1) ≤ cum cnt j := fun {i j} hij hj => by
    obtain rfl | hlt := Nat.eq_or_lt_of_le hij
    · exact le_rfl
    · exact (cum_lt_cum hpos hlt hj).le
  have hal := a.isLt
  have hbl := b.isLt
  refine BitVec.eq_of_toNat_eq ?_
  obtain hlt | heq | hgt := Nat.lt_trichotomy a.toNat b.toNat
  · have := hmono hlt hbl.le; omega
  · exact heq
  · have := hmono hgt hal.le; omega

/-! ### `AC_ENC_SYM` -/

/-- The lower end of the sub-interval of symbol `b` in a coder's interval. -/
def symLow (c : AcState) (b : Byte) : Nat := narrowLow c.low.toNat c.high.toNat (cum c.cnt b.toNat) c.total.toNat

/-- The upper end of the sub-interval of symbol `b` in a coder's interval. -/
def symHigh (c : AcState) (b : Byte) : Nat := narrowHigh c.low.toNat c.high.toNat (cum c.cnt (b.toNat + 1)) c.total.toNat

/-- The sub-interval of a symbol lies in the 64-bit interval of a coder. -/
theorem sym_bounds {c : AcState} {m : AcMode} (hc : Coding c m) (b : Byte) :
    symLow c b ≤ symHigh c b ∧ c.low.toNat ≤ symLow c b ∧ symHigh c b ≤ c.high.toNat ∧ symHigh c b ≤ maxV := by
  obtain ⟨-, -, hvalid, hok⟩ := hc
  obtain ⟨-, hle, hlow, hhigh, -⟩ := narrow_symbol hvalid hok b
  exact ⟨hle, hlow, hhigh, hhigh.trans (Nat.le_sub_one_of_lt c.high.isLt)⟩

/-- What the encoder's unit returns for a symbol. -/
def symRnu (c : AcState) (b : Byte) : RnuEnc := rnuEnc (symLow c b) (symHigh c b) c.pending.toNat

/-- `AC_ENC_SYM` from a coding state (R177). -/
theorem exec_acEncSym_of_coding {s : State} (hc : Coding s.ac .enc) (hnsym : s.ac.nsym.toNat ≠ maxV) (a : Byte) :
    exec (.acEncSym a 0) s =
      if maxV < (symRnu s.ac a).pending then raiseFault .ac s .counterOverflow
      else
        match pushBits s.params.outCap { pk := s.ac.pk, out := s.ac.obuf } (symRnu s.ac a).bits with
        | none => raiseFault .ac s .bufferFull
        | some p =>
          answer
            (s.setAc { s.ac with
              low := BitVec.ofNat 64 (symRnu s.ac a).low, high := BitVec.ofNat 64 (symRnu s.ac a).high,
              pending := BitVec.ofNat 64 (symRnu s.ac a).pending, pk := p.pk, obuf := p.out, nsym := s.ac.nsym + 1 }) 0 := by
  obtain ⟨hmode, hfault, hvalid, hok⟩ := hc
  obtain ⟨hnarrow, -⟩ := narrow_symbol hvalid hok a
  have hexec : exec (.acEncSym a 0) s = _ := engineCommand_pass (e := .ac) rfl hfault (beq_iff_eq.mpr hmode)
  rw [hexec, if_neg (by rw [hvalid]; decide), if_neg hnsym]
  dsimp only
  rw [← cum_succ, hnarrow]
  rfl

/-- The faults of `AC_ENC_SYM` that come before narrowing. -/
theorem exec_acEncSym_badModel {s : State} (hfault : s.ac.fault = 0) (hmode : s.ac.mode = .enc)
    (hvalid : tableValid s.ac.cnt s.ac.total = false) (a : Byte) :
    exec (.acEncSym a 0) s = raiseFault .ac s .badModel := by
  have hexec : exec (.acEncSym a 0) s = _ := engineCommand_pass (e := .ac) rfl hfault (beq_iff_eq.mpr hmode)
  rw [hexec, if_pos (by rw [hvalid]; rfl)]

theorem exec_acEncSym_counterOverflow {s : State} (hfault : s.ac.fault = 0) (hmode : s.ac.mode = .enc)
    (hvalid : tableValid s.ac.cnt s.ac.total = true) (hnsym : s.ac.nsym.toNat = maxV) (a : Byte) :
    exec (.acEncSym a 0) s = raiseFault .ac s .counterOverflow := by
  have hexec : exec (.acEncSym a 0) s = _ := engineCommand_pass (e := .ac) rfl hfault (beq_iff_eq.mpr hmode)
  rw [hexec, if_neg (by rw [hvalid]; decide), if_pos hnsym]

/-- Settles O40: the two early faults, and from a coding state the outcomes of the pending counter and of the packer. -/
theorem acEncSymNarrowsAndEmits : Obligations.AcEncSymNarrowsAndEmits := by
  refine fun a s => ⟨fun hfault hmode hvalid => exec_acEncSym_badModel hfault hmode hvalid a,
    fun hfault hmode hvalid hnsym => exec_acEncSym_counterOverflow hfault hmode hvalid hnsym a, fun hc hnsym => ?_⟩
  have hexec := exec_acEncSym_of_coding hc hnsym a
  refine ⟨(sym_bounds hc a).1, fun hpending => hexec.trans (if_pos hpending), fun hpending hroom => ?full,
    fun hpending hroom => ?fits⟩
  case full =>
    have hnone : pushBits s.params.outCap { pk := s.ac.pk, out := s.ac.obuf } (symRnu s.ac a).bits = none :=
      pushBits_eq_none hroom
    have hpending' : ¬ maxV < (symRnu s.ac a).pending := not_lt.mpr hpending
    rw [hexec, if_neg hpending', hnone]
    rfl
  case fits =>
    obtain ⟨q, hq⟩ : ∃ q, pushBits s.params.outCap { pk := s.ac.pk, out := s.ac.obuf } (symRnu s.ac a).bits = some q :=
      exists_pushBits hroom
    have hpending' : ¬ maxV < (symRnu s.ac a).pending := not_lt.mpr hpending
    obtain ⟨-, ⟨new, hout, hnew⟩, -⟩ := pushBits_counts hq
    refine ⟨q.pk, q.out, ?_, packedBits_pushBits hq, ⟨new, hout⟩, ?_⟩
    · rw [hexec, if_neg hpending', hq]
      rfl
    · rw [hout, List.length_append, hnew]
      rfl

/-! ### `AC_DEC_SYM` -/

/-- The target of a decoder's value (R212). -/
def decTarget (c : AcState) : Nat :=
  ((c.value.toNat - c.low.toNat + 1) * c.total.toNat - 1) / (c.high.toNat - c.low.toNat + 1)

/-- What the decoder's unit returns for a symbol. -/
def symDec (c : AcState) (b : Byte) : RnuDec :=
  rnuDec c.ibuf (symLow c b) (symHigh c b) c.value.toNat c.cur.toNat

/-- The engine after the decode of a symbol. -/
def decoded (c : AcState) (b : Byte) : AcState :=
  { c with
    low := BitVec.ofNat 64 (symDec c b).low, high := BitVec.ofNat 64 (symDec c b).high,
    value := BitVec.ofNat 64 (symDec c b).value, cur := BitVec.ofNat 64 (symDec c b).cur, remain := c.remain - 1 }

/-- The value lies in the sub-interval of a symbol exactly where its target lies between the symbol's counts. -/
theorem value_mem_symbol_iff {c : AcState} {m : AcMode} (hc : Coding c m) (hlow : c.low.toNat ≤ c.value.toNat) (b : Byte) :
    symLow c b ≤ c.value.toNat ∧ c.value.toNat ≤ symHigh c b ↔
      cum c.cnt b.toNat ≤ decTarget c ∧ decTarget c < cum c.cnt (b.toNat + 1) := by
  obtain ⟨-, -, hvalid, hok⟩ := hc
  obtain ⟨hpos, -⟩ := total_bounds hvalid hok
  obtain ⟨hle, -⟩ := intervalOk_range hok
  obtain ⟨hnarrow, -⟩ := narrow_symbol hvalid hok b
  obtain ⟨-, hlt, -⟩ := narrow_eq_some hnarrow
  have hr : c.high.toNat + 1 - c.low.toNat = c.high.toNat - c.low.toNat + 1 := by omega
  rw [hr] at hlt
  exact and_congr (narrowLow_le_iff hpos hlow) (le_narrowHigh_iff hpos hlow (Nat.zero_lt_of_lt hlt))

/-- `AC_DEC_SYM` from a coding state with the value inside the interval (R210): it finds the symbol of the value. -/
theorem exec_acDecSym_of_coding {s : State} (hc : Coding s.ac .dec) (hremain : s.ac.remain ≠ 0)
    (hlow : s.ac.low.toNat ≤ s.ac.value.toNat) (hhigh : s.ac.value.toNat ≤ s.ac.high.toNat) :
    ∃ sym : Byte, cum s.ac.cnt sym.toNat ≤ decTarget s.ac ∧ decTarget s.ac < cum s.ac.cnt (sym.toNat + 1) ∧
      exec (.acDecSym 0 0) s =
        if maxV < (symDec s.ac sym).cur then raiseFault .ac s .counterOverflow
        else answer (s.setAc (decoded s.ac sym)) (sym.setWidth 64) := by
  have ⟨hmode, hfault, hvalid, hok⟩ := hc
  obtain ⟨hpos, -⟩ := total_bounds hvalid hok
  obtain ⟨hle, -⟩ := intervalOk_range hok
  obtain ⟨-, htotal⟩ := tableValid_iff.mp hvalid
  have htarget : decTarget s.ac < cum s.ac.cnt 256 := htotal ▸ target_lt hpos hlow hhigh
  obtain ⟨sym, hfind, hcl, hch⟩ := findSymbol_spec htarget
  obtain ⟨hnarrow, -⟩ := narrow_symbol hvalid hok sym
  have hexec : exec (.acDecSym 0 0) s = _ := engineCommand_pass (e := .ac) rfl hfault (beq_iff_eq.mpr hmode)
  have hres : BitVec.ofNat 64 sym.toNat = sym.setWidth 64 := BitVec.ofNat_toNat ..
  refine ⟨sym, hcl, hch, ?_⟩
  rw [hexec, if_neg hremain, if_neg (by rw [hvalid]; decide), if_neg (not_lt.mpr hle), targetOf_of_le hle hpos hlow]
  dsimp only
  rw [← decTarget, hfind]
  dsimp only
  rw [hnarrow]
  dsimp only
  rw [hres]
  rfl

/-- Settles O51: the symbol of the value, or an invalid table. -/
theorem acDecSymFindsTheSymbol : Obligations.AcDecSymFindsTheSymbol := by
  refine fun s hremain => ⟨fun hfault hmode hvalid => ?badModel, fun hc hlow hhigh => ?symbol⟩
  case badModel =>
    have hexec : exec (.acDecSym 0 0) s = _ := engineCommand_pass (e := .ac) rfl hfault (beq_iff_eq.mpr hmode)
    rw [hexec, if_neg hremain, if_pos (by rw [hvalid]; rfl)]
    rfl
  case symbol =>
    obtain ⟨sym, hcl, hch, hexec⟩ := exec_acDecSym_of_coding hc hremain hlow hhigh
    exact ⟨sym, hcl, hch, fun hcur => hexec.trans (if_pos hcur), fun hcur => hexec.trans (if_neg (not_lt.mpr hcur))⟩

/-! ### Encoder and decoder together -/

/-- A fault leaves the latch set. -/
theorem ac_fault_ne_zero_of_raise {s t : State} {code : Status} (h : raiseFault .ac s code = .next t)
    (hcode : isFaultStatus code = true) : t.ac.fault ≠ 0 := by
  obtain rfl := Host.Outcome.next.inj h
  exact statusCode_ne_zero_of_fault hcode

/-- `AC_ENC_SYM` in mode `ENC` that ends without a fault has coded the symbol. -/
theorem acEncSym_coded {s t : State} {a : Byte} (hmode : s.ac.mode = .enc) (hfault : s.ac.fault = 0)
    (hok : IntervalOk s.ac.low.toNat s.ac.high.toNat) (hexec : exec (.acEncSym a 0) s = .next t) (ht : t.ac.fault = 0) :
    tableValid s.ac.cnt s.ac.total = true ∧ s.ac.nsym.toNat ≠ maxV ∧ (symRnu s.ac a).pending ≤ maxV ∧
      ∃ q, pushBits s.params.outCap { pk := s.ac.pk, out := s.ac.obuf } (symRnu s.ac a).bits = some q ∧
        t = replied (s.setAc { s.ac with
          low := BitVec.ofNat 64 (symRnu s.ac a).low, high := BitVec.ofNat 64 (symRnu s.ac a).high,
          pending := BitVec.ofNat 64 (symRnu s.ac a).pending, pk := q.pk, obuf := q.out, nsym := s.ac.nsym + 1 }) .ok 0 := by
  cases hvalid : tableValid s.ac.cnt s.ac.total with
  | false =>
    rw [exec_acEncSym_badModel hfault hmode hvalid] at hexec
    exact absurd ht (ac_fault_ne_zero_of_raise hexec rfl)
  | true =>
    have hnsym : s.ac.nsym.toNat ≠ maxV := fun hmax => by
      rw [exec_acEncSym_counterOverflow hfault hmode hvalid hmax] at hexec
      exact ac_fault_ne_zero_of_raise hexec rfl ht
    rw [exec_acEncSym_of_coding ⟨hmode, hfault, hvalid, hok⟩ hnsym] at hexec
    split at hexec
    · exact absurd ht (ac_fault_ne_zero_of_raise hexec rfl)
    next hpending =>
      split at hexec
      · exact absurd ht (ac_fault_ne_zero_of_raise hexec rfl)
      next q hq => exact ⟨rfl, hnsym, not_lt.mp hpending, q, hq, (Host.Outcome.next.inj hexec).symm⟩

/-- The decoder's unit leaves the interval of the encoder's unit. -/
theorem symDec_interval {c : AcState} {m : AcMode} (hc : Coding c m) (b : Byte) (p : Nat) :
    (symDec c b).low = (rnuEnc (symLow c b) (symHigh c b) p).low ∧
      (symDec c b).high = (rnuEnc (symLow c b) (symHigh c b) p).high := by
  obtain ⟨hle, -, -, hmax⟩ := sym_bounds hc b
  obtain ⟨k, -, hsteps⟩ := exists_rnu_steps hle hmax
  obtain ⟨-, -, hdec⟩ := hsteps p
  obtain ⟨hlow, hhigh, -⟩ := hdec c.ibuf c.value.toNat c.cur.toNat
  exact ⟨hlow, hhigh⟩

/-- The sub-interval of a symbol is a function of the interval and the table. -/
theorem sym_congr {c c' : AcState} (hlow : c.low = c'.low) (hhigh : c.high = c'.high) (hcnt : c.cnt = c'.cnt)
    (htotal : c.total = c'.total) (b : Byte) : symLow c b = symLow c' b ∧ symHigh c b = symHigh c' b := by
  rw [symLow, symHigh, hlow, hhigh, hcnt, htotal]
  exact ⟨rfl, rfl⟩

/-- Settles O52: the value's symbol is the coded one, and both units take the same steps from its sub-interval. -/
theorem decoderFollowsEncoder : Obligations.DecoderFollowsEncoder := by
  intro e d e' d' a he hd hlow hhigh hcnt htotal hremain hvlow hvhigh hencode he' hdecode hd'
  have ⟨hmode, hfault, hvalid, hok⟩ := he
  obtain ⟨-, -, -, q, -, rfl⟩ := acEncSym_coded hmode hfault hok hencode he'
  obtain ⟨hsymLow, hsymHigh⟩ := sym_congr hlow hhigh hcnt htotal a
  obtain ⟨-, hlo, hhi, -⟩ := sym_bounds hd a
  have hvlow' : symLow d.ac a ≤ d.ac.value.toNat := hsymLow ▸ hvlow
  have hvhigh' : d.ac.value.toNat ≤ symHigh d.ac a := hsymHigh ▸ hvhigh
  obtain ⟨sym, hcl, hch, hexec⟩ := exec_acDecSym_of_coding hd hremain (hlo.trans hvlow') (hvhigh'.trans hhi)
  obtain ⟨hcl', hch'⟩ := (value_mem_symbol_iff hd (hlo.trans hvlow') a).mp ⟨hvlow', hvhigh'⟩
  have ⟨_, _, hvalid', _⟩ := hd
  obtain rfl : sym = a := symbol_unique hvalid' hcl hch hcl' hch'
  rw [hexec] at hdecode
  split at hdecode
  · exact absurd hd' (ac_fault_ne_zero_of_raise hdecode rfl)
  · obtain rfl := Host.Outcome.next.inj hdecode
    obtain ⟨hlow', hhigh'⟩ := symDec_interval hd sym e.ac.pending.toNat
    rw [← hsymLow, ← hsymHigh] at hlow' hhigh'
    exact ⟨rfl, congrArg (BitVec.ofNat 64) hlow', congrArg (BitVec.ofNat 64) hhigh'⟩

end Sys2Proof.Proofs

/-! SUPPORT. The tree that `HUF_BUILD` leaves (41_huffman_tree.md R113 to R117): where the merge loop ends, and that its arena
satisfies `TreeOk`. -/

namespace Sys2Proof.Proofs

open Sys2Proof.Machine Sys2Proof.Statements

/-! ### The end of the merge loop -/

/-- With two live nodes or more a pass merges the two least. -/
theorem mergeLoop_succ_of_ne_nil (passes : Nat) (node : Vector HufNode 511) (x : LiveNode) {q : List LiveNode}
    (hne : q ≠ []) (n : Nat) :
    ∃ x' y' q', (x' :: y' :: q').Perm (x :: q) ∧
      mergeLoop (passes + 1) node x q n =
        mergeLoop passes (node.setIfInBounds n (mergedNode x' y')) { w := x'.w + y'.w, index := n } q' (n + 1) := by
  obtain ⟨hperm, -⟩ := extractLeast_spec x q
  rw [mergeLoop]
  cases hq : (extractLeast x q).2 with
  | nil =>
    rw [hq] at hperm
    exact absurd (List.length_eq_zero_iff.mp (Nat.succ.inj hperm.length_eq).symm) hne
  | cons y q2 =>
    obtain ⟨hperm', -⟩ := extractLeast_spec y q2
    rw [hq] at hperm
    exact ⟨(extractLeast x q).1, (extractLeast y q2).1, (extractLeast y q2).2, (hperm'.cons _).trans hperm,
      by simp only [hq, mergedNode]⟩

/-- The sum of the weights of live nodes. -/
def weightSum (live : List LiveNode) : Nat := (live.map fun e => e.w.toNat).sum

/-- What the merge loop has made of the live nodes `x :: q` when it ends (R113, R117): one live node, which is the root and
has their weight; an internal node for each merge; nothing above. -/
structure Merged (n : Nat) (x : LiveNode) (q : List LiveNode) (t : BuiltTree) : Prop where
  next_eq : t.next = n + q.length
  root_live : ∃ r : LiveNode, r.index = t.root ∧ MergeInv t.node t.next [r] ∧ r.w.toNat = weightSum (x :: q)
  internal : ∀ j, n ≤ j → j < t.next → (entry t.node j).v = true ∧ (entry t.node j).leaf = false
  above : ∀ i, t.next ≤ i → entry t.node i = HufNode.zero
  root_eq : t.root = if q = [] then x.index else n + q.length - 1

theorem mergeLoop_merged {passes : Nat} {node : Vector HufNode 511} {x : LiveNode} {q : List LiveNode} {n : Nat}
    (hpasses : q.length = passes) (h : MergeInv node n (x :: q)) (habove : ∀ i, n ≤ i → entry node i = HufNode.zero) :
    Merged n x q (mergeLoop passes node x q n) := by
  induction passes generalizing node x q n with
  | zero =>
    obtain rfl := List.length_eq_zero_iff.mp hpasses
    exact ⟨rfl, ⟨x, rfl, h, rfl⟩, fun j hj hlt => absurd hlt hj.not_gt, habove, rfl⟩
  | succ passes ih =>
    obtain ⟨x', y', q', hperm, hstep⟩ :=
      mergeLoop_succ_of_ne_nil passes node x (List.ne_nil_of_length_eq_add_one hpasses) n
    have h' := h.perm hperm
    obtain ⟨-, -, hw⟩ := h'.mergedNode_toNat
    have hlen : q'.length = passes := by
      have := hperm.length_eq
      simp only [List.length_cons] at this
      omega
    have hagree := agreeBelow_set n node (mergedNode x' y')
    have hnew := entry_set_same node (mergedNode x' y') h'.next_lt
    have hq : q ≠ [] := List.ne_nil_of_length_eq_add_one hpasses
    obtain ⟨hjoined, -⟩ := mergeLoop_joinsTwoLeast passes h'.merge
    have hend := ih hlen h'.merge fun i hi =>
      (entry_set_ne node (mergedNode x' y') (show i ≠ n by omega)).trans (habove i (by omega))
    rw [hstep]
    refine ⟨by rw [hend.next_eq]; omega, ?root_live, fun j hj hlt => ?internal, hend.above, ?root_eq⟩
    case root_live =>
      obtain ⟨r, hr, hinv, hsum⟩ := hend.root_live
      refine ⟨r, hr, hinv, hsum.trans ?_⟩
      have hsame : weightSum (x' :: y' :: q') = weightSum (x :: q) := (hperm.map _).sum_eq
      have hmerged : (x'.w + y'.w).toNat = x'.w.toNat + y'.w.toNat := hw
      rw [← hsame]
      simp only [weightSum, List.map_cons, List.sum_cons, hmerged, add_assoc]
    case internal =>
      obtain rfl | hgt : j = n ∨ n + 1 ≤ j := by omega
      · rw [hjoined j j.lt_succ_self, hnew]
        exact ⟨rfl, rfl⟩
      · exact hend.internal j hgt hlt
    case root_eq =>
      rw [hend.root_eq, if_neg hq]
      split
      next hnil =>
        have hzero : 0 = passes := (congrArg List.length hnil).symm.trans hlen
        show n = n + q.length - 1
        omega
      next hne =>
        have := List.length_pos_iff.mpr hne
        omega

/-! ### The tree in the arena -/

section Built

variable {freq : Vector (BitVec 32) 256} {x : LiveNode} {q : List LiveNode} {t : BuiltTree}

/-- The built tree of a table is where the loop on its leaves ends. -/
theorem buildTree_merged (ht : buildTree freq = some t) :
    ∃ x q, liveLeaves freq = x :: q ∧ Merged 256 x q t ∧ AgreeBelow 256 (leafArena freq) t.node := by
  have hinv := mergeInv_leafArena freq
  rw [buildTree] at ht
  split at ht
  · cases ht
  next x q hlive =>
    rw [hlive] at hinv
    cases ht
    refine ⟨x, q, hlive, mergeLoop_merged rfl hinv fun i hi => entry_leafArena_of_notMem fun hmem => ?_,
      (mergeLoop_joinsTwoLeast _ hinv).1⟩
    obtain ⟨b, -, rfl⟩ := List.mem_map.mp hmem
    exact absurd b.isLt hi.not_gt

/-- The engine with the tree of `HUF_BUILD`. -/
def withTree (h : HufState) (t : BuiltTree) : HufState :=
  { h with node := t.node, root := BitVec.ofNat 9 t.root, nint := BitVec.ofNat 8 (t.next - 256) }

theorem length_liveLeaves (freq : Vector (BitVec 32) 256) : (liveLeaves freq).length = (presentBytes freq).length := by
  simp [liveLeaves]

/-- The counters of a built tree fit their registers. -/
theorem withTree_toNat (h : HufState) (hlive : liveLeaves freq = x :: q) (hm : Merged 256 x q t) :
    (withTree h t).nint.toNat = q.length ∧ (withTree h t).root.toNat = t.root ∧ t.next = 256 + q.length ∧
      q.length + 1 = (presentBytes freq).length := by
  have hlen := length_liveLeaves freq
  have hle := length_presentBytes_le freq
  rw [hlive, List.length_cons] at hlen
  have hnext := hm.next_eq
  obtain ⟨r, hr, hinv, -⟩ := hm.root_live
  have hroot := (hinv.liveIn (e := r) (by simp)).2.1
  rw [hr] at hroot
  refine ⟨?_, ?_, hnext, hlen⟩
  · exact (BitVec.toNat_ofNat ..).trans ((Nat.mod_eq_of_lt (by omega)).trans (by omega))
  · exact (BitVec.toNat_ofNat ..).trans (Nat.mod_eq_of_lt (by omega))

/-- A node of the tree that is not the root has a parent: the loop ends with no other live node (R116). -/
theorem exists_parent (hm : Merged 256 x q t) {i : Nat} (hv : (entry t.node i).v = true) (hroot : i ≠ t.root) :
    ∃ j, 256 ≤ j ∧ j < t.next ∧ ((entry t.node j).left.toNat = i ∨ (entry t.node j).right.toNat = i) := by
  by_contra hnone
  obtain ⟨r, hr, hinv, -⟩ := hm.root_live
  have hlt : i < t.next := by
    by_contra hge
    rw [hm.above i (not_lt.mp hge)] at hv
    cases hv
  have hlive : LiveIn t.node t.next i :=
    ⟨hv, hlt, fun j h1 h2 => not_or.mp fun hchild => hnone ⟨j, h1, h2, hchild⟩⟩
  have hmem := (hinv.mem_iff i).mpr hlive
  rw [List.map_singleton, List.mem_singleton, hr] at hmem
  exact hroot hmem

/-- A node has one parent only: a merge takes live nodes, and its children are live no more (R116). -/
theorem parent_unique (hjoins : ∀ j, 256 ≤ j → j < t.next → ∃ a b, JoinsTwoLeast t.node j a b) {i j k : Nat}
    (hj : 256 ≤ j) (hjn : j < t.next) (hk : 256 ≤ k) (hkn : k < t.next)
    (hij : (entry t.node j).left.toNat = i ∨ (entry t.node j).right.toNat = i)
    (hik : (entry t.node k).left.toNat = i ∨ (entry t.node k).right.toNat = i) : j = k := by
  have hchild_live : ∀ {m}, 256 ≤ m → m < t.next →
      (entry t.node m).left.toNat = i ∨ (entry t.node m).right.toNat = i → LiveIn t.node m i := fun hm hmn him => by
    obtain ⟨a, b, hjoin⟩ := hjoins _ hm hmn
    obtain h | h := him
    · exact (h.symm.trans hjoin.left) ▸ hjoin.left_live
    · exact (h.symm.trans hjoin.right) ▸ hjoin.right_live
  have hnot_before : ∀ {m m'}, 256 ≤ m → m' < t.next → m < m' →
      (entry t.node m).left.toNat = i ∨ (entry t.node m).right.toNat = i →
      ¬ ((entry t.node m').left.toNat = i ∨ (entry t.node m').right.toNat = i) := fun hm hm'n hlt him him' => by
    obtain ⟨-, -, hno⟩ := hchild_live (by omega) hm'n him'
    exact not_or.mpr (hno _ hm hlt) him
  obtain hlt | heq | hgt := Nat.lt_trichotomy j k
  · exact absurd hik (hnot_before hj hkn hlt hij)
  · exact heq
  · exact absurd hij (hnot_before hk hjn hgt hik)

/-- A list without repetition whose members are all one element has length 1. -/
theorem length_eq_one_of_nodup {α : Type} {l : List α} (hnodup : l.Nodup) {a : α} (ha : a ∈ l) (hall : ∀ b ∈ l, b = a) :
    l.length = 1 := by
  have hrep := List.eq_replicate_iff.mpr ⟨rfl, hall⟩
  have hle : l.length ≤ 1 := List.nodup_replicate.mp (hrep ▸ hnodup)
  have hpos := List.length_pos_of_mem ha
  omega

theorem nodup_parents (h : HufState) (i : Nat) : (parents h i).Nodup := by
  refine List.Nodup.filter _ ((List.nodup_map_iff_inj_on List.nodup_range).mpr fun a _ b _ hab => ?_)
  exact Nat.add_left_cancel hab

/-- The two forms of the root (R116). -/
theorem rootOk_iff {h : HufState} :
    RootOk h ↔ (h.nint.toNat = 0 ∧ h.root.toNat < 256 ∧ (nodeAt h h.root.toNat).v = true) ∨
      (0 < h.nint.toNat ∧ h.root.toNat = 255 + h.nint.toNat) := by
  have hzero : h.nint = 0 ↔ h.nint.toNat = 0 := ⟨congrArg BitVec.toNat, fun h => BitVec.eq_of_toNat_eq h⟩
  unfold RootOk
  by_cases h0 : h.nint.toNat = 0
  · rw [if_pos (hzero.mpr h0)]
    exact ⟨fun hroot => .inl ⟨h0, hroot⟩, fun hroot => (hroot.resolve_right fun hr => hr.1.ne' h0).2⟩
  · rw [if_neg fun h => h0 (hzero.mp h)]
    exact ⟨fun hroot => .inr ⟨Nat.pos_of_ne_zero h0, hroot⟩, fun hroot => (hroot.resolve_left fun hl => h0 hl.1).2⟩

/-- The arena of `HUF_BUILD` is the binary tree of the frequency table (10_state.md R34 (a)). -/
theorem treeOk_withTree {h : HufState} (ht : buildTree h.freq = some t) : TreeOk (withTree h t) := by
  obtain ⟨x, q, hlive, hm, hagree⟩ := buildTree_merged ht
  obtain ⟨hnint, hroot, hnext, hcount⟩ := withTree_toNat h hlive hm
  have hjoins : ∀ j, 256 ≤ j → j < t.next → ∃ a b, JoinsTwoLeast t.node j a b := fun j => buildTree_joinsTwoLeast ht
  refine ⟨by rw [hnint]; exact hcount, fun b => ?leaves, fun i hi hge => ?internal, fun i hi hv hne => ?parents, ?root⟩
  case leaves =>
    rw [nodeAt_eq_entry]
    refine (hagree b.toNat b.isLt).trans ?_
    split
    next hzero =>
      refine entry_leafArena_of_notMem fun hmem => ?_
      obtain ⟨c, hc, hcb⟩ := List.mem_map.mp hmem
      exact mem_presentBytes.mp (BitVec.eq_of_toNat_eq hcb ▸ hc) hzero
    next hne => exact entry_leafArena_of_mem (mem_presentBytes.mpr hne)
  case internal =>
    rw [hnint]
    split
    next hlt =>
      obtain ⟨a, b, hjoin⟩ := hjoins i hge (by omega)
      obtain ⟨hv, hleaf⟩ := hm.internal i hge (by omega)
      simp only [nodeAt_eq_entry]
      have hleft := hjoin.left
      have hright := hjoin.right
      refine ⟨hv, hleaf, hleft ▸ hjoin.left_live.2.1, hright ▸ hjoin.right_live.2.1, fun heq => hjoin.ne ?_, ?_, ?_, ?_⟩
      · exact hleft.symm.trans ((congrArg BitVec.toNat heq).trans hright)
      · exact hleft.symm ▸ hjoin.left_live.1
      · exact hright.symm ▸ hjoin.right_live.1
      · exact hleft.symm ▸ hright.symm ▸ hjoin.weight
    next hge' => exact hm.above i (by omega)
  case parents =>
    rw [hroot] at hne
    obtain ⟨j, hj, hjn, hij⟩ := exists_parent hm hv hne
    refine length_eq_one_of_nodup (nodup_parents _ i) (mem_parents.mpr ⟨hj, by rw [hnint]; omega, hij⟩) fun k hk => ?_
    obtain ⟨hk, hkn, hik⟩ := mem_parents.mp hk
    rw [hnint] at hkn
    exact parent_unique hjoins hk (by omega) hj hjn hik hij
  case root =>
    have heq := hm.root_eq
    refine rootOk_iff.mpr ?_
    rw [hroot, hnint]
    obtain rfl | hq := eq_or_ne q []
    · obtain ⟨r, hr, hinv, -⟩ := hm.root_live
      have hmem : x.index ∈ (presentBytes h.freq).map BitVec.toNat := by
        rw [← map_index_liveLeaves, hlive]; simp
      obtain ⟨b, -, hb⟩ := List.mem_map.mp hmem
      have hbyte : t.root < 256 := (heq.trans (if_pos rfl)).trans_lt (hb ▸ b.isLt)
      exact .inl ⟨rfl, hbyte, hr ▸ (hinv.liveIn (e := r) (by simp)).1⟩
    · rw [if_neg hq] at heq
      have hpos := List.length_pos_iff.mpr hq
      exact .inr ⟨hpos, by omega⟩

end Built

/-! ### `HUF_BUILD` -/

/-- Settles O18: an empty table has no live node, and the tree of any other satisfies `TreeOk`. -/
theorem hufBuildMakesTheTree : Obligations.HufBuildMakesTheTree := by
  refine fun s hfault hmode => ⟨fun hzero => ?empty, fun hne => ?tree⟩
  case empty =>
    have hnil : liveLeaves s.huf.freq = [] := by
      rw [liveLeaves, List.map_eq_nil_iff, List.eq_nil_iff_forall_not_mem]
      exact fun b hb => mem_presentBytes.mp hb (hzero b)
    have hexec : exec (.hufBuild 0 0) s = _ := engineCommand_huf_pass hfault hmode _
    rw [hexec, buildTree, hnil]
    rfl
  case tree =>
    obtain ⟨t, ht⟩ := exists_buildTree_eq_some hne
    exact ⟨_, _, _, exec_hufBuild_of_buildTree hfault hmode ht, treeOk_withTree ht⟩

/-- Bytes with frequency 0 add nothing to the sum. -/
theorem sum_map_filter_eq {α : Type} (l : List α) (p : α → Bool) (f : α → Nat) (h : ∀ a, p a = false → f a = 0) :
    ((l.filter p).map f).sum = (l.map f).sum := by
  induction l with
  | nil => rfl
  | cons a l ih =>
    cases hp : p a with
    | true => rw [List.filter_cons_of_pos hp, List.map_cons, List.map_cons, List.sum_cons, List.sum_cons, ih]
    | false => rw [List.filter_cons_of_neg (by rw [hp]; decide), List.map_cons, List.sum_cons, ih, h a hp, Nat.zero_add]

/-- A table as the list of its entries. -/
theorem toList_eq_map_range {α : Type} (t : Vector α 256) :
    t.toList = (List.range 256).map fun i => tableRead t (BitVec.ofNat 8 i) := by
  refine List.ext_getElem (by simp) fun i hi _ => ?_
  have hi : i < 256 := by simpa using hi
  simp [tableRead, Nat.mod_eq_of_lt hi]

/-- The leaves weigh what their bytes occur. -/
theorem weightSum_liveLeaves (freq : Vector (BitVec 32) 256) :
    weightSum (liveLeaves freq) = (freq.toList.map BitVec.toNat).sum := by
  have hweight : ∀ b : Byte, ((tableRead freq b).setWidth 40).toNat = (tableRead freq b).toNat := fun b =>
    (BitVec.toNat_setWidth ..).trans (Nat.mod_eq_of_lt ((tableRead freq b).isLt.trans (by decide)))
  have hzero : ∀ b : Byte, (tableRead freq b != 0) = false → (tableRead freq b).toNat = 0 := fun b hb =>
    congrArg BitVec.toNat (bne_eq_false_iff_eq.mp hb)
  rw [toList_eq_map_range, weightSum, liveLeaves, List.map_map, List.map_map]
  simp only [Function.comp_def, hweight]
  rw [presentBytes, sum_map_filter_eq _ _ _ hzero, List.map_map]
  rfl

/-- Settles O20: every merge keeps the sum of the weights of the live nodes, and the root is the last of them. -/
theorem rootWeightIsTheSumOfFrequencies : Obligations.RootWeightIsTheSumOfFrequencies := by
  intro s t hfault hmode hne hexec
  obtain ⟨tree, htree⟩ := exists_buildTree_eq_some hne
  rw [exec_hufBuild_of_buildTree hfault hmode htree, Host.Outcome.next.injEq] at hexec
  subst hexec
  obtain ⟨x, q, hlive, hm, -⟩ := buildTree_merged htree
  obtain ⟨-, hroot, -⟩ := withTree_toNat s.huf hlive hm
  obtain ⟨r, hr, hinv, hsum⟩ := hm.root_live
  have hweight : r.w = (entry tree.node tree.root).w := hr ▸ hinv.weight r (by simp)
  calc (entry tree.node (withTree s.huf tree).root.toNat).w.toNat
      = r.w.toNat := by rw [hroot, hweight]
    _ = (s.huf.freq.toList.map BitVec.toNat).sum := by rw [hsum, ← hlive, weightSum_liveLeaves]

end Sys2Proof.Proofs

/-! SUPPORT. Codes and decoding (41_huffman_tree.md section 4, 43_huffman_unpacker.md): no code begins another, so the
walk of the tree reads off the one code that the unread bits begin with; an encoded stream decodes to itself. -/

namespace Sys2Proof.Proofs

open Sys2Proof.Machine Sys2Proof.Statements

/-! ### Codes of a tree -/

section Codes

variable {h : HufState}

/-- A path that goes on beyond a leaf leads nowhere. -/
theorem LeadsTo.eq_of_prefix {i : BitVec 9} {p p' : List Bool} {b c : Byte} (hb : LeadsTo h i p b) (hc : LeadsTo h i p' c)
    (hp : p <+: p') : b = c := by
  induction p generalizing i p' with
  | nil =>
    cases hview : viewNode h.node i with
    | leaf d =>
      obtain ⟨-, rfl⟩ := (leadsTo_leaf_iff hview).mp hb
      obtain ⟨-, rfl⟩ := (leadsTo_leaf_iff hview).mp hc
      rfl
    | internal left right => exact absurd hb (not_leadsTo_nil_of_internal hview b)
    | broken =>
      rw [LeadsTo, followPath, Option.map_some, hview] at hb
      cases hb
  | cons bit p ih =>
    obtain ⟨s, rfl⟩ := hp
    cases hview : viewNode h.node i with
    | leaf d => exact absurd ((leadsTo_leaf_iff hview).mp hb).1 (List.cons_ne_nil _ _)
    | internal left right =>
      exact ih ((leadsTo_cons_iff hview).mp hb) ((leadsTo_cons_iff hview).mp hc) (List.prefix_append _ _)
    | broken =>
      simp only [LeadsTo, followPath, hview] at hb
      cases hb

/-- No code of a tree begins another. -/
theorem isCode_eq_of_prefix {b c : Byte} {p p' : List Bool} (hb : IsCode h b p) (hc : IsCode h c p') (hp : p <+: p') :
    b = c := by
  by_cases hroot : h.root.toNat < 256
  · rw [IsCode, if_pos hroot] at hb hc
    exact hb.1.trans hc.1.symm
  · rw [isCode_iff_leadsTo hroot] at hb hc
    exact hb.eq_of_prefix hc hp

/-- The code that the table holds for a coded byte is its path in the tree. -/
theorem isCode_codeOf (hcodes : CodesOk h) {b : Byte} (hb : Coded h b) : IsCode h b (codeOf h.code b) := by
  obtain ⟨-, hentry⟩ := hcodes b
  split at hentry
  · exact absurd hentry hb
  · exact hentry.2

/-- Every path to a leaf is the code that the table holds for its byte. -/
theorem coded_of_isCode (ht : TreeOk h) (hcodes : CodesOk h) {b : Byte} {p : List Bool} (hp : IsCode h b p) :
    Coded h b ∧ codeOf h.code b = p := by
  have hfreq := (exists_isCode_iff ht b).mp ⟨p, hp⟩
  obtain ⟨-, hentry⟩ := hcodes b
  rw [if_neg hfreq] at hentry
  exact ⟨hentry.1, isCode_unique ht hentry.2 hp⟩

theorem codeOf_ne_nil {b : Byte} (hb : Coded h b) : codeOf h.code b ≠ [] := fun hnil => by
  have hlen := length_codeOf h.code b
  rw [hnil] at hlen
  exact hb (BitVec.eq_of_toNat_eq hlen.symm)

/-- Coded bytes with comparable codes are the same byte. -/
theorem eq_of_codeOf_prefix (hcodes : CodesOk h) {b c : Byte} (hb : Coded h b) (hc : Coded h c)
    (hp : codeOf h.code b <+: codeOf h.code c) : b = c :=
  isCode_eq_of_prefix (isCode_codeOf hcodes hb) (isCode_codeOf hcodes hc) hp

end Codes

/-- Settles O22. -/
theorem codeTableIsPrefixFree : Obligations.CodeTableIsPrefixFree :=
  fun _ _ hcodes _ _ hne hb hc hp => hne (eq_of_codeOf_prefix hcodes hb hc hp)

/-! ### The unread bits -/

/-- The code bits from bit index `cur` on; `unreadBits` is those from the cursor on. -/
def bitsFrom (h : HufState) (cur : Nat) : List Bool :=
  (List.range (h.nbits.toNat - cur)).map fun j => (bitAt h.ibuf (cur + j)).getD false

theorem unreadBits_eq (h : HufState) : unreadBits h = bitsFrom h h.cur.toNat := rfl

@[simp] theorem length_bitsFrom (h : HufState) (cur : Nat) : (bitsFrom h cur).length = h.nbits.toNat - cur := by
  simp [bitsFrom]

theorem bitsFrom_eq_nil {h : HufState} {cur : Nat} : bitsFrom h cur = [] ↔ h.nbits.toNat ≤ cur := by
  rw [← List.length_eq_zero_iff, length_bitsFrom]
  omega

/-- The bits further on are what remains of the bits. -/
theorem bitsFrom_add (h : HufState) (cur n : Nat) : bitsFrom h (cur + n) = (bitsFrom h cur).drop n := by
  refine List.ext_getElem (by simp; omega) fun i _ _ => ?_
  rw [List.getElem_drop]
  simp [bitsFrom, add_assoc]

/-- Every code bit that `H_NBITS` counts is in the payload (10_state.md R34). -/
theorem bitAt_of_payloadBits {h : HufState} (hp : payloadBits h.ibuf = some h.nbits.toNat) {cur j : Nat}
    (hj : j < (bitsFrom h cur).length) : bitAt h.ibuf (cur + j) = some (bitsFrom h cur)[j] := by
  obtain ⟨data, pad, hbuf, -, hn⟩ := payloadBits_eq_some hp
  rw [length_bitsFrom] at hj
  have hin : cur + j < (h.ibuf.flatMap byteBits).length := by
    rw [length_flatMap_byteBits, hbuf, List.length_append, List.length_singleton]
    omega
  simp only [bitsFrom, List.getElem_map, List.getElem_range]
  rw [bitAt_eq, List.getElem?_eq_getElem hin, Option.getD_some]

/-! ### One decode step (R150) -/

/-- The walk from a node of the tree ends at the leaf whose path the bits begin with; without one it fails. -/
theorem walkTree_spec {h : HufState} (ht : TreeOk h) {i : BitVec 9} (hi : i.toNat < 511) (hv : (nodeAt h i.toNat).v = true)
    (bits : List Bool) (cur : Nat) (hbits : ∀ j (hj : j < bits.length), bitAt h.ibuf (cur + j) = some bits[j]) :
    (∃ b p, LeadsTo h i p b ∧ p <+: bits ∧ walkTree h.node h.ibuf bits.length i cur = .symbol b (cur + p.length)) ∨
      ((∀ b p, LeadsTo h i p b → ¬ p <+: bits) ∧ walkTree h.node h.ibuf bits.length i cur = .fail) := by
  induction bits generalizing i cur with
  | nil =>
    obtain ⟨-, hview⟩ | ⟨-, -, hview, -⟩ := viewNode_cases ht hi hv
    · exact .inl ⟨_, [], (leadsTo_leaf_iff hview).mpr ⟨rfl, rfl⟩, List.nil_prefix, by
        simp only [List.length_nil, walkTree, hview, Nat.add_zero]⟩
    · refine .inr ⟨fun b p hp hpre => ?_, by simp only [List.length_nil, walkTree, hview]⟩
      obtain rfl := List.prefix_nil.mp hpre
      exact not_leadsTo_nil_of_internal hview b hp
  | cons bit bits ih =>
    obtain ⟨-, hview⟩ | ⟨-, -, hview, hc⟩ := viewNode_cases ht hi hv
    · exact .inl ⟨_, [], (leadsTo_leaf_iff hview).mpr ⟨rfl, rfl⟩, List.nil_prefix, by
        simp only [List.length_cons, walkTree, hview, List.length_nil, Nat.add_zero]⟩
    · have hbit : bitAt h.ibuf cur = some bit := hbits 0 (Nat.succ_pos _)
      have hrest : ∀ j (hj : j < bits.length), bitAt h.ibuf (cur + 1 + j) = some bits[j] := fun j hj => by
        rw [add_assoc, add_comm 1]
        exact hbits (j + 1) (Nat.succ_lt_succ hj)
      have hchild : (nodeAt h (if bit then (nodeAt h i.toNat).right else (nodeAt h i.toNat).left).toNat).v = true ∧
          (if bit then (nodeAt h i.toNat).right else (nodeAt h i.toNat).left).toNat < 511 := by
        cases bit
        · exact ⟨hc.left_v, hc.left_lt.trans hi⟩
        · exact ⟨hc.right_v, hc.right_lt.trans hi⟩
      have hwalk : walkTree h.node h.ibuf (bit :: bits).length i cur = walkTree h.node h.ibuf bits.length
          (if bit then (nodeAt h i.toNat).right else (nodeAt h i.toNat).left) (cur + 1) := by
        simp only [List.length_cons, walkTree, hview, hbit]
      rw [hwalk]
      obtain ⟨b, p, hp, hpre, heq⟩ | ⟨hno, heq⟩ := ih hchild.2 hchild.1 (cur + 1) hrest
      · refine .inl ⟨b, bit :: p, (leadsTo_cons_iff hview).mpr hp, (List.prefix_cons_inj bit).mpr hpre, ?_⟩
        rw [heq, List.length_cons, add_assoc, add_comm 1]
      · refine .inr ⟨fun b p hp hpre => ?_, heq⟩
        match p with
        | [] => exact not_leadsTo_nil_of_internal hview b hp
        | c :: p =>
          obtain ⟨rfl, htail⟩ := List.cons_prefix_cons.mp hpre
          exact hno b p ((leadsTo_cons_iff hview).mp hp) htail

section Decode

variable {h : HufState}

/-- A decode step finds a code at the start of the bits, or there is none and it fails (R150). -/
theorem decodeOne_cases (ht : TreeOk h) (hp : payloadBits h.ibuf = some h.nbits.toNat) {cur : Nat}
    (hcur : cur < h.nbits.toNat) :
    (∃ b p, IsCode h b p ∧ p <+: bitsFrom h cur ∧ decodeOne h cur = .symbol b (cur + p.length)) ∨
      ((∀ b p, IsCode h b p → ¬ p <+: bitsFrom h cur) ∧ decodeOne h cur = .fail) := by
  have hbits := fun j (hj : j < (bitsFrom h cur).length) => bitAt_of_payloadBits hp hj
  by_cases hroot : h.root.toNat < 256
  · obtain ⟨bit, rest, hcons⟩ : ∃ bit rest, bitsFrom h cur = bit :: rest :=
      List.exists_cons_of_ne_nil fun hnil => by have := bitsFrom_eq_nil.mp hnil; omega
    have hfirst : bitAt h.ibuf cur = some bit := by
      simp only [hcons] at hbits
      exact hbits 0 (Nat.succ_pos _)
    simp only [IsCode, if_pos hroot, decodeOne, hfirst, hcons]
    cases bit with
    | false => exact .inl ⟨_, [false], ⟨rfl, rfl⟩, ⟨rest, rfl⟩, rfl⟩
    | true =>
      refine .inr ⟨?_, rfl⟩
      rintro b p ⟨-, rfl⟩ hpre
      exact absurd (List.cons_prefix_cons.mp hpre).1 nofun
  · obtain ⟨hv, -⟩ := root_cases ht
    have hwalk := walkTree_spec ht (root_lt ht) hv (bitsFrom h cur) cur hbits
    rw [length_bitsFrom] at hwalk
    simp only [isCode_iff_leadsTo hroot, decodeOne, if_neg hroot]
    exact hwalk

variable (ht : TreeOk h) (hcodes : CodesOk h) (hp : payloadBits h.ibuf = some h.nbits.toNat)

include ht hcodes hp

/-- The byte whose code the bits begin with is decoded. -/
theorem decodeOne_of_prefix {cur : Nat} (hcur : cur < h.nbits.toNat) {b : Byte} (hb : Coded h b)
    (hpre : codeOf h.code b <+: bitsFrom h cur) :
    decodeOne h cur = .symbol b (cur + (codeOf h.code b).length) := by
  obtain ⟨c, p, hc, hpre', heq⟩ | ⟨hno, -⟩ := decodeOne_cases ht hp hcur
  · obtain ⟨hcoded, rfl⟩ := coded_of_isCode ht hcodes hc
    have hbc : b = c := (List.prefix_or_prefix_of_prefix hpre hpre').elim (eq_of_codeOf_prefix hcodes hb hcoded)
      fun h' => (eq_of_codeOf_prefix hcodes hcoded hb h').symm
    rw [hbc, heq]
  · exact absurd hpre (hno b _ (isCode_codeOf hcodes hb))

/-- Where the bits begin with no code the step fails. -/
theorem decodeOne_of_no_prefix {cur : Nat} (hcur : cur < h.nbits.toNat)
    (hno : ∀ b : Byte, Coded h b → ¬ codeOf h.code b <+: bitsFrom h cur) : decodeOne h cur = .fail := by
  obtain ⟨c, p, hc, hpre, -⟩ | ⟨-, heq⟩ := decodeOne_cases ht hp hcur
  · obtain ⟨hcoded, rfl⟩ := coded_of_isCode ht hcodes hc
    exact absurd hpre (hno c hcoded)
  · exact heq

/-! ### All remaining steps (R153) -/

/-- Bits that are the codes of a byte string decode to it. -/
theorem decodeRest_of_codes {bs : List Byte} (hbs : ∀ b ∈ bs, Coded h b) {cur steps : Nat} (hcur : cur ≤ h.nbits.toNat)
    (hsteps : h.nbits.toNat - cur ≤ steps) (heq : bitsFrom h cur = bs.flatMap (codeOf h.code)) :
    decodeRest h steps cur = .bytes bs h.nbits.toNat := by
  induction bs generalizing cur steps with
  | nil =>
    have hend : cur = h.nbits.toNat := le_antisymm hcur (bitsFrom_eq_nil.mp heq)
    cases steps <;> simp only [decodeRest, if_pos hend] <;> rw [hend]
  | cons b bs ih =>
    obtain ⟨hb, hbs⟩ := List.forall_mem_cons.mp hbs
    rw [List.flatMap_cons] at heq
    have hlen := congrArg List.length heq
    rw [length_bitsFrom, List.length_append] at hlen
    have hpos := List.length_pos_iff.mpr (codeOf_ne_nil hb)
    obtain ⟨steps, rfl⟩ : ∃ n, steps = n + 1 := ⟨steps - 1, by omega⟩
    have hone := decodeOne_of_prefix ht hcodes hp (show cur < h.nbits.toNat by omega) hb ⟨_, heq.symm⟩
    have hrest := ih hbs (cur := cur + (codeOf h.code b).length) (steps := steps) (by omega) (by omega)
      (by rw [bitsFrom_add, heq, List.drop_left])
    rw [decodeRest, if_neg (by omega), hone]
    simp only [hrest]

/-- Bits that are no string of complete codes fail. -/
theorem decodeRest_of_no_codes {cur steps : Nat} (hcur : cur ≤ h.nbits.toNat) (hsteps : h.nbits.toNat - cur ≤ steps)
    (hno : ∀ bs : List Byte, (∀ b ∈ bs, Coded h b) → bitsFrom h cur ≠ bs.flatMap (codeOf h.code)) :
    decodeRest h steps cur = .fail := by
  induction steps generalizing cur with
  | zero => exact absurd (bitsFrom_eq_nil.mpr (by omega)) (hno [] nofun)
  | succ steps ih =>
    have hlt : cur < h.nbits.toNat := lt_of_not_ge fun hge => hno [] nofun (bitsFrom_eq_nil.mpr hge)
    rw [decodeRest, if_neg hlt.ne]
    obtain ⟨b, p, hb, hpre, hone⟩ | ⟨-, hone⟩ := decodeOne_cases ht hp hlt
    · obtain ⟨hcoded, rfl⟩ := coded_of_isCode ht hcodes hb
      have hpos := List.length_pos_iff.mpr (codeOf_ne_nil hcoded)
      have hlen := hpre.length_le
      rw [length_bitsFrom] at hlen
      have hrest := ih (cur := cur + (codeOf h.code b).length) (by omega) (by omega) fun bs hbs heq => by
        refine hno (b :: bs) (List.forall_mem_cons.mpr ⟨hcoded, hbs⟩) ?_
        rw [List.flatMap_cons, ← heq, bitsFrom_add]
        exact List.prefix_iff_eq_append.mp hpre |>.symm
      simp only [hone, hrest]
    · simp only [hone]

end Decode

/-- A string of codes has a bit for each byte at least. -/
theorem length_le_length_flatMap_codeOf {h : HufState} {bs : List Byte} (hbs : ∀ b ∈ bs, Coded h b) :
    bs.length ≤ (bs.flatMap (codeOf h.code)).length := by
  induction bs with
  | nil => exact le_rfl
  | cons b bs ih =>
    obtain ⟨hb, hbs⟩ := List.forall_mem_cons.mp hbs
    have hpos := List.length_pos_iff.mpr (codeOf_ne_nil hb)
    have := ih hbs
    rw [List.flatMap_cons, List.length_append, List.length_cons]
    omega

/-! ### `HUF_DEC_SYM` and `HUF_DEC_ALL` -/

/-- Settles O29: the decode step finds the code that the unread bits begin with, or fails. -/
theorem hufDecSymDecodesOneByte : Obligations.HufDecSymDecodesOneByte := by
  intro s hfault hdec hne
  obtain ⟨hmode, ht, hcodes, hp, hcur⟩ := hdec
  have hlt : s.huf.cur.toNat < s.huf.nbits.toNat := lt_of_le_of_ne hcur fun heq => hne (BitVec.eq_of_toNat_eq heq)
  have hexec : exec (.hufDecSym 0 0) s = _ := engineCommand_huf_pass hfault hmode _
  rw [if_neg hne, if_neg (not_lt.mpr hcur)] at hexec
  refine ⟨fun b hb hpre => ?symbol, fun hno => ?invalid⟩
  case symbol =>
    rw [decodeOne_of_prefix ht hcodes hp hlt hb hpre] at hexec
    refine ⟨fun hfits => hexec.trans ?_, fun hfull => hexec.trans ?_⟩
    · simp only [appendBytes_of_fits (buf := s.huf.obuf) (bytes := [b]) hfits]; rfl
    · simp only [appendBytes_of_not_fits (buf := s.huf.obuf) (bytes := [b]) hfull]; rfl
  case invalid =>
    rw [decodeOne_of_no_prefix ht hcodes hp hlt hno] at hexec
    exact hexec

/-- Settles O30: the unread bits are a string of codes, of one byte string only, or they are none and the decode fails. -/
theorem hufDecAllDecodesTheRest : Obligations.HufDecAllDecodesTheRest := by
  intro s hfault hdec
  obtain ⟨hmode, ht, hcodes, hp, hcur⟩ := hdec
  have hexec : exec (.hufDecAll 0 0) s = _ := engineCommand_huf_pass hfault hmode _
  refine ⟨fun bs hbs heq => ?symbols, fun hno => ?invalid⟩
  case symbols =>
    have hlen : bs.length < 2 ^ 64 := by
      have hle := length_le_length_flatMap_codeOf hbs
      have hnbits := s.huf.nbits.isLt
      rw [← heq, unreadBits_eq, length_bitsFrom] at hle
      omega
    rw [decodeRest_of_codes ht hcodes hp hbs hcur le_rfl heq] at hexec
    refine ⟨fun hfits => hexec.trans ?_, fun hfull => hexec.trans ?_⟩
    · simp only [appendBytes_of_fits hfits, count64_of_lt hlen, BitVec.ofNat_toNat, BitVec.setWidth_eq]; rfl
    · simp only [appendBytes_of_not_fits hfull]; rfl
  case invalid =>
    rw [decodeRest_of_no_codes ht hcodes hp hcur le_rfl hno] at hexec
    exact hexec

/-! ### The round trip (43_huffman_unpacker.md section 5) -/

theorem execAll_cons_of_next {i : Instr} {is : List Instr} {s t : State} (h : exec i s = .next t) :
    execAll (i :: is) s = execAll is t := by
  simp only [execAll, h]

theorem execAll_append {is js : List Instr} {s t : State} (h : execAll is s = .next t) :
    execAll (is ++ js) s = execAll js t := by
  induction is generalizing s with
  | nil => obtain rfl := Host.Outcome.next.inj h; rfl
  | cons i is ih =>
    cases hi : exec i s with
    | next u =>
      rw [execAll_cons_of_next hi] at h
      rw [List.cons_append, execAll_cons_of_next hi, ih h]
    | fault f => simp only [execAll, hi] at h; cases h
    | refused x => simp only [execAll, hi] at h; cases h

/-- A code that is pushed is what `HUF_ENC_SYM` does. -/
theorem exec_hufEncSym_of_pushBits {s : State} {b : Byte} {q : PackState} (hfault : s.huf.fault = 0)
    (hmode : s.huf.mode = .enc) (hb : Coded s.huf b)
    (hq : pushBits s.params.outCap { pk := s.huf.pk, out := s.huf.obuf } (codeOf s.huf.code b) = some q) :
    exec (.hufEncSym b 0) s = .next (replied { s with huf := { s.huf with pk := q.pk, obuf := q.out } } .ok 0) := by
  have hexec : exec (.hufEncSym b 0) s = _ := engineCommand_pass (e := .huf) rfl hfault (beq_iff_eq.mpr hmode)
  rw [hexec, if_neg hb, hq]
  rfl

/-- The commands of a stream push its codes. -/
theorem execAll_hufEncSym {bs : List Byte} {s : State} {q : PackState} (hfault : s.huf.fault = 0)
    (hmode : s.huf.mode = .enc) (hbs : ∀ b ∈ bs, Coded s.huf b)
    (hq : pushBits s.params.outCap { pk := s.huf.pk, out := s.huf.obuf } (bs.flatMap (codeOf s.huf.code)) = some q) :
    ∃ rs, execAll (bs.map fun b => Instr.hufEncSym b 0) s =
      .next { s with huf := { s.huf with pk := q.pk, obuf := q.out }, responses := rs } := by
  induction bs generalizing s with
  | nil =>
    obtain rfl := Option.some.inj hq
    exact ⟨s.responses, rfl⟩
  | cons b bs ih =>
    obtain ⟨hb, hbs⟩ := List.forall_mem_cons.mp hbs
    rw [List.flatMap_cons] at hq
    obtain ⟨r, hr, hq⟩ := pushBits_append_eq_some.mp hq
    obtain ⟨rs, hrs⟩ :=
      ih (s := replied { s with huf := { s.huf with pk := r.pk, obuf := r.out } } .ok 0) hfault hmode hbs hq
    exact ⟨rs, (execAll_cons_of_next (exec_hufEncSym_of_pushBits hfault hmode hb hr)).trans hrs⟩

/-- `HUF_ENC_END` where the payload fits: the flushed bytes and the padding count. -/
theorem exec_hufEncEnd_of_flushPacker {s : State} {q : PackState} (hfault : s.huf.fault = 0) (hmode : s.huf.mode = .enc)
    (hq : flushPacker s.params.outCap { pk := s.huf.pk, out := s.huf.obuf } = some q)
    (hfits : fitsCap s.params.outCap (q.out.length + 1) = true) :
    exec (.hufEncEnd 0 0) s =
      .next (replied { s with huf := { s.huf with
        pk := q.pk, obuf := q.out ++ [BitVec.ofNat 8 (padCount s.huf.pk)], mode := .ready } } .ok
        (BitVec.ofNat 64 (padCount s.huf.pk))) := by
  have hexec : exec (.hufEncEnd 0 0) s = _ := engineCommand_huf_pass hfault hmode _
  rw [hexec]
  simp only [hq, appendBytes_of_fits (buf := q.out) (bytes := [BitVec.ofNat 8 (padCount s.huf.pk)]) hfits]
  rfl

/-- A payload: the bits, completed to bytes, then the count of padding bits (42_huffman_packer.md section 5). -/
structure IsPayload (bits : List Bool) (buf : List Byte) : Prop where
  length : buf.length = (bits.length + 7) / 8 + 1
  nbits : payloadBits buf = some bits.length
  bitAt : ∀ j (hj : j < bits.length), bitAt buf j = some bits[j]

/-- The encode of a stream of coded bytes leaves its payload. -/
theorem exists_execAll_encode {s : State} {bs : List Byte} (hfault : s.huf.fault = 0) (hmode : s.huf.mode = .ready)
    (hbs : ∀ b ∈ bs, Coded s.huf b)
    (hfits : fitsCap s.params.outCap (((bs.flatMap (codeOf s.huf.code)).length + 7) / 8 + 1) = true) :
    ∃ t : State,
      execAll ([.hufEncBegin 0 0] ++ bs.map (fun b => Instr.hufEncSym b 0) ++ [.hufEncEnd 0 0]) s = .next t ∧
      t.huf.mode = .ready ∧ IsPayload (bs.flatMap (codeOf s.huf.code)) t.huf.obuf := by
  generalize hbits : bs.flatMap (codeOf s.huf.code) = bits at hfits
  obtain ⟨q, hq⟩ := exists_pushBits (cap := s.params.outCap) (p := { pk := Packer.empty, out := [] }) (bits := bits)
    (.inr (fitsCap_mono hfits (by
      have hzero : Packer.empty.n.toNat = 0 := rfl
      simp only [hzero, List.length_nil]
      omega)))
  obtain ⟨hn, ⟨new, hout, hnew⟩, -⟩ := pushBits_counts hq
  have hzero : Packer.empty.n.toNat = 0 := rfl
  simp only [hzero, Nat.zero_add, List.nil_append] at hn hnew hout
  have hpacked : packedBits q.pk q.out = bits := packedBits_pushBits hq
  have hlenq : q.out.length = bits.length / 8 := by rw [hout, hnew]
  have hpad := padCount_eq q.pk
  rw [hn] at hpad
  have hflush : ∃ q', flushPacker s.params.outCap q = some q' := by
    rw [flushPacker_eq]
    by_cases h0 : q.pk.n.toNat = 0
    · exact ⟨q, if_pos h0⟩
    · exact ⟨_, (if_neg h0).trans (if_pos (fitsCap_mono hfits (by omega)))⟩
  obtain ⟨q', hq'⟩ := hflush
  have hlen' : q'.out.length = (bits.length + 7) / 8 := by rw [length_flushPacker hq', hlenq, hn]; omega
  have hbegin : exec (.hufEncBegin 0 0) s = _ := engineCommand_huf_pass hfault hmode _
  obtain ⟨rs, hsyms⟩ := execAll_hufEncSym
    (s := replied { s with huf := { s.huf with obuf := [], pk := Packer.empty, mode := .enc } } .ok 0) hfault rfl hbs
    (hbits.symm ▸ hq)
  have hend := exec_hufEncEnd_of_flushPacker
    (s := { s with huf := { s.huf with pk := q.pk, obuf := q.out, mode := .enc }, responses := rs }) hfault rfl hq'
    (hlen' ▸ hfits)
  have hpad8 : (BitVec.ofNat 8 (padCount q.pk)).toNat = padCount q.pk :=
    (BitVec.toNat_ofNat ..).trans (Nat.mod_eq_of_lt (by omega))
  refine ⟨_, (execAll_append ((execAll_append (execAll_cons_of_next hbegin)).trans hsyms)).trans
    (execAll_cons_of_next hend), rfl, ⟨?length, ?nbits, fun j hj => ?bitAt⟩⟩
  case length =>
    show (q'.out ++ [_]).length = _
    rw [List.length_append, hlen', List.length_singleton]
  case nbits =>
    show payloadBits (q'.out ++ [BitVec.ofNat 8 (padCount q.pk)]) = _
    rw [payloadBits_concat, hpad8, if_neg, hlen', hpad]
    · congr 1; omega
    · rintro (h7 | ⟨hnil, hne⟩)
      · omega
      · rw [hnil, List.length_nil] at hlen'
        exact hne (BitVec.eq_of_toNat_eq (hpad8.trans (by rw [hpad]; simp; omega)))
  case bitAt =>
    show Machine.bitAt (q'.out ++ [_]) j = _
    rw [bitAt_eq, List.flatMap_append, flatMap_byteBits_flushPacker hq', hpacked, List.append_assoc,
      List.getElem?_append_left hj, List.getElem?_eq_getElem hj]

/-- The tree of an engine depends on its table and its arena only. -/
theorem treeOk_congr {h h' : HufState} (ht : TreeOk h) (hfreq : h'.freq = h.freq) (hnode : h'.node = h.node)
    (hroot : h'.root = h.root) (hnint : h'.nint = h.nint) : TreeOk h' := by
  obtain ⟨⟩ := h
  obtain ⟨⟩ := h'
  dsimp only at hfreq hnode hroot hnint
  subst hfreq hnode hroot hnint
  exact ht

/-- So do the codes, with the code table. -/
theorem codesOk_congr {h h' : HufState} (hc : CodesOk h) (hfreq : h'.freq = h.freq) (hnode : h'.node = h.node)
    (hroot : h'.root = h.root) (hcode : h'.code = h.code) : CodesOk h' := by
  obtain ⟨⟩ := h
  obtain ⟨⟩ := h'
  dsimp only at hfreq hnode hroot hcode
  subst hfreq hnode hroot hcode
  exact hc

/-- The unread bits of a payload just opened are its bits. -/
theorem unreadBits_of_isPayload {h : HufState} {bits : List Bool} (hp : IsPayload bits h.ibuf)
    (hnbits : h.nbits.toNat = bits.length) (hcur : h.cur = 0) : unreadBits h = bits := by
  have hzero : h.cur.toNat = 0 := congrArg BitVec.toNat hcur
  rw [unreadBits_eq, hzero]
  refine List.ext_getElem (by rw [length_bitsFrom, hnbits, Nat.sub_zero]) fun j hj hj' => ?_
  have hbit := hp.bitAt j hj'
  simp only [bitsFrom, List.getElem_map, List.getElem_range, Nat.zero_add, hbit, Option.getD_some]

/-- Settles O32: the payload of the encode is opened with its bit count, and its bits are the codes of the stream. -/
theorem huffmanRoundTrip : Obligations.HuffmanRoundTrip := by
  intro s bs hfault hmode ht hcodes hbs bitCount hfits hcount
  obtain ⟨t, hexec, htmode, hpayload⟩ := exists_execAll_encode hfault hmode hbs hfits
  refine ⟨t, hexec, htmode, hpayload.length, fun u hufault humode hfreq hnode hroot hnint hcode hibuf hufits => ?_⟩
  have hcount64 : count64 bitCount = BitVec.ofNat 64 bitCount := count64_of_lt (by omega)
  have hnbits : (BitVec.ofNat 64 bitCount).toNat = bitCount := toNat_ofNat_word (by omega)
  have hbegin : exec (.hufDecBegin 0 0) u = .next (replied { u with huf := { u.huf with
      nbits := BitVec.ofNat 64 bitCount, cur := 0, obuf := [], mode := .dec } } .ok (BitVec.ofNat 64 bitCount)) := by
    have hpass : exec (.hufDecBegin 0 0) u = _ := engineCommand_huf_pass hufault humode _
    rw [hpass, hibuf, hpayload.nbits]
    dsimp only
    rw [hcount64]
    rfl
  generalize hd : replied { u with huf := { u.huf with
      nbits := BitVec.ofNat 64 bitCount, cur := 0, obuf := [], mode := .dec } } .ok (BitVec.ofNat 64 bitCount) = d at hbegin
  have hdibuf : d.huf.ibuf = t.huf.obuf := by rw [← hd]; exact hibuf
  have hdnbits : d.huf.nbits = BitVec.ofNat 64 bitCount := by rw [← hd]; rfl
  have hdcode : d.huf.code = s.huf.code := by rw [← hd]; exact hcode
  have hunread : unreadBits d.huf = bs.flatMap (codeOf d.huf.code) := by
    rw [hdcode]
    exact unreadBits_of_isPayload (hdibuf ▸ hpayload) (hdnbits ▸ hnbits) (by rw [← hd]; rfl)
  have hdec : Decoding d.huf := by
    refine ⟨by rw [← hd]; rfl, treeOk_congr ht ?_ ?_ ?_ ?_, codesOk_congr hcodes ?_ ?_ ?_ hdcode, ?_, ?_⟩
    · rw [← hd]; exact hfreq
    · rw [← hd]; exact hnode
    · rw [← hd]; exact hroot
    · rw [← hd]; exact hnint
    · rw [← hd]; exact hfreq
    · rw [← hd]; exact hnode
    · rw [← hd]; exact hroot
    · rw [hdibuf, hdnbits, hnbits]; exact hpayload.nbits
    · rw [← hd]; exact Nat.zero_le _
  have hcoded : ∀ b ∈ bs, Coded d.huf b := fun b hb => by rw [Coded, hdcode]; exact hbs b hb
  have hall := ((hufDecAllDecodesTheRest d (by rw [← hd]; exact hufault) hdec).1 bs hcoded hunread).1
    (by rw [← hd]; simpa [replied] using hufits)
  rw [execAll_cons_of_next hbegin, execAll_cons_of_next hall, ← hd]
  rfl

end Sys2Proof.Proofs

/-! SUPPORT. The invariant of 10_state.md sections 2 and 3: what the commands of each engine keep of it, why no command is
without a result in a state that has it, and what follows for steps and runs. -/

namespace Sys2Proof.Proofs

open Sys2Proof.Machine Sys2Proof.Statements

/-! ### The packer -/

theorem packerOk_empty : PackerOk Packer.empty := by decide

/-- A pushed bit keeps the bits above the held ones 0. -/
theorem packerOk_pushBit {cap : Option Nat} {p q : PackState} {b : Bool} (h : pushBit cap p b = some q)
    (hp : PackerOk p.pk) : PackerOk q.pk := by
  obtain ⟨-, hn, -, hacc⟩ | ⟨-, hpk, -⟩ := pushBit_cases h
  · have hshift : (p.pk.acc <<< 1).toNat < 2 ^ (p.pk.n.toNat + 1) := by
      rw [BitVec.toNat_shiftLeft, Nat.shiftLeft_eq, pow_succ]
      exact (Nat.mod_le _ _).trans_lt (by omega)
    have hbit : ((BitVec.ofBool b).setWidth 8).toNat < 2 ^ (p.pk.n.toNat + 1) := by
      have hpos := Nat.one_le_two_pow (n := p.pk.n.toNat)
      rw [pow_succ]
      have := b.toNat_lt
      rw [BitVec.toNat_setWidth, BitVec.toNat_ofBool]
      omega
    rw [PackerOk, hn, hacc, BitVec.toNat_or]
    exact Nat.or_lt_two_pow hshift hbit
  · rw [hpk]
    exact packerOk_empty

theorem packerOk_pushBits {cap : Option Nat} {bits : List Bool} {p q : PackState} (h : pushBits cap p bits = some q)
    (hp : PackerOk p.pk) : PackerOk q.pk := by
  induction bits generalizing p with
  | nil => exact Option.some.inj h ▸ hp
  | cons b bits ih =>
    obtain ⟨r, hr, hq⟩ := pushBits_cons_eq_some.mp h
    exact ih hq (packerOk_pushBit hr hp)

/-- A flush leaves the packer empty. -/
theorem pk_eq_empty_of_flushPacker {cap : Option Nat} {p q : PackState} (h : flushPacker cap p = some q)
    (hp : PackerOk p.pk) : q.pk = Packer.empty := by
  obtain ⟨hn, rfl⟩ | ⟨-, hpk, -⟩ := flushPacker_cases h
  · exact pk_eq_empty_of_packerOk hp (congrArg BitVec.toNat hn)
  · exact hpk

theorem length_le_pushBits {cap : Option Nat} {bits : List Bool} {p q : PackState} (h : pushBits cap p bits = some q) :
    p.out.length ≤ q.out.length := by
  obtain ⟨-, ⟨new, hout, -⟩, -⟩ := pushBits_counts h
  rw [hout, List.length_append]
  exact Nat.le_add_right ..

/-! ### The Huffman engine, mode by mode -/

section HufModes

variable {h : HufState} (hlatch : LatchOk h.fault)

include hlatch

theorem hufInv_freq (hmode : h.mode = .freq) (hpk : h.pk = Packer.empty) : HufInv h := by
  simp only [HufInv, hmode, hpk]
  exact ⟨hlatch, packerOk_empty, fun _ => trivial, fun hne => absurd rfl hne, nofun, nofun⟩

theorem hufInv_tree (hmode : h.mode = .tree) (hpk : h.pk = Packer.empty) (ht : TreeOk h) : HufInv h := by
  simp only [HufInv, hmode, hpk]
  exact ⟨hlatch, packerOk_empty, fun _ => trivial, fun _ => ht, nofun, nofun⟩

theorem hufInv_ready (hmode : h.mode = .ready) (hpk : h.pk = Packer.empty) (ht : TreeOk h) (hcodes : CodesOk h) :
    HufInv h := by
  simp only [HufInv, hmode, hpk]
  exact ⟨hlatch, packerOk_empty, fun _ => trivial, fun _ => ht, fun _ => hcodes, nofun⟩

theorem hufInv_enc (hmode : h.mode = .enc) (hpk : PackerOk h.pk) (ht : TreeOk h) (hcodes : CodesOk h) : HufInv h := by
  simp only [HufInv, hmode]
  exact ⟨hlatch, hpk, fun hne => absurd rfl hne, fun _ => ht, fun _ => hcodes, nofun⟩

theorem hufInv_dec (hmode : h.mode = .dec) (hpk : h.pk = Packer.empty) (ht : TreeOk h) (hcodes : CodesOk h)
    (hpayload : payloadBits h.ibuf = some h.nbits.toNat) (hcur : h.cur.toNat ≤ h.nbits.toNat) : HufInv h := by
  simp only [HufInv, hmode, hpk]
  exact ⟨hlatch, packerOk_empty, fun _ => trivial, fun _ => ht, fun _ => hcodes, fun _ => ⟨hpayload, hcur⟩⟩

end HufModes

theorem hufInv_reset : HufInv HufState.reset := hufInv_freq (by decide) rfl rfl

/-- What the mode check of a command of the Huffman engine says (the table of R252, read backwards). -/
def HufLegal (m : HufMode) : Instr → Prop
  | .hufCount _ _ | .hufSetfreq _ _ | .hufBuild _ _ => m = .freq
  | .hufGencodes _ _ => m = .tree
  | .hufEncBegin _ _ | .hufDecBegin _ _ => m = .ready
  | .hufEncSym _ _ | .hufEncEnd _ _ => m = .enc
  | .hufInByte _ _ | .hufInClear _ _ => m ≠ .dec
  | .hufDecSym _ _ | .hufDecAll _ _ | .hufDecEnd _ _ => m = .dec
  | _ => True

theorem hufLegal_of_isSome {i : Instr} {m : HufMode} (h : (hufTransition i m).isSome = true) : HufLegal m i := by
  cases i with
  | nop | resetAll | hufReset | hufRd | acReset | acModelInit | acSetcnt | acSettotal | acInc | acEncInit | acEncSym
  | acEncFinish | acInByte | acInClear | acDecInit | acDecSym | acDecEnd | acRd => trivial
  | _ => cases m <;> simp_all [hufTransition, HufLegal]

/-! ### Sizes -/

/-- In a bounded build a buffer within its capacity has fewer than `2 ^ 61` bytes (R8, R63). -/
theorem length_lt_of_fits {cap : Option Nat} (hwf : capWf cap = true) (hb : cap.isSome = true) {n : Nat}
    (h : fitsCap cap n = true) : n < 2 ^ 61 := by
  cases cap with
  | none => cases hb
  | some c =>
    simp only [capWf, fitsCap, Bool.and_eq_true, decide_eq_true_eq] at hwf h
    omega

/-- The code bits of a payload within a bounded capacity fit the 64-bit register. -/
theorem toNat_count64_of_payloadBits {p : Params} (hwf : p.wf = true) (hb : p.bounded = true) {ibuf : List Byte} {n : Nat}
    (hin : fitsCap p.inCap ibuf.length = true) (hn : payloadBits ibuf = some n) : (count64 n).toNat = n := by
  simp only [Params.wf, Params.bounded, Bool.and_eq_true] at hwf hb
  have hlen := length_lt_of_fits hwf.1 hb.1 hin
  obtain ⟨data, pad, rfl, -, rfl⟩ := payloadBits_eq_some hn
  rw [List.length_append, List.length_singleton] at hlen
  exact toNat_count64_of_lt (by omega)

/-- A decoded byte's code ends within the code bits. -/
theorem decodeOne_symbol_le {h : HufState} (ht : TreeOk h) (hp : payloadBits h.ibuf = some h.nbits.toNat) {cur next : Nat}
    (hcur : cur < h.nbits.toNat) {b : Byte} (hone : decodeOne h cur = .symbol b next) : next ≤ h.nbits.toNat := by
  obtain ⟨c, p, -, hpre, heq⟩ | ⟨-, heq⟩ := decodeOne_cases ht hp hcur
  · have hlen := hpre.length_le
    rw [length_bitsFrom] at hlen
    obtain ⟨-, rfl⟩ := DecodeStep.symbol.inj (heq.symm.trans hone)
    omega
  · exact nomatch heq.symm.trans hone

/-- The generated code table holds the paths of the tree. -/
theorem codesOk_of_genCodes {h : HufState} {t : CodeTable} (ht : TreeOk h) (hgen : genCodes h.node h.root = some t) :
    CodesOk { h with code := t } := by
  obtain ⟨code, m, hexec, hcodes, -⟩ := gencodesWritesThePaths (State.reset.setHuf { h with fault := 0, mode := .tree }) rfl rfl ht
  have heq := (exec_hufGencodes_of_genCodes (s := State.reset.setHuf { h with fault := 0, mode := .tree }) rfl rfl hgen).symm.trans
    hexec
  obtain rfl : t = code := congrArg (fun u => u.huf.code) (Host.Outcome.next.inj heq)
  exact hcodes

/-! ### What the commands keep -/

/-- A command of the Huffman engine keeps its invariant and its buffers within their capacities. -/
theorem hufInv_of_post {p : Params} (hwf : p.wf = true) (hb : p.bounded = true) {h h' : HufState} {i : Instr}
    (hinv : HufInv h) (hout : fitsCap p.outCap h.obuf.length = true) (hin : fitsCap p.inCap h.ibuf.length = true)
    (hlegal : HufLegal h.mode i) (hpost : HufPost p h i h') :
    HufInv h' ∧ fitsCap p.outCap h'.obuf.length = true ∧ fitsCap p.inCap h'.ibuf.length = true := by
  have ⟨hlatch, hpk, hempty, htree, hcodes, hdec⟩ := hinv
  cases i with
  | hufCount | hufSetfreq =>
    obtain rfl := hpost
    have hmode : h.mode = .freq := hlegal
    exact ⟨hufInv_freq hlatch hmode (hempty (by rw [hmode]; nofun)), hout, hin⟩
  | hufBuild =>
    obtain ⟨t, ht, rfl⟩ := hpost
    have hmode : h.mode = .freq := hlegal
    exact ⟨hufInv_tree hlatch rfl (hempty (by rw [hmode]; nofun)) (treeOk_withTree ht), hout, hin⟩
  | hufGencodes =>
    obtain ⟨t, ht, rfl⟩ := hpost
    have hmode : h.mode = .tree := hlegal
    have htreeOk := htree (by rw [hmode]; nofun)
    exact ⟨hufInv_ready hlatch rfl (hempty (by rw [hmode]; nofun)) htreeOk (codesOk_of_genCodes htreeOk ht), hout, hin⟩
  | hufEncBegin =>
    obtain rfl := hpost
    have hmode : h.mode = .ready := hlegal
    exact ⟨hufInv_enc hlatch rfl packerOk_empty (htree (by rw [hmode]; nofun)) (hcodes (.inl hmode)), fitsCap_zero _, hin⟩
  | hufEncSym =>
    obtain ⟨q, hq, rfl⟩ := hpost
    have hmode : h.mode = .enc := hlegal
    exact ⟨hufInv_enc hlatch hmode (packerOk_pushBits hq hpk) (htree (by rw [hmode]; nofun)) (hcodes (.inr (.inl hmode))),
      pushBits_fits hq hout, hin⟩
  | hufEncEnd =>
    obtain ⟨q, out, hq, hout', rfl⟩ := hpost
    have hmode : h.mode = .enc := hlegal
    exact ⟨hufInv_ready hlatch rfl (pk_eq_empty_of_flushPacker hq hpk) (htree (by rw [hmode]; nofun))
      (hcodes (.inr (.inl hmode))), appendBytes_fits hout', hin⟩
  | hufInByte =>
    obtain ⟨ibuf, hibuf, rfl⟩ := hpost
    exact ⟨⟨hlatch, hpk, hempty, htree, hcodes, fun hmode => absurd hmode hlegal⟩, hout, appendBytes_fits hibuf⟩
  | hufInClear =>
    obtain rfl := hpost
    exact ⟨⟨hlatch, hpk, hempty, htree, hcodes, fun hmode => absurd hmode hlegal⟩, hout, fitsCap_zero _⟩
  | hufDecBegin =>
    obtain ⟨n, hn, rfl⟩ := hpost
    have hmode : h.mode = .ready := hlegal
    have hnat := toNat_count64_of_payloadBits hwf hb hin hn
    exact ⟨hufInv_dec hlatch rfl (hempty (by rw [hmode]; nofun)) (htree (by rw [hmode]; nofun)) (hcodes (.inl hmode))
      (hn.trans (congrArg some hnat.symm)) (Nat.zero_le _), fitsCap_zero _, hin⟩
  | hufDecSym =>
    obtain rfl | ⟨b, cur, obuf, hone, hlt, hobuf, rfl⟩ := hpost
    · exact ⟨hinv, hout, hin⟩
    · have hmode : h.mode = .dec := hlegal
      have htreeOk := htree (by rw [hmode]; nofun)
      obtain ⟨hpayload, -⟩ := hdec hmode
      have hle := decodeOne_symbol_le htreeOk hpayload hlt hone
      exact ⟨hufInv_dec hlatch hmode (hempty (by rw [hmode]; nofun)) htreeOk (hcodes (.inr (.inr hmode))) hpayload
        ((toNat_ofNat_word (hle.trans_lt h.nbits.isLt)).trans_le hle), appendBytes_fits hobuf, hin⟩
  | hufDecAll =>
    obtain ⟨out, cur, obuf, -, hobuf, rfl⟩ := hpost
    have hmode : h.mode = .dec := hlegal
    exact ⟨hufInv_ready hlatch rfl (hempty (by rw [hmode]; nofun)) (htree (by rw [hmode]; nofun))
      (hcodes (.inr (.inr hmode))), appendBytes_fits hobuf, hin⟩
  | hufDecEnd =>
    obtain rfl := hpost
    have hmode : h.mode = .dec := hlegal
    exact ⟨hufInv_ready hlatch rfl (hempty (by rw [hmode]; nofun)) (htree (by rw [hmode]; nofun))
      (hcodes (.inr (.inr hmode))), hout, hin⟩
  | _ => exact hpost.elim

/-! ### The arithmetic coder, mode by mode -/

section AcModes

variable {c : AcState} (hlatch : LatchOk c.fault)

include hlatch

theorem acInv_of_not_coding (hpk : c.pk = Packer.empty) (henc : c.mode ≠ .enc) (hdec : c.mode ≠ .dec) : AcInv c := by
  simp only [AcInv, hpk]
  exact ⟨hlatch, packerOk_empty, fun _ => trivial, fun h => absurd h (not_or.mpr ⟨henc, hdec⟩), fun h => absurd h hdec,
    fun h => absurd h henc⟩

theorem acInv_enc (hmode : c.mode = .enc) (hpk : PackerOk c.pk) (hok : IntervalOk c.low.toNat c.high.toNat)
    (hobuf : 8 ≤ c.obuf.length) : AcInv c := by
  simp only [AcInv, hmode]
  exact ⟨hlatch, hpk, fun hne => absurd rfl hne, fun _ => hok, nofun, fun _ => hobuf⟩

theorem acInv_dec (hmode : c.mode = .dec) (hpk : c.pk = Packer.empty) (hok : IntervalOk c.low.toNat c.high.toNat)
    (hvalue : c.low.toNat ≤ c.value.toNat ∧ c.value.toNat ≤ c.high.toNat) : AcInv c := by
  simp only [AcInv, hmode, hpk]
  exact ⟨hlatch, packerOk_empty, fun _ => trivial, fun _ => hok, fun _ => hvalue, nofun⟩

end AcModes

theorem acInv_reset : AcInv AcState.reset := acInv_of_not_coding (by decide) rfl nofun nofun

/-- What the mode check of a command of the arithmetic coder says (the table of R253, read backwards). -/
def AcLegal (m : AcMode) : Instr → Prop
  | .acEncInit _ _ | .acDecInit _ _ => m = .idle ∨ m = .done
  | .acEncSym _ _ | .acEncFinish _ _ => m = .enc
  | .acInByte _ _ | .acInClear _ _ => m ≠ .dec
  | .acDecSym _ _ | .acDecEnd _ _ => m = .dec
  | _ => True

theorem acLegal_of_isSome {i : Instr} {m : AcMode} (h : (acTransition i m).isSome = true) : AcLegal m i := by
  cases i with
  | acEncInit | acDecInit | acEncSym | acEncFinish | acInByte | acInClear | acDecSym | acDecEnd =>
    cases m <;> simp_all [acTransition, AcLegal]
  | _ => trivial

/-! ### Intervals -/

theorem intervalOk_full : IntervalOk (0 : Word).toNat (BitVec.ofNat 64 maxV).toNat := by decide

theorem value_mem_full (v : Word) : (0 : Word).toNat ≤ v.toNat ∧ v.toNat ≤ (BitVec.ofNat 64 maxV).toNat := by
  have hv := v.isLt
  have hmaxV : maxV = 2 ^ 64 - 1 := rfl
  rw [toNat_ofNat_word (by omega)]
  exact ⟨Nat.zero_le _, by omega⟩

/-- The registers hold a normalised interval as it is. -/
theorem toNat_ofNat_interval {low high : Nat} (hok : IntervalOk low high) (hmax : high ≤ maxV) :
    (BitVec.ofNat 64 low).toNat = low ∧ (BitVec.ofNat 64 high).toNat = high := by
  obtain ⟨hle, -⟩ := intervalOk_range hok
  have hmaxV : maxV = 2 ^ 64 - 1 := rfl
  exact ⟨toNat_ofNat_word (by omega), toNat_ofNat_word (by omega)⟩

/-- The interval that `AC_ENC_SYM` leaves (R46). -/
theorem intervalOk_symRnu {c : AcState} {m : AcMode} (hc : Coding c m) (b : Byte) :
    IntervalOk (symRnu c b).low (symRnu c b).high ∧ (symRnu c b).high ≤ maxV := by
  obtain ⟨hle, -, -, hmax⟩ := sym_bounds hc b
  exact rnuEnc_intervalOk hle hmax _

/-- The interval and the value that `AC_DEC_SYM` leaves (R46). -/
theorem intervalOk_symDec {c : AcState} {m : AcMode} (hc : Coding c m) {b : Byte}
    (hvalue : symLow c b ≤ c.value.toNat ∧ c.value.toNat ≤ symHigh c b) :
    IntervalOk (symDec c b).low (symDec c b).high ∧ (symDec c b).high ≤ maxV ∧
      (symDec c b).low ≤ (symDec c b).value ∧ (symDec c b).value ≤ (symDec c b).high := by
  obtain ⟨hle, -, -, hmax⟩ := sym_bounds hc b
  obtain ⟨hlow, hhigh⟩ := symDec_interval hc b 0
  obtain ⟨hok, hmax'⟩ := rnuEnc_intervalOk hle hmax 0
  rw [← hlow, ← hhigh] at hok
  rw [← hhigh] at hmax'
  exact ⟨hok, hmax', rnuDec_value_mem _ _ hvalue.1 hvalue.2⟩

/-- The registers that `AC_DEC_SYM` leaves. -/
theorem acInv_decoded {c : AcState} (hinv : AcInv c) (hc : Coding c .dec) {b : Byte}
    (hvalue : symLow c b ≤ c.value.toNat ∧ c.value.toNat ≤ symHigh c b) : AcInv (decoded c b) := by
  obtain ⟨hlatch, -, hempty, -⟩ := hinv
  have ⟨hmode, _⟩ := hc
  obtain ⟨hok, hmax, hvlow, hvhigh⟩ := intervalOk_symDec hc hvalue
  obtain ⟨hlow, hhigh⟩ := toNat_ofNat_interval hok hmax
  have hv : (BitVec.ofNat 64 (symDec c b).value).toNat = (symDec c b).value :=
    toNat_ofNat_word ((hvhigh.trans hmax).trans_lt (by decide))
  refine acInv_dec hlatch hmode (hempty (by rw [hmode]; nofun)) ?_ ?_
  · rw [decoded, hlow, hhigh]
    exact hok
  · rw [decoded, hlow, hhigh, hv]
    exact ⟨hvlow, hvhigh⟩

/-- A decoder with the value inside its interval finds a symbol whose sub-interval the value lies in (R210, R213). -/
theorem exists_symbol_of_value {c : AcState} (hc : Coding c .dec) (hlow : c.low.toNat ≤ c.value.toNat)
    (hhigh : c.value.toNat ≤ c.high.toNat) :
    ∃ sym : Byte, targetOf c.low.toNat c.high.toNat c.value.toNat c.total.toNat = some (decTarget c) ∧
      findSymbol c.cnt (decTarget c) = some sym.toNat ∧ (symLow c sym ≤ c.value.toNat ∧ c.value.toNat ≤ symHigh c sym) ∧
      narrow c.low.toNat c.high.toNat (cum c.cnt sym.toNat) (cum c.cnt (sym.toNat + 1)) c.total.toNat =
        some (symLow c sym, symHigh c sym) := by
  have ⟨_, _, hvalid, hok⟩ := hc
  obtain ⟨hpos, -⟩ := total_bounds hvalid hok
  obtain ⟨hle, -⟩ := intervalOk_range hok
  obtain ⟨-, htotal⟩ := tableValid_iff.mp hvalid
  have htarget : decTarget c < cum c.cnt 256 := htotal ▸ target_lt hpos hlow hhigh
  obtain ⟨sym, hfind, hcl, hch⟩ := findSymbol_spec htarget
  obtain ⟨hnarrow, -⟩ := narrow_symbol hvalid hok sym
  exact ⟨sym, targetOf_of_le hle hpos hlow, hfind, (value_mem_symbol_iff hc hlow sym).mpr ⟨hcl, hch⟩, hnarrow⟩

/-- A command of the arithmetic coder keeps its invariant and its buffers within their capacities. -/
theorem acInv_of_post {p : Params} {c c' : AcState} {i : Instr} (hinv : AcInv c)
    (hout : fitsCap p.outCap c.obuf.length = true) (hin : fitsCap p.inCap c.ibuf.length = true) (hfault : c.fault = 0)
    (hlegal : AcLegal c.mode i) (hpost : AcPost p c i c') :
    AcInv c' ∧ fitsCap p.outCap c'.obuf.length = true ∧ fitsCap p.inCap c'.ibuf.length = true := by
  have ⟨hlatch, hpk, hempty, hok, hvalue, hobuf⟩ := hinv
  cases i with
  | acModelInit | acSetcnt | acSettotal | acInc =>
    obtain rfl := hpost
    exact ⟨hinv, hout, hin⟩
  | acEncInit =>
    obtain ⟨obuf, hobuf', rfl⟩ := hpost
    have hlen : obuf.length = 8 := by
      obtain ⟨-, rfl⟩ := appendBytes_eq_some.mp hobuf'
      rfl
    exact ⟨acInv_enc hlatch rfl packerOk_empty intervalOk_full hlen.ge, appendBytes_fits hobuf', hin⟩
  | acEncSym a =>
    obtain ⟨lo, hi, q, hvalid, -, hnarrow, -, hq, rfl⟩ := hpost
    have hmode : c.mode = .enc := hlegal
    have hc : Coding c .enc := ⟨hmode, hfault, hvalid, hok (.inl hmode)⟩
    obtain ⟨hsym, -⟩ := narrow_symbol hvalid (hok (.inl hmode)) a
    rw [cum_succ] at hsym
    obtain ⟨rfl, rfl⟩ : symLow c a = lo ∧ symHigh c a = hi := by
      rw [symLow, symHigh, cum_succ]
      exact Prod.mk.inj (Option.some.inj (hsym.symm.trans hnarrow))
    obtain ⟨hok', hmax⟩ := intervalOk_symRnu hc a
    obtain ⟨hlow, hhigh⟩ := toNat_ofNat_interval hok' hmax
    refine ⟨acInv_enc hlatch hmode (packerOk_pushBits hq hpk) ?_ ((hobuf hmode).trans (length_le_pushBits hq)),
      pushBits_fits hq hout, hin⟩
    rw [symRnu] at hlow hhigh hok'
    rw [hlow, hhigh]
    exact hok'
  | acEncFinish =>
    obtain ⟨q, q', hlen, hq, hq', rfl⟩ := hpost
    have hlen' : q.out.length ≤ q'.out.length := by
      rw [length_flushPacker hq']
      exact Nat.le_add_right ..
    have hheader : 8 ≤ q'.out.length := (hlen.trans (length_le_pushBits hq)).trans hlen'
    refine ⟨acInv_of_not_coding hlatch (pk_eq_empty_of_flushPacker hq' (packerOk_pushBits hq hpk)) nofun nofun, ?_, hin⟩
    rw [header_length hheader]
    exact flushPacker_fits hq' (pushBits_fits hq hout)
  | acInByte =>
    obtain ⟨ibuf, hibuf, rfl⟩ := hpost
    exact ⟨hinv, hout, appendBytes_fits hibuf⟩
  | acInClear =>
    obtain rfl := hpost
    exact ⟨hinv, hout, fitsCap_zero _⟩
  | acDecInit =>
    obtain ⟨-, rfl⟩ := hpost
    have hmode : c.mode ≠ .enc := by
      obtain hidle | hdone := (hlegal : c.mode = .idle ∨ c.mode = .done)
      · rw [hidle]; nofun
      · rw [hdone]; nofun
    exact ⟨acInv_dec hlatch rfl (hempty hmode) intervalOk_full (value_mem_full _), hout, hin⟩
  | acDecSym =>
    obtain rfl | ⟨target, sym, lo, hi, hvalid, htarget, hfind, hnarrow, -, rfl⟩ := hpost
    · exact ⟨hinv, hout, hin⟩
    · have hmode : c.mode = .dec := hlegal
      have hc : Coding c .dec := ⟨hmode, hfault, hvalid, hok (.inr hmode)⟩
      obtain ⟨b, htarget', hfind', hmem, hnarrow'⟩ := exists_symbol_of_value hc (hvalue hmode).1 (hvalue hmode).2
      obtain rfl := Option.some.inj (htarget'.symm.trans htarget)
      obtain rfl := Option.some.inj (hfind'.symm.trans hfind)
      obtain ⟨rfl, rfl⟩ := Prod.mk.inj (Option.some.inj (hnarrow'.symm.trans hnarrow))
      exact ⟨acInv_decoded hinv hc hmem, hout, hin⟩
  | acDecEnd =>
    obtain rfl := hpost
    have hmode : c.mode = .dec := hlegal
    exact ⟨acInv_of_not_coding hlatch (hempty (by rw [hmode]; nofun)) nofun nofun, hout, hin⟩
  | _ => exact hpost.elim

/-! ### Every command, every step -/

/-- A fault that a command takes leaves a code of R226 in the latch. -/
theorem latchOk_statusCode {code : Status} (hcode : isFaultStatus code = true) (hne : code ≠ .emptyInput) :
    LatchOk (statusCode code) := by
  cases code with
  | emptyInput => exact absurd rfl hne
  | ok | badOperand | sequenceError | faulted | illegalCommand => cases hcode
  | _ => decide

theorem hufInv_setFault {h : HufState} (hinv : HufInv h) {f : BitVec 8} (hf : LatchOk f) : HufInv { h with fault := f } :=
  ⟨hf, hinv.2⟩

theorem acInv_setFault {c : AcState} (hinv : AcInv c) {f : BitVec 8} (hf : LatchOk f) : AcInv { c with fault := f } :=
  ⟨hf, hinv.2⟩

theorem hardwareReset_memory_wf {s : State} (h : Memory.wf s) : Memory.wf (hardwareReset s) :=
  resetEngine_memory_wf (e := .ac) (resetEngine_memory_wf h)

/-- A command keeps the invariant. -/
theorem inv_of_done {i : Instr} {s t : State} (hinv : Inv s) (h : Done i s t) : Inv t := by
  have ⟨hwf, hb, hmem, hhuf, hac⟩ := hinv
  have ⟨houtH, hinH, houtA, hinA⟩ := hmem
  cases h with
  | refused | read => exact hinv
  | huf h' v _ hlegal _ hpost =>
    obtain ⟨hhuf', hout, hin⟩ := hufInv_of_post hwf hb hhuf houtH hinH (hufLegal_of_isSome hlegal) hpost
    exact ⟨hwf, hb, ⟨hout, hin, houtA, hinA⟩, hhuf', hac⟩
  | ac c' v hlatch hlegal _ hpost =>
    obtain ⟨hac', hout, hin⟩ := acInv_of_post hac houtA hinA hlatch (acLegal_of_isSome hlegal) hpost
    exact ⟨hwf, hb, ⟨houtH, hinH, hout, hin⟩, hhuf, hac'⟩
  | resetAll =>
    have hmem' : Memory.wf (hardwareReset s) := hardwareReset_memory_wf hmem
    exact ⟨hwf, hb, hmem', hufInv_reset, acInv_reset⟩
  | hufReset =>
    have hmem' : Memory.wf (resetEngine .huf s) := resetEngine_memory_wf hmem
    exact ⟨hwf, hb, hmem', hufInv_reset, hac⟩
  | acReset =>
    have hmem' : Memory.wf (resetEngine .ac s) := resetEngine_memory_wf hmem
    exact ⟨hwf, hb, hmem', hhuf, acInv_reset⟩
  | raised e code _ hcode hne hraise =>
    have hlatch := latchOk_statusCode hcode hne
    have hmem' := raiseFault_memory_wf hmem hraise
    cases e with
    | huf =>
      obtain rfl := Host.Outcome.next.inj hraise
      exact ⟨hwf, hb, hmem', hufInv_setFault hhuf hlatch, hac⟩
    | ac =>
      obtain rfl := Host.Outcome.next.inj hraise
      exact ⟨hwf, hb, hmem', hhuf, acInv_setFault hac hlatch⟩

/-- Settles O56: the modes after reset are `FREQ` and `IDLE`, and the buffers and packers are empty. -/
theorem resetSatisfiesTheInvariant : Obligations.ResetSatisfiesTheInvariant := by
  have hreset : ∀ p : Params, p.wf = true → p.bounded = true → Inv (State.resetOf p) := fun p hwf hb =>
    ⟨hwf, hb, reset_memory_wf p, hufInv_reset, acInv_reset⟩
  exact ⟨hreset, hreset Params.default (by decide) (by decide)⟩

/-- What a step does: nothing, the hardware reset, a refusal, or a command (R100). -/
theorem step_cases (s : State) :
    step s = .next s ∨
    ∃ e rest, s.port = e :: rest ∧
      (step s = .next (hardwareReset { s with port := rest }) ∨
        step s = .next (replied { s with port := rest } .illegalCommand 0) ∨
        ∃ i, step s = exec i { s with port := rest }) := by
  unfold step takeEvent
  cases s.port with
  | nil => exact .inl rfl
  | cons e rest =>
    refine .inr ⟨e, rest, rfl, ?_⟩
    cases e with
    | hardwareReset => exact .inl rfl
    | command w =>
      dsimp only
      cases decode w with
      | error r => exact .inr (.inl rfl)
      | ok i => exact .inr (.inr ⟨i, rfl⟩)

/-- Settles O57: every command keeps the invariant, command by command of each engine. -/
theorem stepKeepsTheInvariant : Obligations.StepKeepsTheInvariant := by
  intro s t hinv hstep
  obtain heq | ⟨e, rest, -, heq | heq | ⟨i, heq⟩⟩ := step_cases s
  · exact Host.Outcome.next.inj (heq.symm.trans hstep) ▸ hinv
  · obtain rfl := Host.Outcome.next.inj (heq.symm.trans hstep)
    obtain ⟨hwf, hb, hmem, -, -⟩ := hinv
    exact ⟨hwf, hb, hardwareReset_memory_wf hmem, hufInv_reset, acInv_reset⟩
  · obtain rfl := Host.Outcome.next.inj (heq.symm.trans hstep)
    exact hinv
  · exact inv_of_done (s := { s with port := rest }) hinv (exec_next_done (heq.symm.trans hstep))

/-! ### No command is without a result -/

theorem not_hufStuck {h : HufState} {i : Instr} (hinv : HufInv h) (hlegal : HufLegal h.mode i) : ¬ HufStuck h i := by
  obtain ⟨-, -, -, htree, hcodes, hdec⟩ := hinv
  cases i with
  | hufGencodes =>
    have hmode : h.mode = .tree := hlegal
    obtain ⟨t, ht, -⟩ := genCodes_spec (htree (by rw [hmode]; nofun))
    exact fun hnone => nomatch hnone.symm.trans ht
  | hufDecSym =>
    have hmode : h.mode = .dec := hlegal
    obtain ⟨hpayload, hcur⟩ := hdec hmode
    rintro ⟨hne, hlt | hbroken⟩
    · exact absurd hcur (not_le.mpr hlt)
    · have hlt : h.cur.toNat < h.nbits.toNat := lt_of_le_of_ne hcur fun heq => hne (BitVec.eq_of_toNat_eq heq)
      obtain ⟨b, p, -, -, heq⟩ | ⟨-, heq⟩ := decodeOne_cases (htree (by rw [hmode]; nofun)) hpayload hlt
      · exact nomatch hbroken.symm.trans heq
      · exact nomatch hbroken.symm.trans heq
  | hufDecAll =>
    have hmode : h.mode = .dec := hlegal
    obtain ⟨hpayload, hcur⟩ := hdec hmode
    have htreeOk := htree (by rw [hmode]; nofun)
    have hcodesOk := hcodes (.inr (.inr hmode))
    intro hbroken
    by_cases hbs : ∃ bs : List Byte, (∀ b ∈ bs, Coded h b) ∧ bitsFrom h h.cur.toNat = bs.flatMap (codeOf h.code)
    · obtain ⟨bs, hcoded, heq⟩ := hbs
      exact nomatch hbroken.symm.trans (decodeRest_of_codes htreeOk hcodesOk hpayload hcoded hcur le_rfl heq)
    · exact nomatch hbroken.symm.trans (decodeRest_of_no_codes htreeOk hcodesOk hpayload hcur le_rfl
        fun bs hcoded heq => hbs ⟨bs, hcoded, heq⟩)
  | _ => exact id

theorem not_acStuck {c : AcState} {i : Instr} (hinv : AcInv c) (hfault : c.fault = 0) (hlegal : AcLegal c.mode i) :
    ¬ AcStuck c i := by
  obtain ⟨-, -, -, hok, hvalue, hobuf⟩ := hinv
  cases i with
  | acEncSym a =>
    have hmode : c.mode = .enc := hlegal
    rintro ⟨hvalid, hnone⟩
    obtain ⟨hsym, -⟩ := narrow_symbol hvalid (hok (.inl hmode)) a
    rw [cum_succ] at hsym
    exact nomatch hnone.symm.trans hsym
  | acEncFinish =>
    have hmode : c.mode = .enc := hlegal
    exact not_lt.mpr (hobuf hmode)
  | acDecSym =>
    have hmode : c.mode = .dec := hlegal
    obtain ⟨hle, -⟩ := intervalOk_range (hok (.inr hmode))
    rintro ⟨hvalid, hempty | ⟨target, sym, htarget, hfind, hnone⟩⟩
    · exact absurd hle (not_le.mpr hempty)
    · obtain ⟨b, htarget', hfind', -, hnarrow⟩ :=
        exists_symbol_of_value ⟨hmode, hfault, hvalid, hok (.inr hmode)⟩ (hvalue hmode).1 (hvalue hmode).2
      obtain rfl := Option.some.inj (htarget'.symm.trans htarget)
      obtain rfl := Option.some.inj (hfind'.symm.trans hfind)
      exact nomatch hnone.symm.trans hnarrow
  | _ => exact id

theorem exists_raiseFault_eq_next (e : Engine) (s : State) (code : Status) : ∃ t, raiseFault e s code = .next t := by
  cases e with
  | huf => exact ⟨_, rfl⟩
  | ac => exact ⟨_, rfl⟩

/-- Work that cannot be stuck ends in a next state. -/
theorem Ends.exists_next {σ : Type} {e : Engine} {s : State} {put : State → σ → State} {post : σ → Prop} {stuck : Prop}
    {k : Result} (h : Ends e s put post stuck k) (hstuck : ¬ stuck) : ∃ t, k = .next t := by
  cases h with
  | answers x v _ => exact ⟨_, rfl⟩
  | raises code _ _ => exact exists_raiseFault_eq_next e s code
  | stops _ hstuck' => exact absurd hstuck' hstuck

theorem exists_engineCommand_eq_next {e : Engine} {operandsOk modeOk : Bool} {s : State} {k : Result}
    (h : faultLatch e s = 0 → modeOk = true → ∃ t, k = .next t) :
    ∃ t, engineCommand e operandsOk modeOk s k = .next t := by
  obtain ⟨-, hlatch, hmode, hpass⟩ | ⟨-, hrefused⟩ | ⟨-, -, hrefused⟩ | ⟨-, -, -, hrefused⟩ :=
    engineCommand_cases e operandsOk modeOk s k
  · rw [hpass]
    exact h hlatch hmode
  · exact ⟨_, hrefused⟩
  · exact ⟨_, hrefused⟩
  · exact ⟨_, hrefused⟩

theorem exists_checkOperands_eq_next (ok : Bool) (s t : State) : ∃ u, checkOperands ok s (answer t 0) = .next u := by
  obtain ⟨-, heq⟩ | ⟨-, heq⟩ := checkOperands_cases ok s (answer t 0)
  · exact ⟨_, heq⟩
  · exact ⟨_, heq⟩

theorem exists_exec_hufRd_eq_next (a : Byte) (d : Word) (s : State) : ∃ t, exec (.hufRd a d) s = .next t := by
  change ∃ t, execHufRd a d s = .next t
  unfold execHufRd
  split
  · exact ⟨_, rfl⟩
  · split_ifs <;> exact ⟨_, rfl⟩

theorem exists_exec_acRd_eq_next (a : Byte) (d : Word) (s : State) : ∃ t, exec (.acRd a d) s = .next t := by
  change ∃ t, execAcRd a d s = .next t
  unfold execAcRd
  split
  · exact ⟨_, rfl⟩
  · split_ifs <;> exact ⟨_, rfl⟩

/-- In a state of the invariant every command ends in a next state. -/
theorem exists_exec_eq_next {s : State} (hinv : Inv s) (i : Instr) : ∃ t, exec i s = .next t := by
  obtain ⟨-, -, -, hhuf, hac⟩ := hinv
  cases kind i s with
  | huf hspec =>
    obtain ⟨-, -, -, k, hexec, hends⟩ := hspec
    rw [hexec]
    exact exists_engineCommand_eq_next fun _ hlegal => hends.exists_next (not_hufStuck hhuf (hufLegal_of_isSome hlegal))
  | ac hspec =>
    obtain ⟨-, -, -, k, hexec, hends⟩ := hspec
    rw [hexec]
    exact exists_engineCommand_eq_next fun hfault hlegal =>
      hends.exists_next (not_acStuck hac hfault (acLegal_of_isSome hlegal))
  | nop | resetAll | hufReset | acReset => exact exists_checkOperands_eq_next _ _ _
  | hufRd a d => exact exists_exec_hufRd_eq_next a d s
  | acRd a d => exact exists_exec_acRd_eq_next a d s

theorem exists_step_eq_next {s : State} (hinv : Inv s) : ∃ t, step s = .next t := by
  obtain heq | ⟨e, rest, -, heq | heq | ⟨i, heq⟩⟩ := step_cases s
  · exact ⟨_, heq⟩
  · exact ⟨_, heq⟩
  · exact ⟨_, heq⟩
  · rw [heq]
    exact exists_exec_eq_next (s := { s with port := rest }) hinv i

/-- Settles O58: by induction on the length of the run, each step from a state of the invariant. -/
theorem everyStepAnswers : Obligations.EveryStepAnswers := by
  refine ⟨fun s => exists_step_eq_next, fun s k => ?_⟩
  induction k generalizing s with
  | zero => exact fun _ => ⟨s, rfl⟩
  | succ k ih =>
    intro hinv
    obtain ⟨t, hstep⟩ := exists_step_eq_next hinv
    obtain ⟨u, hrun⟩ := ih t (stepKeepsTheInvariant s t hinv hstep)
    refine ⟨u, ?_⟩
    have hcore : core.step s = .next t := hstep
    simp only [Host.Core.run, hcore]
    exact hrun

/-! ### `AC_DEC_SYM` (R214) -/

/-- From a state of the invariant `AC_DEC_SYM` is refused, answers, or takes a fault other than `DecodeDesync`. -/
theorem acDecSym_status {s t : State} {a : Byte} {d : Word} (hinv : AcInv s.ac) (hexec : exec (.acDecSym a d) s = .next t) :
    ∃ r : Response, t.responses = r :: s.responses ∧ r.status ≠ .decodeDesync := by
  obtain ⟨-, -, -, hok, hvalue, -⟩ := hinv
  have hraise : ∀ code, code ≠ .decodeDesync → raiseFault .ac s code = .next t →
      ∃ r : Response, t.responses = r :: s.responses ∧ r.status ≠ .decodeDesync := fun code hne h => by
    obtain rfl := Host.Outcome.next.inj h
    exact ⟨⟨code, 0⟩, rfl, hne⟩
  have hdef : exec (.acDecSym a d) s = engineCommand .ac _ _ s _ := rfl
  obtain ⟨code, hcode, rfl⟩ | ⟨hfault, hmode, hwork⟩ := engineCommand_next (hdef.symm.trans hexec)
  · exact ⟨⟨code, 0⟩, rfl, fun heq : code = .decodeDesync => by rw [heq] at hcode; cases hcode⟩
  · have hmode : s.ac.mode = .dec := beq_iff_eq.mp hmode
    obtain ⟨hle, -⟩ := intervalOk_range (hok (.inr hmode))
    obtain ⟨hlow, hhigh⟩ := hvalue hmode
    dsimp only at hwork
    split at hwork
    · obtain rfl := Host.Outcome.next.inj hwork
      exact ⟨⟨.ok, endMarker⟩, rfl, nofun⟩
    · split at hwork
      · exact hraise .badModel nofun hwork
      next hvalid =>
        rw [Bool.not_eq_true', Bool.not_eq_false] at hvalid
        obtain ⟨sym, htarget, hfind, -, hnarrow⟩ :=
          exists_symbol_of_value ⟨hmode, hfault, hvalid, hok (.inr hmode)⟩ hlow hhigh
        rw [if_neg (not_lt.mpr hle), htarget] at hwork
        dsimp only at hwork
        rw [hfind] at hwork
        dsimp only at hwork
        rw [hnarrow] at hwork
        dsimp only at hwork
        split at hwork
        · exact hraise .counterOverflow nofun hwork
        · obtain rfl := Host.Outcome.next.inj hwork
          exact ⟨⟨.ok, _⟩, rfl, nofun⟩

/-- Settles O53: the value's target is inside the table, and the invariant holds after the command too. -/
theorem desyncIsUnreachable : Obligations.DesyncIsUnreachable := by
  intro s t a d hinv hexec
  have ⟨_, _, _, _, hac⟩ := hinv
  obtain ⟨_, _, _, _, -, -, -, -, hvalue, -⟩ := inv_of_done hinv (exec_next_done hexec)
  obtain ⟨r, hr, hne⟩ := acDecSym_status hac hexec
  refine ⟨fun r' hr' => ?_, hvalue⟩
  obtain ⟨rfl, -⟩ := List.cons.inj (hr.symm.trans hr')
  exact hne

end Sys2Proof.Proofs

/-! SUPPORT. The arithmetic behind the round trip of the arithmetic coder (47_ac_decoder.md section 3). After `k` steps of
either unit, with emitted bits `E` and `p` pending bits (`k = E.length + p`), the encoder's interval starts at the number
`lead E p` of `64 + k` bits, and the decoder's value is the number of the first `64 + k` bits of the stream less `lead E p`.
So the value lies in the decoder's interval exactly where the stream's number lies in the encoder's (`Inside`). -/

namespace Sys2Proof.Proofs

open Sys2Proof.Machine Sys2Proof.Statements

/-! ### Numbers of bit strings -/

theorem bitsToNat_append (l r : List Bool) : bitsToNat (l ++ r) = bitsToNat l * 2 ^ r.length + bitsToNat r := by
  induction r using List.reverseRecOn with
  | nil => rw [List.append_nil, List.length_nil, pow_zero, mul_one]; rfl
  | append_singleton r b ih =>
    rw [← List.append_assoc, bitsToNat_concat, bitsToNat_concat, ih, List.length_append, List.length_singleton, pow_succ]
    ring

theorem bitsToNat_cons (b : Bool) (r : List Bool) : bitsToNat (b :: r) = b.toNat * 2 ^ r.length + bitsToNat r := by
  have hone : bitsToNat [b] = b.toNat := Nat.zero_add _
  rw [← List.singleton_append, bitsToNat_append, hone]

theorem bitsToNat_replicate_false (n : Nat) : bitsToNat (List.replicate n false) = 0 := by
  induction n with
  | zero => rfl
  | succ n ih => rw [List.replicate_succ', bitsToNat_concat, ih]; rfl

theorem bitsToNat_replicate_true (n : Nat) : bitsToNat (List.replicate n true) + 1 = 2 ^ n := by
  induction n with
  | zero => rfl
  | succ n ih =>
    rw [List.replicate_succ', bitsToNat_concat, pow_succ, ← ih, Bool.toNat_true]
    ring

theorem bitsToNat_lt (l : List Bool) : bitsToNat l < 2 ^ l.length := by
  induction l using List.reverseRecOn with
  | nil => exact Nat.one_pos
  | append_singleton l b ih =>
    have hb := b.toNat_lt
    rw [bitsToNat_concat, List.length_append, List.length_singleton, pow_succ]
    omega

/-! ### The bits read so far -/

/-- The number of the first `64 + k` bits of a stream. -/
def window (S : Nat → Bool) (k : Nat) : Nat := bitsToNat ((List.range (64 + k)).map S)

theorem window_succ (S : Nat → Bool) (k : Nat) : window S (k + 1) = 2 * window S k + (S (64 + k)).toNat := by
  rw [window, window, ← add_assoc, List.range_succ, List.map_append, List.map_singleton, bitsToNat_concat]

/-- The stream of a bit string, 0 past its end (R67). -/
def streamOf (l : List Bool) (k : Nat) : Bool := (l[k]?).getD false

theorem map_streamOf_range {l : List Bool} {n : Nat} (h : l.length ≤ n) :
    (List.range n).map (streamOf l) = l ++ List.replicate (n - l.length) false := by
  refine List.ext_getElem ?_ fun i hi hi' => ?_
  · rw [List.length_map, List.length_range, List.length_append, List.length_replicate]
    omega
  · rw [List.getElem_map, List.getElem_range, streamOf]
    by_cases hlt : i < l.length
    · rw [List.getElem?_eq_getElem hlt, List.getElem_append_left hlt, Option.getD_some]
    · rw [List.getElem?_eq_none (not_lt.mp hlt), List.getElem_append_right (not_lt.mp hlt), List.getElem_replicate,
        Option.getD_none]

theorem window_streamOf {l : List Bool} {k : Nat} (h : l.length ≤ 64 + k) :
    window (streamOf l) k = bitsToNat l * 2 ^ (64 + k - l.length) := by
  rw [window, map_streamOf_range h, bitsToNat_append, bitsToNat_replicate_false, List.length_replicate, add_zero]

/-! ### The start of the encoder's interval -/

/-- The number at which the interval starts: the emitted bits `E`, then `p` bits that are not decided. -/
def lead (E : List Bool) (p : Nat) : Nat := bitsToNat E * 2 ^ (64 + p) + (2 ^ p - 1) * 2 ^ 63

/-- A step subtracts its offset from the interval and doubles, so it adds the offset to the start and doubles (R192, R193). -/
theorem lead_step {c : RnuCase} (hc : c ≠ .stop) (E : List Bool) (p : Nat) :
    lead (E ++ stepBits c p) (stepPending c p) = 2 * (lead E p + rnuOff c) := by
  obtain ⟨q, hq⟩ : ∃ q, 2 ^ p = q + 1 := ⟨2 ^ p - 1, by have := Nat.one_le_two_pow (n := p); omega⟩
  have hones := bitsToNat_replicate_true p
  rw [hq] at hones
  have hones' : bitsToNat (List.replicate p true) = q := by omega
  cases c with
  | e1 =>
    simp only [lead, stepBits, stepPending, rnuOff, bitsToNat_append, bitsToNat_cons, hones', List.length_cons,
      List.length_replicate, pow_add, hq, Bool.toNat_false]
    ring_nf
    omega
  | e2 =>
    simp only [lead, stepBits, stepPending, rnuOff, half, bitsToNat_append, bitsToNat_cons, bitsToNat_replicate_false,
      List.length_cons, List.length_replicate, pow_add, hq, Bool.toNat_true]
    ring_nf
    omega
  | e3 =>
    simp only [lead, stepBits, stepPending, rnuOff, quarter, List.append_nil, pow_add, hq]
    ring_nf
    omega
  | stop => exact absurd rfl hc

/-- A step is one step further in the stream. -/
theorem length_append_stepBits {c : RnuCase} (hc : c ≠ .stop) (E : List Bool) (p : Nat) :
    (E ++ stepBits c p).length + stepPending c p = E.length + p + 1 := by
  have := length_stepBits_add_stepPending hc p
  rw [List.length_append]
  omega

/-- The offset of a step is below the interval (R191). -/
theorem rnuOff_le (low high : Nat) :
    rnuOff (rnuCase low high) ≤ low ∧ rnuOff (rnuCase low high) ≤ high := by
  unfold rnuCase
  have hhalf : half = 2 ^ 63 := rfl
  have hquarter : quarter = 2 ^ 62 := rfl
  split
  · exact ⟨Nat.zero_le _, Nat.zero_le _⟩
  next hhigh =>
    split
    next hlow => exact ⟨hlow, not_lt.mp hhigh⟩
    · split
      next hmid => exact ⟨hmid.1, by rw [rnuOff]; omega⟩
      · exact ⟨Nat.zero_le _, Nat.zero_le _⟩

/-! ### The stream inside the encoder's interval -/

/-- The number of the stream lies in the interval of an encoder that has emitted `E` and has `p` pending bits. -/
def Inside (S : Nat → Bool) (E : List Bool) (p low high : Nat) : Prop :=
  lead E p + low ≤ window S (E.length + p) ∧ window S (E.length + p) ≤ lead E p + high

theorem Inside.mono {S : Nat → Bool} {E : List Bool} {p low high low' high' : Nat} (h : Inside S E p low' high')
    (hlow : low ≤ low') (hhigh : high' ≤ high) : Inside S E p low high :=
  ⟨(Nat.add_le_add_left hlow _).trans h.1, h.2.trans (Nat.add_le_add_left hhigh _)⟩

theorem inside_of_step {S : Nat → Bool} {E : List Bool} {p low high : Nat} (hc : rnuCase low high ≠ .stop)
    (h : Inside S (E ++ stepBits (rnuCase low high) p) (stepPending (rnuCase low high) p)
      (stepLow (rnuCase low high) low) (stepHigh (rnuCase low high) high)) : Inside S E p low high := by
  obtain ⟨hofflow, hoffhigh⟩ := rnuOff_le low high
  have hbit := (S (64 + (E.length + p))).toNat_lt
  unfold Inside stepLow stepHigh at *
  rw [lead_step hc, length_append_stepBits hc, window_succ] at h
  omega

/-- Through the encoder's loop: a stream that is inside at the end was inside at the start. -/
theorem inside_of_rnuEncLoop {S : Nat → Bool} {E : List Bool} {n p low high : Nat}
    (h : Inside S (E ++ (rnuEncLoop n low high p).bits) (rnuEncLoop n low high p).pending (rnuEncLoop n low high p).low
      (rnuEncLoop n low high p).high) : Inside S E p low high := by
  induction n generalizing E p low high with
  | zero => rwa [rnuEncLoop, List.append_nil] at h
  | succ n ih =>
    by_cases hc : rnuCase low high = .stop
    · rwa [rnuEncLoop_of_stop _ _ hc, List.append_nil] at h
    · rw [rnuEncLoop_succ_of_ne_stop _ _ hc] at h
      dsimp only at h
      rw [← List.append_assoc] at h
      exact inside_of_step hc (ih h)

/-! ### The decoder's value -/

/-- The value is the number of the stream less the start of the interval. -/
def Tracks (S : Nat → Bool) (E : List Bool) (p v : Nat) : Prop := lead E p + v = window S (E.length + p)

theorem Tracks.inside_iff {S : Nat → Bool} {E : List Bool} {p v : Nat} (h : Tracks S E p v) {low high : Nat} :
    Inside S E p low high ↔ low ≤ v ∧ v ≤ high := by
  unfold Tracks Inside at *
  omega

theorem tracks_step {S : Nat → Bool} {E : List Bool} {p low high v : Nat} (hc : rnuCase low high ≠ .stop)
    (h : Tracks S E p v) (hlow : low ≤ v) :
    Tracks S (E ++ stepBits (rnuCase low high) p) (stepPending (rnuCase low high) p)
      (stepValue (rnuCase low high) v (S (64 + (E.length + p)))) := by
  obtain ⟨hofflow, -⟩ := rnuOff_le low high
  unfold Tracks stepValue at *
  rw [lead_step hc, length_append_stepBits hc, window_succ, ← h]
  omega

/-- Through the loops of both units. -/
theorem rnuDecLoop_tracks {ibuf : List Byte} {E : List Bool} {n p low high v : Nat} (h : Tracks (abit ibuf) E p v)
    (hlow : low ≤ v) (hhigh : v ≤ high) :
    Tracks (abit ibuf) (E ++ (rnuEncLoop n low high p).bits) (rnuEncLoop n low high p).pending
      (rnuDecLoop ibuf n low high v (64 + (E.length + p))).value := by
  induction n generalizing E p low high v with
  | zero => simpa only [rnuEncLoop, rnuDecLoop, List.append_nil] using h
  | succ n ih =>
    by_cases hc : rnuCase low high = .stop
    · rw [rnuEncLoop_of_stop _ _ hc, rnuDecLoop_of_stop _ _ _ _ hc, List.append_nil]
      exact h
    · obtain ⟨hlow', hhigh'⟩ := stepValue_mem hlow hhigh (abit ibuf (64 + (E.length + p)))
      have hrest := ih (tracks_step hc h hlow) hlow' hhigh'
      rw [length_append_stepBits hc, List.append_assoc] at hrest
      rw [rnuEncLoop_succ_of_ne_stop _ _ hc, rnuDecLoop_succ_of_ne_stop _ _ _ _ hc]
      exact hrest

/-! ### The finish (R181) -/

/-- The value that the finish bits leave to the decoder, with `extra` further bits. -/
def finishValue (low : Nat) (extra : Fin 2) : Nat := if quarter ≤ low then 2 ^ 63 else 2 ^ 63 - 2 ^ (63 - extra.val)

theorem tracks_finish (E : List Bool) (p low : Nat) (extra : Fin 2) :
    Tracks (streamOf (E ++ finishBits low p extra)) E p (finishValue low extra) := by
  have hextra := extra.isLt
  have hlen : (E ++ finishBits low p extra).length = E.length + (1 + p + extra.val) := by
    rw [List.length_append, finishBits, List.length_cons, List.length_replicate]
    omega
  have hfinish : (finishBits low p extra).length = 1 + p + extra.val := by
    rw [List.length_append] at hlen
    omega
  have hzeros : 64 + (E.length + p) - (E ++ finishBits low p extra).length = 63 - extra.val := by
    rw [hlen]
    omega
  unfold Tracks
  rw [window_streamOf (by rw [hlen]; omega), hzeros, bitsToNat_append, hfinish]
  obtain ⟨q, hq⟩ : ∃ q, 2 ^ p = q + 1 := ⟨2 ^ p - 1, by have := Nat.one_le_two_pow (n := p); omega⟩
  have hones := bitsToNat_replicate_true (p + extra.val)
  rw [pow_add, hq] at hones
  by_cases hlow : quarter ≤ low
  · have hbits : bitsToNat (finishBits low p extra) = 2 ^ (p + extra.val) := by
      simp only [finishBits, hlow, decide_true, Bool.not_true, bitsToNat_cons, bitsToNat_replicate_false,
        List.length_replicate, Bool.toNat_true, one_mul, add_zero]
    rw [hbits, finishValue, if_pos hlow, lead]
    obtain h0 | h1 : extra.val = 0 ∨ extra.val = 1 := by omega
    · rw [h0]
      simp only [pow_add, hq]
      ring_nf
      omega
    · rw [h1]
      simp only [pow_add, hq]
      ring_nf
      omega
  · have hbits : bitsToNat (finishBits low p extra) = bitsToNat (List.replicate (p + extra.val) true) := by
      simp only [finishBits, hlow, decide_false, Bool.not_false, bitsToNat_cons, Bool.toNat_false, zero_mul, zero_add]
    rw [hbits, finishValue, if_neg hlow, lead]
    obtain h0 | h1 : extra.val = 0 ∨ extra.val = 1 := by omega
    · rw [h0] at hones ⊢
      rw [show bitsToNat (List.replicate (p + 0) true) = q by omega]
      simp only [pow_add, hq]
      ring_nf
      omega
    · rw [h1] at hones ⊢
      rw [show bitsToNat (List.replicate (p + 1) true) = 2 * q + 1 by omega]
      simp only [pow_add, hq]
      ring_nf
      omega

/-- Where the finish bits leave the value in the interval: with an extra bit always, without one where `A_LOW` is 0 or at
least `QUARTER` (R182). -/
theorem finishValue_mem {low high : Nat} (hok : IntervalOk low high) {extra : Fin 2}
    (h : extra = 1 ∨ low = 0 ∨ 2 ^ 62 ≤ low) : low ≤ finishValue low extra ∧ finishValue low extra ≤ high := by
  obtain ⟨hlow, hhigh, -⟩ := hok
  have hhalf : half = 2 ^ 63 := rfl
  have hquarter : quarter = 2 ^ 62 := rfl
  have hextra : extra.val = 0 ∨ extra.val = 1 := by omega
  unfold finishValue
  split
  · omega
  next hlt =>
    obtain rfl | hrest := h
    · simp only [Fin.val_one]
      omega
    · have hzero : low = 0 := by omega
      obtain h0 | h1 := hextra
      · rw [h0]; omega
      · rw [h1]; omega

theorem finishValue_of_lt {low : Nat} (h : low < 2 ^ 62) : finishValue low 0 = 0 := if_neg (not_le.mpr h)

end Sys2Proof.Proofs

/-! SUPPORT. Runs of the arithmetic coder: an encoder and a decoder side by side, symbol by symbol, each symbol with a table
of its own or with the table that is there (47_ac_decoder.md section 3, "Round trip"). -/

namespace Sys2Proof.Proofs

open Sys2Proof.Machine Sys2Proof.Statements

/-! ### Command lists -/

theorem execAll_append_eq_next {is js : List Instr} {s t : State} (h : execAll (is ++ js) s = .next t) :
    ∃ u, execAll is s = .next u ∧ execAll js u = .next t := by
  induction is generalizing s with
  | nil => exact ⟨s, rfl, h⟩
  | cons i is ih =>
    cases hi : exec i s with
    | next u =>
      rw [List.cons_append, execAll_cons_of_next hi] at h
      obtain ⟨v, hv, hjs⟩ := ih h
      exact ⟨v, (execAll_cons_of_next hi).trans hv, hjs⟩
    | fault f => simp only [List.cons_append, execAll, hi] at h; cases h
    | refused x => simp only [List.cons_append, execAll, hi] at h; cases h

theorem execAll_singleton {i : Instr} {s t : State} : execAll [i] s = .next t ↔ exec i s = .next t := by
  cases hi : exec i s <;> simp only [execAll, hi]

/-- A command other than a reset does not clear the latch (R230), and so does a list of them. -/
theorem ac_fault_eq_zero_of_execAll {is : List Instr} (hno : ∀ i ∈ is, isReset i = false) {s t : State}
    (h : execAll is s = .next t) (ht : t.ac.fault = 0) : s.ac.fault = 0 := by
  induction is generalizing s with
  | nil => exact Host.Outcome.next.inj h ▸ ht
  | cons i is ih =>
    obtain ⟨hi, his⟩ := List.forall_mem_cons.mp hno
    obtain ⟨u, hu, hrest⟩ := execAll_append_eq_next (is := [i]) h
    have hzero := ih his hrest
    by_contra hne
    obtain heq | ⟨hreset, -⟩ := (exec_respectsLatches (execAll_singleton.mp hu)).ac hne
    · exact hne (heq ▸ hzero)
    · rw [hi] at hreset
      cases hreset

/-! ### Loading a table -/

/-- A symbol with the table that is presented before it, if any. -/
abbrev TabledSymbol := Option (Vector (BitVec 32) 256) × Byte

/-- The commands that present a table. -/
def load : Option (Vector (BitVec 32) 256) → List Instr
  | none => []
  | some cnt => (Pseudo.acModelLoad cnt).expand

/-- The engine with the table presented. -/
def loaded (c : AcState) : Option (Vector (BitVec 32) 256) → AcState
  | none => c
  | some cnt => { c with cnt := cnt, total := BitVec.ofNat 40 (countSum cnt) }

/-- What the commands that present a table answer. -/
def loadAnswers : Option (Vector (BitVec 32) 256) → List Response
  | none => []
  | some _ => List.replicate 257 ⟨.ok, 0⟩

/-- The table with the entries at the listed indices taken from another table. -/
def copyEntries (cnt : Vector (BitVec 32) 256) (is : List Nat) (old : Vector (BitVec 32) 256) : Vector (BitVec 32) 256 :=
  is.foldl (fun t i => tableWrite t (BitVec.ofNat 8 i) (tableRead cnt (BitVec.ofNat 8 i))) old

theorem tableRead_copyEntries {cnt : Vector (BitVec 32) 256} {is : List Nat} {old : Vector (BitVec 32) 256} {b : Byte}
    (h : b.toNat ∈ is ∨ tableRead old b = tableRead cnt b) : tableRead (copyEntries cnt is old) b = tableRead cnt b := by
  induction is generalizing old with
  | nil => exact h.resolve_left List.not_mem_nil
  | cons i is ih =>
    refine ih ?_
    by_cases hi : b = BitVec.ofNat 8 i
    · rw [hi, tableRead_tableWrite_same]
      exact .inr rfl
    · rw [tableRead_tableWrite_ne _ _ hi]
      refine h.imp_left fun hmem => (List.mem_cons.mp hmem).resolve_left fun heq => hi ?_
      rw [← heq, BitVec.ofNat_toNat, BitVec.setWidth_eq]

theorem copyEntries_range (cnt old : Vector (BitVec 32) 256) : copyEntries cnt (List.range 256) old = cnt :=
  table_ext fun b => tableRead_copyEntries (.inl (List.mem_range.mpr b.isLt))

/-- The state after commands of the arithmetic coder that leave engine `c` and answer `rs` (newest first). -/
def acAnswered (s : State) (c : AcState) (rs : List Response) : State := { s with ac := c, responses := rs ++ s.responses }

theorem acAnswered_acAnswered (s : State) (c c' : AcState) (rs rs' : List Response) :
    acAnswered (acAnswered s c rs) c' rs' = acAnswered s c' (rs' ++ rs) := by
  simp only [acAnswered, List.append_assoc]

theorem exec_acSetcnt_eq {s : State} (hfault : s.ac.fault = 0) (a : Byte) (x : BitVec 32) :
    exec (.acSetcnt a (x.setWidth 64)) s = .next (acAnswered s { s.ac with cnt := tableWrite s.ac.cnt a x } [⟨.ok, 0⟩]) := by
  have hx := x.isLt
  have hnat : (x.setWidth 64).toNat = x.toNat := BitVec.toNat_setWidth_of_le (by decide)
  have hops : usesCount (x.setWidth 64) = true := decide_eq_true (by rw [hnat]; exact hx)
  have hwidth : ((x.setWidth 64).setWidth 32) = x := BitVec.eq_of_toNat_eq (by
    rw [BitVec.toNat_setWidth, hnat, Nat.mod_eq_of_lt hx])
  have hexec : exec (.acSetcnt a (x.setWidth 64)) s = _ := engineCommand_pass (e := .ac) hops hfault rfl
  rw [hexec, hwidth]
  rfl

theorem exec_acSettotal_eq {s : State} (hfault : s.ac.fault = 0) {n : Nat} (hn : n < 2 ^ 40) :
    exec (.acSettotal 0 (BitVec.ofNat 64 n)) s =
      .next (acAnswered s { s.ac with total := BitVec.ofNat 40 n } [⟨.ok, 0⟩]) := by
  have hnat : (BitVec.ofNat 64 n).toNat = n := toNat_ofNat_word (by omega)
  have hops : usesTotal 0 (BitVec.ofNat 64 n) = true := (Bool.and_eq_true _ _).mpr ⟨rfl, decide_eq_true (by rw [hnat]; exact hn)⟩
  have hwidth : (BitVec.ofNat 64 n).setWidth 40 = BitVec.ofNat 40 n := BitVec.eq_of_toNat_eq (by
    rw [BitVec.toNat_setWidth, hnat, BitVec.toNat_ofNat])
  have hexec : exec (.acSettotal 0 (BitVec.ofNat 64 n)) s = _ := engineCommand_pass (e := .ac) hops hfault rfl
  rw [hexec, hwidth]
  rfl

/-- The counts of a table, one after the other. -/
theorem execAll_acSetcnt (cnt : Vector (BitVec 32) 256) (is : List Nat) {s : State} (hfault : s.ac.fault = 0) :
    execAll (is.map fun i => .acSetcnt (BitVec.ofNat 8 i) ((tableRead cnt (BitVec.ofNat 8 i)).setWidth 64)) s =
      .next (acAnswered s { s.ac with cnt := copyEntries cnt is s.ac.cnt } (List.replicate is.length ⟨.ok, 0⟩)) := by
  induction is generalizing s with
  | nil => rfl
  | cons i is ih =>
    rw [List.map_cons, execAll_cons_of_next (exec_acSetcnt_eq hfault _ _)]
    refine (ih ?_).trans ?_
    · exact hfault
    · rw [acAnswered_acAnswered, List.length_cons, List.replicate_succ']
      rfl

theorem countSum_lt (cnt : Vector (BitVec 32) 256) : countSum cnt < 2 ^ 40 := by
  have hsum := cum_256_le cnt
  have heq : countSum cnt = cum cnt 256 := by rw [cum_256, countSum, List.sum_eq_foldl, List.foldl_map]
  omega

/-- `AC_MODEL_LOAD` writes the table and its sum, and answers `OK` each time. -/
theorem execAll_load (x : Option (Vector (BitVec 32) 256)) {s : State} (hfault : s.ac.fault = 0) :
    execAll (load x) s = .next (acAnswered s (loaded s.ac x) (loadAnswers x)) := by
  cases x with
  | none => rfl
  | some cnt =>
    rw [load, Pseudo.expand, execAll_append (execAll_acSetcnt cnt (List.range 256) hfault), copyEntries_range]
    refine execAll_singleton.mpr ((exec_acSettotal_eq ?_ (countSum_lt cnt)).trans ?_)
    · exact hfault
    · rw [acAnswered_acAnswered, List.length_range]
      rfl

theorem loaded_fields (c : AcState) (x : Option (Vector (BitVec 32) 256)) :
    ∃ cnt total, loaded c x = { c with cnt := cnt, total := total } := by
  cases x with
  | none => exact ⟨c.cnt, c.total, rfl⟩
  | some cnt => exact ⟨cnt, _, rfl⟩

/-! ### The encoder -/

/-- An encode is open and `n` symbols have been coded. -/
structure EncodeOk (n : Nat) (c : AcState) : Prop where
  mode : c.mode = .enc
  fault : c.fault = 0
  interval : IntervalOk c.low.toNat c.high.toNat
  obuf : 8 ≤ c.obuf.length
  nsym : c.nsym.toNat = n

/-- The bits that an encoder has emitted: what it has packed after the 8 header bytes. -/
def emitted (c : AcState) : List Bool := (packedBits c.pk c.obuf).drop 64

/-- The number of the stream lies in the encoder's interval. -/
def CodeInside (S : Nat → Bool) (c : AcState) : Prop := Inside S (emitted c) c.pending.toNat c.low.toNat c.high.toNat

/-- Engine `c'` has coded symbol `b` from engine `c` (R177). -/
structure Encoded (c c' : AcState) (b : Byte) : Prop where
  valid : tableValid c.cnt c.total = true
  low : c'.low = BitVec.ofNat 64 (symRnu c b).low
  high : c'.high = BitVec.ofNat 64 (symRnu c b).high
  pending : c'.pending.toNat = (symRnu c b).pending
  bits : emitted c' = emitted c ++ (symRnu c b).bits
  cnt : c'.cnt = c.cnt
  total : c'.total = c.total

theorem drop_packedBits_append {pk : Packer} {out : List Byte} (h : 8 ≤ out.length) (bits : List Bool) :
    (packedBits pk out ++ bits).drop 64 = (packedBits pk out).drop 64 ++ bits := by
  refine List.drop_append_of_le_length ?_
  rw [packedBits_eq, List.length_append, length_flatMap_byteBits]
  omega

/-- The commands that code a symbol. -/
def encodeSymbol (x : TabledSymbol) : List Instr := load x.1 ++ [.acEncSym x.2 0]

/-- An encoder that has coded a symbol without a fault. -/
theorem encodeSymbol_encoded {n : Nat} {x : TabledSymbol} {s t : State} (hs : EncodeOk n s.ac)
    (hexec : execAll (encodeSymbol x) s = .next t) (ht : t.ac.fault = 0) :
    EncodeOk (n + 1) t.ac ∧ Encoded (loaded s.ac x.1) t.ac x.2 ∧ t.params = s.params := by
  obtain ⟨hmode, hfault, hinterval, hobuf, hnsym⟩ := hs
  rw [encodeSymbol, execAll_append (execAll_load x.1 hfault), execAll_singleton] at hexec
  obtain ⟨cnt, total, hloaded⟩ := loaded_fields s.ac x.1
  rw [hloaded] at hexec ⊢
  obtain ⟨hvalid, hne, hpending, q, hq, rfl⟩ := acEncSym_coded
    (s := acAnswered s { s.ac with cnt := cnt, total := total } (loadAnswers x.1)) hmode hfault hinterval hexec ht
  have hc : Coding { s.ac with cnt := cnt, total := total } .enc := ⟨hmode, hfault, hvalid, hinterval⟩
  obtain ⟨hok, hmax⟩ := intervalOk_symRnu hc x.2
  obtain ⟨hlow, hhigh⟩ := toNat_ofNat_interval hok hmax
  refine ⟨⟨hmode, hfault, ?_, hobuf.trans (length_le_pushBits hq), ?_⟩, ⟨hvalid, rfl, rfl, ?_, ?_, rfl, rfl⟩, rfl⟩
  · exact hlow.symm ▸ hhigh.symm ▸ hok
  · exact (toNat_add_one_of_ne_max hne).trans (congrArg (· + 1) hnsym)
  · exact toNat_ofNat_word (hpending.trans_lt (by decide))
  · exact (congrArg (List.drop 64) (packedBits_pushBits hq)).trans (drop_packedBits_append hobuf _)

theorem isReset_encodeSymbol {x : TabledSymbol} : ∀ i ∈ encodeSymbol x, isReset i = false := by
  intro i hi
  obtain ⟨x, b⟩ := x
  obtain hi | hi := List.mem_append.mp hi
  · cases x with
    | none => cases hi
    | some cnt =>
      obtain hi | hi := List.mem_append.mp hi
      · obtain ⟨j, -, rfl⟩ := List.mem_map.mp hi
        rfl
      · obtain rfl := List.mem_singleton.mp hi
        rfl
  · obtain rfl := List.mem_singleton.mp hi
    rfl

theorem isReset_encodeSymbols {xs : List TabledSymbol} : ∀ i ∈ xs.flatMap encodeSymbol, isReset i = false := fun i hi => by
  obtain ⟨x, -, hx⟩ := List.mem_flatMap.mp hi
  exact isReset_encodeSymbol i hx

/-- A run that codes a list of symbols without a fault codes the first one and then the others. -/
theorem exists_encodeSymbol_of_cons {n : Nat} {x : TabledSymbol} {xs : List TabledSymbol} {s t : State}
    (hs : EncodeOk n s.ac) (hexec : execAll ((x :: xs).flatMap encodeSymbol) s = .next t) (ht : t.ac.fault = 0) :
    ∃ u : State, execAll (xs.flatMap encodeSymbol) u = .next t ∧ EncodeOk (n + 1) u.ac ∧
      Encoded (loaded s.ac x.1) u.ac x.2 ∧ u.params = s.params := by
  obtain ⟨u, hu, hrest⟩ := execAll_append_eq_next hexec
  have hzero := ac_fault_eq_zero_of_execAll isReset_encodeSymbols hrest ht
  exact ⟨u, hrest, encodeSymbol_encoded hs hu hzero⟩

/-- A stream in the encoder's interval after a symbol was in the symbol's sub-interval before it. -/
theorem Encoded.inside {S : Nat → Bool} {c c' : AcState} {b : Byte} {m : AcMode} (h : Encoded c c' b) (hc : Coding c m)
    (hS : CodeInside S c') : Inside S (emitted c) c.pending.toNat (symLow c b) (symHigh c b) := by
  obtain ⟨hok, hmax⟩ := intervalOk_symRnu hc b
  obtain ⟨hlow, hhigh⟩ := toNat_ofNat_interval hok hmax
  rw [CodeInside, h.bits, h.pending, h.low, h.high, hlow, hhigh] at hS
  exact inside_of_rnuEncLoop hS

theorem EncodeOk.coding {n : Nat} {c : AcState} (h : EncodeOk n c) (x : Option (Vector (BitVec 32) 256))
    (hvalid : tableValid (loaded c x).cnt (loaded c x).total = true) : Coding (loaded c x) .enc := by
  obtain ⟨cnt, total, hloaded⟩ := loaded_fields c x
  rw [hloaded] at hvalid ⊢
  exact ⟨h.mode, h.fault, hvalid, h.interval⟩

/-- What a run that codes symbols keeps; a stream in the interval at its end was there at its start. -/
theorem encodeSymbols_spec {xs : List TabledSymbol} {n : Nat} {s t : State} (hs : EncodeOk n s.ac)
    (hexec : execAll (xs.flatMap encodeSymbol) s = .next t) (ht : t.ac.fault = 0) :
    EncodeOk (n + xs.length) t.ac ∧ t.params = s.params ∧ ∀ S, CodeInside S t.ac → CodeInside S s.ac := by
  induction xs generalizing n s with
  | nil =>
    obtain rfl := Host.Outcome.next.inj hexec
    exact ⟨hs, rfl, fun _ => id⟩
  | cons x xs ih =>
    obtain ⟨u, hrest, hu, hcoded, hparams⟩ := exists_encodeSymbol_of_cons hs hexec ht
    obtain ⟨hok, hparams', hinside⟩ := ih hu hrest
    refine ⟨by rwa [List.length_cons, add_comm xs.length, ← add_assoc], hparams'.trans hparams, fun S hS => ?_⟩
    have hc := hs.coding x.1 hcoded.valid
    obtain ⟨-, hlow, hhigh, -⟩ := sym_bounds hc x.2
    have hsub := (hcoded.inside hc (hinside S hS)).mono hlow hhigh
    obtain ⟨cnt, total, hloaded⟩ := loaded_fields s.ac x.1
    rwa [hloaded] at hsub

/-! ### The decoder -/

/-- A decode is open with `n` symbols to come, and the bit index has room for them (each takes at most 64 steps, R197). -/
structure DecodeOk (n : Nat) (c : AcState) : Prop where
  mode : c.mode = .dec
  fault : c.fault = 0
  interval : IntervalOk c.low.toNat c.high.toNat
  low_le : c.low.toNat ≤ c.value.toNat
  le_high : c.value.toNat ≤ c.high.toNat
  remain : c.remain.toNat = n
  cur : c.cur.toNat + 64 * n < 2 ^ 64

/-- The commands that decode a symbol. -/
def decodeSymbol (x : TabledSymbol) : List Instr := load x.1 ++ [.acDecSym 0 0]

/-- What they answer where the symbol comes back, newest first. -/
def symbolAnswers (x : TabledSymbol) : List Response := { status := .ok, res := x.2.setWidth 64 } :: loadAnswers x.1

/-- What the commands that decode a list of symbols answer where all of them come back, newest first. -/
def streamAnswers : List TabledSymbol → List Response
  | [] => []
  | x :: xs => streamAnswers xs ++ symbolAnswers x

/-- The steps of the decoder's unit for a symbol are those of the encoder's unit. -/
theorem exists_symDec_steps {c : AcState} {m : AcMode} (hc : Coding c m) (b : Byte) :
    ∃ k ≤ 64, (symDec c b).cur = c.cur.toNat + k ∧
      ∀ p, (rnuEnc (symLow c b) (symHigh c b) p).bits.length + (rnuEnc (symLow c b) (symHigh c b) p).pending = p + k := by
  obtain ⟨hle, -, -, hmax⟩ := sym_bounds hc b
  obtain ⟨k, hk, hsteps⟩ := exists_rnu_steps hle hmax
  obtain ⟨-, -, hdec⟩ := hsteps 0
  obtain ⟨-, -, hcur⟩ := hdec c.ibuf c.value.toNat c.cur.toNat
  refine ⟨k, hk, hcur, fun p => ?_⟩
  obtain ⟨-, hbits, -⟩ := hsteps p
  exact hbits

theorem DecodeOk.coding {n : Nat} {c : AcState} (h : DecodeOk n c) (x : Option (Vector (BitVec 32) 256))
    (hvalid : tableValid (loaded c x).cnt (loaded c x).total = true) : Coding (loaded c x) .dec := by
  obtain ⟨cnt, total, hloaded⟩ := loaded_fields c x
  rw [hloaded] at hvalid ⊢
  exact ⟨h.mode, h.fault, hvalid, h.interval⟩

theorem DecodeOk.loaded {n : Nat} {c : AcState} (h : DecodeOk n c) (x : Option (Vector (BitVec 32) 256)) :
    DecodeOk n (loaded c x) := by
  obtain ⟨cnt, total, hloaded⟩ := loaded_fields c x
  rw [hloaded]
  exact ⟨h.mode, h.fault, h.interval, h.low_le, h.le_high, h.remain, h.cur⟩

/-- A decoder with a valid table and symbols to come decodes one, without a fault. -/
theorem DecodeOk.decoded {n : Nat} {c : AcState} (h : DecodeOk (n + 1) c) (hc : Coding c .dec) {b : Byte}
    (hmem : symLow c b ≤ c.value.toNat ∧ c.value.toNat ≤ symHigh c b) :
    DecodeOk n (decoded c b) ∧ (symDec c b).cur ≤ maxV := by
  obtain ⟨hok, hmax, hlow, hhigh⟩ := intervalOk_symDec hc hmem
  obtain ⟨hlow', hhigh'⟩ := toNat_ofNat_interval hok hmax
  obtain ⟨k, hk, hcur, -⟩ := exists_symDec_steps hc b
  have hmaxV : maxV = 2 ^ 64 - 1 := rfl
  have hbound := h.cur
  have hremain := h.remain
  have hv : (BitVec.ofNat 64 (symDec c b).value).toNat = (symDec c b).value := toNat_ofNat_word (by omega)
  have hcur' : (BitVec.ofNat 64 (symDec c b).cur).toNat = (symDec c b).cur := toNat_ofNat_word (by omega)
  refine ⟨⟨h.mode, h.fault, hlow'.symm ▸ hhigh'.symm ▸ hok, ?_, ?_, ?_, ?_⟩, by omega⟩
  · exact hlow'.trans_le (hlow.trans_eq hv.symm)
  · exact hv.trans_le (hhigh.trans_eq hhigh'.symm)
  · have hone : (c.remain - 1).toNat = c.remain.toNat - 1 := BitVec.toNat_sub_of_le (by
      rw [BitVec.le_def, hremain]
      exact Nat.succ_le_succ (Nat.zero_le n))
    exact hone.trans (by rw [hremain, Nat.add_sub_cancel])
  · change (BitVec.ofNat 64 (symDec c b).cur).toNat + 64 * n < 2 ^ 64
    omega

theorem exists_decodeSymbol {n : Nat} {x : Option (Vector (BitVec 32) 256)} {s : State} (hs : DecodeOk (n + 1) s.ac)
    (hvalid : tableValid (loaded s.ac x).cnt (loaded s.ac x).total = true) :
    ∃ b : Byte, (symLow (loaded s.ac x) b ≤ (loaded s.ac x).value.toNat ∧
        (loaded s.ac x).value.toNat ≤ symHigh (loaded s.ac x) b) ∧
      DecodeOk n (decoded (loaded s.ac x) b) ∧
      ∀ y, execAll (decodeSymbol (x, y)) s = .next (acAnswered s (decoded (loaded s.ac x) b) (symbolAnswers (x, b))) := by
  have hc := hs.coding x hvalid
  have hl := hs.loaded x
  have hremain : (loaded s.ac x).remain ≠ 0 := fun hzero => by
    have hn := hl.remain
    rw [hzero] at hn
    exact absurd hn (Nat.zero_ne_add_one n)
  obtain ⟨b, hcl, hch, hexec⟩ := exec_acDecSym_of_coding (s := acAnswered s (loaded s.ac x) (loadAnswers x)) hc hremain
    hl.low_le hl.le_high
  have hmem := (value_mem_symbol_iff hc hl.low_le b).mpr ⟨hcl, hch⟩
  obtain ⟨hok, hcur⟩ := hl.decoded hc hmem
  refine ⟨b, hmem, hok, fun y => ?_⟩
  rw [decodeSymbol, execAll_append (execAll_load x hs.fault), execAll_singleton]
  exact hexec.trans (if_neg (not_lt.mpr hcur))

/-! ### Side by side -/

/-- A decoder of stream `S` follows an encoder: the same interval, as many steps, and a value that tracks the stream. -/
structure Follows (S : Nat → Bool) (e d : AcState) : Prop where
  stream : abit d.ibuf = S
  low : d.low = e.low
  high : d.high = e.high
  cur : d.cur.toNat = 64 + ((emitted e).length + e.pending.toNat)
  tracks : Tracks S (emitted e) e.pending.toNat d.value.toNat

/-- A decoder that follows an encoder, with the same table, follows it through a symbol. -/
theorem Follows.step {S : Nat → Bool} {c c' d : AcState} {b : Byte} (h : Follows S c d) (hcnt : d.cnt = c.cnt)
    (htotal : d.total = c.total) (hd : Coding d .dec)
    (hmem : symLow d b ≤ d.value.toNat ∧ d.value.toNat ≤ symHigh d b) (hcur : (symDec d b).cur ≤ maxV)
    (hcoded : Encoded c c' b) : Follows S c' (decoded d b) := by
  obtain ⟨rfl, hlow, hhigh, hindex, htracks⟩ := h
  obtain ⟨hsymLow, hsymHigh⟩ := sym_congr hlow hhigh hcnt htotal b
  obtain ⟨hlow', hhigh'⟩ := symDec_interval hd b c.pending.toNat
  obtain ⟨k, -, hsteps, hbits⟩ := exists_symDec_steps hd b
  obtain ⟨hok, hmax, hvlow, hvhigh⟩ := intervalOk_symDec hd hmem
  have hmaxV : maxV = 2 ^ 64 - 1 := rfl
  have hv : (BitVec.ofNat 64 (symDec d b).value).toNat = (symDec d b).value := toNat_ofNat_word (by omega)
  have hcur' : (BitVec.ofNat 64 (symDec d b).cur).toNat = (symDec d b).cur := toNat_ofNat_word (by omega)
  have hrnu : symRnu c b = rnuEnc (symLow d b) (symHigh d b) c.pending.toNat := by rw [symRnu, hsymLow, hsymHigh]
  refine ⟨rfl, ?_, ?_, ?_, ?_⟩
  · rw [hcoded.low, hrnu, ← hlow']
    rfl
  · rw [hcoded.high, hrnu, ← hhigh']
    rfl
  · have hsum := hbits c.pending.toNat
    rw [hcoded.bits, hcoded.pending, List.length_append, hrnu]
    refine hcur'.trans ?_
    omega
  · have hloop := rnuDecLoop_tracks (n := 64) htracks hmem.1 hmem.2
    rw [← hindex] at hloop
    rw [hcoded.bits, hcoded.pending, hrnu]
    exact hv.symm ▸ hloop

/-- Encoder and decoder have the same table, or every symbol to come brings its own. -/
def TablesAgree (xs : List TabledSymbol) (e d : AcState) : Prop :=
  (d.cnt = e.cnt ∧ d.total = e.total) ∨ ∀ x ∈ xs, x.1 ≠ none

theorem TablesAgree.loaded {x : TabledSymbol} {xs : List TabledSymbol} {e d : AcState} (h : TablesAgree (x :: xs) e d) :
    (loaded d x.1).cnt = (loaded e x.1).cnt ∧ (loaded d x.1).total = (loaded e x.1).total := by
  obtain ⟨table, b⟩ := x
  cases table with
  | none => exact h.resolve_right fun hall => hall _ List.mem_cons_self rfl
  | some cnt => exact ⟨rfl, rfl⟩

theorem Follows.loaded {S : Nat → Bool} {e d : AcState} (h : Follows S e d) (x : Option (Vector (BitVec 32) 256)) :
    Follows S (loaded e x) (loaded d x) := by
  obtain ⟨_, _, he⟩ := loaded_fields e x
  obtain ⟨_, _, hd⟩ := loaded_fields d x
  rw [he, hd]
  exact ⟨h.stream, h.low, h.high, h.cur, h.tracks⟩

/-- The decoder of a stream decodes every symbol without a fault. Where the stream lies in the encoder's interval at the end,
or the answers are the coded symbols, it returns the coded symbols and follows the encoder. -/
theorem exists_decodeSymbols {S : Nat → Bool} {xs : List TabledSymbol} {n k : Nat} {e m d : State} (he : EncodeOk k e.ac)
    (hexec : execAll (xs.flatMap encodeSymbol) e = .next m) (hm : m.ac.fault = 0) (hd : DecodeOk (n + xs.length) d.ac)
    (hagree : TablesAgree xs e.ac d.ac) :
    ∃ c rs, execAll (xs.flatMap decodeSymbol) d = .next (acAnswered d c rs) ∧ DecodeOk n c ∧
      (Follows S e.ac d.ac → CodeInside S m.ac ∨ rs = streamAnswers xs → rs = streamAnswers xs ∧ Follows S m.ac c) := by
  induction xs generalizing k e d with
  | nil =>
    obtain rfl := Host.Outcome.next.inj hexec
    exact ⟨d.ac, [], rfl, hd, fun hf _ => ⟨rfl, hf⟩⟩
  | cons x xs ih =>
    obtain ⟨u, hrest, hu, hcoded, -⟩ := exists_encodeSymbol_of_cons he hexec hm
    obtain ⟨hcnt, htotal⟩ := hagree.loaded
    have hvalid : tableValid (loaded d.ac x.1).cnt (loaded d.ac x.1).total = true := by
      rw [hcnt, htotal]
      exact hcoded.valid
    obtain ⟨b, hmem, hok, hone⟩ := exists_decodeSymbol hd hvalid
    have hagree' : TablesAgree xs u.ac (decoded (loaded d.ac x.1) b) :=
      .inl ⟨hcnt.trans hcoded.cnt.symm, htotal.trans hcoded.total.symm⟩
    obtain ⟨c, rs, hrun, hend, hmatch⟩ := ih (d := acAnswered d (decoded (loaded d.ac x.1) b) (symbolAnswers (x.1, b)))
      hu hrest hok hagree'
    rw [acAnswered_acAnswered] at hrun
    refine ⟨c, rs ++ symbolAnswers (x.1, b), ?_, hend, fun hf hgoal => ?_⟩
    · rw [List.flatMap_cons, execAll_append (hone x.2)]
      exact hrun
    · have hc := hd.coding x.1 hvalid
      have hl := hf.loaded x.1
      obtain ⟨-, hcur⟩ := (hd.loaded x.1).decoded hc hmem
      have hb : b = x.2 := by
        obtain hS | hrs := hgoal
        · obtain ⟨-, -, hinside⟩ := encodeSymbols_spec hu hrest hm
          have hsub := hl.tracks.inside_iff.mp (hcoded.inside (he.coding x.1 hcoded.valid) (hinside S hS))
          obtain ⟨hsymLow, hsymHigh⟩ := sym_congr hl.low hl.high hcnt htotal x.2
          rw [← hsymLow, ← hsymHigh] at hsub
          have hlow := (hd.loaded x.1).low_le
          obtain ⟨hbl, hbh⟩ := (value_mem_symbol_iff hc hlow b).mp hmem
          obtain ⟨hxl, hxh⟩ := (value_mem_symbol_iff hc hlow x.2).mp hsub
          exact symbol_unique hvalid hbl hbh hxl hxh
        · obtain ⟨-, hanswers⟩ := List.append_inj' hrs rfl
          have hres : (b.setWidth 64 : Word) = x.2.setWidth 64 := congrArg Response.res (List.cons.inj hanswers).1
          exact BitVec.eq_of_toNat_eq (by rw [← toNat_setWidth_byte b, hres, toNat_setWidth_byte])
      subst hb
      obtain ⟨rfl, hf'⟩ := hmatch (hl.step hcnt htotal hc hmem hcur hcoded)
        (hgoal.imp_right fun hrs => (List.append_inj' hrs rfl).1)
      exact ⟨rfl, hf'⟩

end Sys2Proof.Proofs

/-! SUPPORT. The two ends of a round trip of the arithmetic coder: the opening of the encode and of the decode, the archive
and its stream; and the round trips of 47_ac_decoder.md section 3. -/

namespace Sys2Proof.Proofs

open Sys2Proof.Machine Sys2Proof.Statements

/-! ### Opening -/

/-- The engine that `AC_ENC_INIT` leaves. -/
def encodeOpened (c : AcState) : AcState :=
  { c with
    low := 0, high := 0xFFFFFFFFFFFFFFFF, pending := 0, nsym := 0, pk := { acc := 0, n := 0 },
    obuf := [0, 0, 0, 0, 0, 0, 0, 0], mode := .enc }

theorem ac_eq_of_exec_acEncInit {s t : State} (hfault : s.ac.fault = 0) (hmode : s.ac.mode = .idle ∨ s.ac.mode = .done)
    (hexec : exec (.acEncInit 0 0) s = .next t) (ht : t.ac.fault = 0) :
    t.ac = encodeOpened s.ac ∧ t.params = s.params := by
  obtain ⟨hopen, hfull⟩ := acEncInitOpensAnEncode s hfault hmode
  cases hfits : fitsCap s.params.outCap 8 with
  | true =>
    obtain rfl := Host.Outcome.next.inj ((hopen hfits).symm.trans hexec)
    exact ⟨rfl, rfl⟩
  | false =>
    obtain rfl := Host.Outcome.next.inj ((hfull hfits).symm.trans hexec)
    exact absurd ht (statusCode_ne_zero_of_fault (st := .bufferFull) rfl)

theorem encodeOk_encodeOpened {c : AcState} (hfault : c.fault = 0) : EncodeOk 0 (encodeOpened c) :=
  ⟨rfl, hfault, intervalOk_full, le_rfl, rfl⟩

theorem emitted_encodeOpened (c : AcState) : emitted (encodeOpened c) = [] := by
  refine List.drop_eq_nil_of_le ?_
  rw [packedBits_eq, List.length_append, length_flatMap_byteBits]
  rfl

/-- The engine that `AC_DEC_INIT` leaves. -/
def decodeOpened (c : AcState) : AcState :=
  { c with
    remain := BitVec.ofNat 64 (unBe64 (c.ibuf.take 8)), low := 0, high := 0xFFFFFFFFFFFFFFFF, pending := 0,
    value := firstValue c.ibuf, cur := 64, mode := .dec }

theorem exec_acDecInit_eq {s : State} (hfault : s.ac.fault = 0) (hmode : s.ac.mode = .idle ∨ s.ac.mode = .done)
    (hlen : 8 ≤ s.ac.ibuf.length) :
    exec (.acDecInit 0 0) s =
      .next (acAnswered s (decodeOpened s.ac) [⟨.ok, BitVec.ofNat 64 (unBe64 (s.ac.ibuf.take 8))⟩]) := by
  have hexec : exec (.acDecInit 0 0) s = _ := engineCommand_pass (e := .ac) rfl hfault (idle_or_done_of hmode)
  exact hexec.trans (if_neg (not_lt.mpr hlen))

theorem toNat_firstValue (ibuf : List Byte) : (firstValue ibuf).toNat = window (abit ibuf) 0 := by
  have hlt := bitsToNat_lt ((List.range 64).map (abit ibuf))
  rw [List.length_map, List.length_range] at hlt
  exact toNat_ofNat_word hlt

theorem decodeOk_decodeOpened {c : AcState} (hfault : c.fault = 0) {n : Nat} (hn : n < 2 ^ 57)
    (hheader : unBe64 (c.ibuf.take 8) = n) : DecodeOk n (decodeOpened c) where
  mode := rfl
  fault := hfault
  interval := intervalOk_full
  low_le := (value_mem_full _).1
  le_high := (value_mem_full _).2
  remain := by
    rw [decodeOpened, hheader]
    exact toNat_ofNat_word (by omega)
  cur := by
    change 64 + 64 * n < 2 ^ 64
    omega

/-- A decoder follows an encoder from the start: nothing is emitted, and the value is the start of the stream. -/
theorem follows_opened (c d : AcState) : Follows (abit d.ibuf) (encodeOpened c) (decodeOpened d) where
  stream := rfl
  low := rfl
  high := rfl
  cur := by
    rw [emitted_encodeOpened]
    rfl
  tracks := by
    rw [emitted_encodeOpened]
    have hlead : lead [] 0 = 0 := by rw [lead, pow_zero, Nat.sub_self, Nat.zero_mul, add_zero]; exact Nat.zero_mul _
    change Tracks (abit d.ibuf) [] 0 (firstValue d.ibuf).toNat
    rw [Tracks, hlead, Nat.zero_add, toNat_firstValue]
    rfl

/-! ### The archive -/

/-- `AC_ENC_FINISH` that ends without a fault has written the archive (R181). -/
theorem obuf_of_exec_acEncFinish {n : Nat} {s t : State} (hs : EncodeOk n s.ac) (hexec : exec (.acEncFinish 0 0) s = .next t)
    (ht : t.ac.fault = 0) :
    ∃ q q', pushBits s.params.outCap { pk := s.ac.pk, out := s.ac.obuf }
        (finishBits s.ac.low.toNat s.ac.pending.toNat s.params.acFlushExtra) = some q ∧
      flushPacker s.params.outCap q = some q' ∧ t.ac.obuf = be64 s.ac.nsym ++ q'.out.drop 8 := by
  have hpass : exec (.acEncFinish 0 0) s = _ := engineCommand_pass (e := .ac) rfl hs.fault (beq_iff_eq.mpr hs.mode)
  rw [hpass, if_neg (not_lt.mpr hs.obuf)] at hexec
  split at hexec
  · exact absurd ht (ac_fault_ne_zero_of_raise hexec rfl)
  next q hq =>
    split at hexec
    · exact absurd ht (ac_fault_ne_zero_of_raise hexec rfl)
    next q' hq' =>
      obtain rfl := Host.Outcome.next.inj hexec
      exact ⟨q, q', hq, hq', rfl⟩

theorem flatMap_byteBits_drop {out : List Byte} (h : 8 ≤ out.length) :
    (out.drop 8).flatMap byteBits = (out.flatMap byteBits).drop 64 := by
  have hlen : ((out.take 8).flatMap byteBits).length = 64 := by
    rw [length_flatMap_byteBits, List.length_take_of_le h]
  have hsplit : out.flatMap byteBits = (out.take 8).flatMap byteBits ++ (out.drop 8).flatMap byteBits := by
    rw [← List.flatMap_append, List.take_append_drop]
  rw [hsplit, List.drop_left' hlen]

/-- The bits after an 8-byte header. -/
theorem abit_header_append {header : List Byte} (h : header.length = 8) (body : List Byte) :
    abit (header ++ body) = streamOf (body.flatMap byteBits) := by
  funext k
  have hlen : (header.flatMap byteBits).length = 64 := by rw [length_flatMap_byteBits, h]
  rw [abit, bitAt_eq, List.flatMap_append, List.getElem?_append_right (by omega), hlen, Nat.add_sub_cancel_left, streamOf]

/-- Zeros after the end do not change a stream. -/
theorem streamOf_append_zeros (l : List Bool) (n : Nat) : streamOf (l ++ List.replicate n false) = streamOf l := by
  funext k
  rw [streamOf, streamOf]
  by_cases hk : k < l.length
  · rw [List.getElem?_append_left hk]
  · rw [List.getElem?_append_right (not_lt.mp hk), List.getElem?_eq_none (not_lt.mp hk), List.getElem?_replicate]
    split <;> rfl

/-- The archive: the count of symbols in the header, then the emitted bits and the finish bits. -/
theorem archive_spec {n : Nat} {s t : State} (hs : EncodeOk n s.ac) (hexec : exec (.acEncFinish 0 0) s = .next t)
    (ht : t.ac.fault = 0) :
    8 ≤ t.ac.obuf.length ∧ unBe64 (t.ac.obuf.take 8) = n ∧
      abit t.ac.obuf = streamOf (emitted s.ac ++ finishBits s.ac.low.toNat s.ac.pending.toNat s.params.acFlushExtra) := by
  obtain ⟨q, q', hq, hq', hobuf⟩ := obuf_of_exec_acEncFinish hs hexec ht
  have hlen : 8 ≤ q'.out.length := by
    rw [length_flushPacker hq']
    exact (hs.obuf.trans (length_le_pushBits hq)).trans (Nat.le_add_right ..)
  have hheader := length_be64 s.ac.nsym
  refine ⟨?_, ?_, ?_⟩
  · rw [hobuf, header_length hlen]
    exact hlen
  · rw [hobuf, ← hheader, List.take_left, unBe64_be64, hs.nsym]
  · rw [hobuf, abit_header_append hheader, flatMap_byteBits_drop hlen, flatMap_byteBits_flushPacker hq',
      packedBits_pushBits hq, List.append_assoc, drop_packedBits_append hs.obuf, ← List.append_assoc, streamOf_append_zeros]
    rfl

/-! ### Both runs -/

section RoundTrip

variable {xs : List TabledSymbol} {s e m t u : State}

/-- An encode of a list of symbols, without a fault, whose archive is presented to a decoder. -/
structure Archived (xs : List TabledSymbol) (s e m t u : State) : Prop where
  encodeReady : s.ac.fault = 0 ∧ (s.ac.mode = .idle ∨ s.ac.mode = .done)
  length : xs.length < 2 ^ 57
  open_eq : exec (.acEncInit 0 0) s = .next e
  encode_eq : execAll (xs.flatMap encodeSymbol) e = .next m
  finish_eq : exec (.acEncFinish 0 0) m = .next t
  noFault : t.ac.fault = 0
  decodeReady : u.ac.fault = 0 ∧ (u.ac.mode = .idle ∨ u.ac.mode = .done)
  archive : u.ac.ibuf = t.ac.obuf
  tables : TablesAgree xs s.ac u.ac

variable (h : Archived xs s e m t u)

include h

theorem Archived.fault_finish : m.ac.fault = 0 :=
  ac_fault_eq_zero_of_execAll (is := [.acEncFinish 0 0]) (by simp [isReset]) (execAll_singleton.mpr h.finish_eq) h.noFault

theorem Archived.opened : e.ac = encodeOpened s.ac ∧ e.params = s.params := by
  obtain ⟨hfault, hmode⟩ := h.encodeReady
  exact ac_eq_of_exec_acEncInit hfault hmode h.open_eq
    (ac_fault_eq_zero_of_execAll isReset_encodeSymbols h.encode_eq h.fault_finish)

theorem Archived.encodeOk : EncodeOk 0 e.ac := h.opened.1 ▸ encodeOk_encodeOpened h.encodeReady.1

theorem Archived.coded : EncodeOk xs.length m.ac ∧ m.params = s.params := by
  obtain ⟨hok, hparams, -⟩ := encodeSymbols_spec h.encodeOk h.encode_eq h.fault_finish
  rw [Nat.zero_add] at hok
  exact ⟨hok, hparams.trans h.opened.2⟩

/-- What is left to the decoder after the last symbol. -/
theorem Archived.tracks :
    Tracks (abit u.ac.ibuf) (emitted m.ac) m.ac.pending.toNat (finishValue m.ac.low.toNat s.params.acFlushExtra) := by
  obtain ⟨hok, hparams⟩ := h.coded
  obtain ⟨-, -, hstream⟩ := archive_spec hok h.finish_eq h.noFault
  rw [h.archive, hstream, hparams]
  exact tracks_finish ..

/-- The decode opens. -/
theorem Archived.decode_open :
    exec (.acDecInit 0 0) u = .next (acAnswered u (decodeOpened u.ac) [⟨.ok, BitVec.ofNat 64 xs.length⟩]) ∧
      DecodeOk xs.length (decodeOpened u.ac) ∧ Follows (abit u.ac.ibuf) e.ac (decodeOpened u.ac) ∧
      TablesAgree xs e.ac (decodeOpened u.ac) := by
  obtain ⟨hok, -⟩ := h.coded
  obtain ⟨hlen, hheader, -⟩ := archive_spec hok h.finish_eq h.noFault
  rw [← h.archive] at hlen hheader
  obtain ⟨hfault, hmode⟩ := h.decodeReady
  have hinit := exec_acDecInit_eq hfault hmode hlen
  rw [hheader] at hinit
  refine ⟨hinit, decodeOk_decodeOpened hfault h.length hheader, ?_, ?_⟩
  · rw [h.opened.1]
    exact follows_opened ..
  · rw [h.opened.1]
    exact h.tables

/-- Where the finish bits leave the value in the interval (R182). -/
theorem Archived.inside (hfinish : s.params.acFlushExtra = 1 ∨ xs = [] ∨ m.ac.low = 0 ∨ 2 ^ 62 ≤ m.ac.low.toNat) :
    CodeInside (abit u.ac.ibuf) m.ac := by
  obtain ⟨hok, -⟩ := h.coded
  refine h.tracks.inside_iff.mpr (finishValue_mem hok.interval (hfinish.imp_right fun hlow => ?_))
  obtain rfl | hzero | hge := hlow
  · obtain rfl := Host.Outcome.next.inj h.encode_eq
    rw [h.opened.1]
    exact .inl rfl
  · rw [hzero]
    exact .inl rfl
  · exact .inr hge

/-- The first symbols come back, and both sides have the same interval after them. -/
theorem Archived.decode_first {first rest : List TabledSymbol} (hxs : xs = first ++ rest)
    (hinside : CodeInside (abit u.ac.ibuf) m.ac) :
    ∃ (e' : State) (c : AcState), execAll (first.flatMap encodeSymbol) e = .next e' ∧
      execAll (.acDecInit 0 0 :: first.flatMap decodeSymbol) u =
        .next (acAnswered u c (streamAnswers first ++ [⟨.ok, BitVec.ofNat 64 xs.length⟩])) ∧
      DecodeOk rest.length c ∧ c.low = e'.ac.low ∧ c.high = e'.ac.high := by
  obtain ⟨hinit, hdec, hfollows, htables⟩ := h.decode_open
  have hencode := h.encode_eq
  rw [hxs, List.flatMap_append] at hencode
  obtain ⟨e', he', hrest⟩ := execAll_append_eq_next hencode
  have hzero := ac_fault_eq_zero_of_execAll isReset_encodeSymbols hrest h.fault_finish
  obtain ⟨hok, -⟩ := encodeSymbols_spec h.encodeOk he' hzero
  obtain ⟨-, -, hback⟩ := encodeSymbols_spec hok hrest h.fault_finish
  have hdec' : DecodeOk (rest.length + first.length) (decodeOpened u.ac) := by
    rwa [hxs, List.length_append, add_comm] at hdec
  have htables' : TablesAgree first e.ac (decodeOpened u.ac) :=
    htables.imp_right fun hall x hx => hall x (hxs ▸ List.mem_append_left _ hx)
  obtain ⟨c, rs, hrun, hend, hmatch⟩ := exists_decodeSymbols (d := acAnswered u (decodeOpened u.ac) _) h.encodeOk he' hzero
    hdec' htables'
  obtain ⟨rfl, hf⟩ := hmatch hfollows (.inl (hback _ hinside))
  refine ⟨e', c, he', ?_, hend, hf.low, hf.high⟩
  rw [execAll_cons_of_next hinit, hrun, acAnswered_acAnswered]

/-- All symbols come back, and then the end marker. -/
theorem Archived.decode_all (hinside : CodeInside (abit u.ac.ibuf) m.ac) :
    ∃ v : State, execAll (.acDecInit 0 0 :: xs.flatMap decodeSymbol ++ [.acDecSym 0 0]) u = .next v ∧ v.ac.fault = 0 ∧
      v.ac.mode = .dec ∧ v.ac.remain = 0 ∧
      v.responses = ⟨.ok, 0x100⟩ :: (streamAnswers xs ++ [⟨.ok, BitVec.ofNat 64 xs.length⟩]) ++ u.responses := by
  obtain ⟨-, c, -, hrun, hend, -, -⟩ := h.decode_first (List.append_nil xs).symm hinside
  have hremain : c.remain = 0 := BitVec.eq_of_toNat_eq hend.remain
  have hmarker := endMarkerChangesNothing.2
    (acAnswered u c (streamAnswers xs ++ [⟨.ok, BitVec.ofNat 64 xs.length⟩])) hend.fault hend.mode hremain
  exact ⟨_, (execAll_append hrun).trans (execAll_singleton.mpr hmarker), hend.fault, hend.mode, hremain, rfl⟩

/-- With `AC_FLUSH_EXTRA = 0` and an `A_LOW` between 0 and `QUARTER` at the finish, the value is 0 after the last symbol,
below the interval: an answer differs (R182). -/
theorem Archived.decode_differs (hextra : s.params.acFlushExtra = 0) (hpos : 0 < m.ac.low.toNat)
    (hlt : m.ac.low.toNat < 2 ^ 62) :
    ∃ d : State, execAll (.acDecInit 0 0 :: xs.flatMap decodeSymbol) u = .next d ∧ d.ac.fault = 0 ∧
      d.responses ≠ streamAnswers xs ++ [⟨.ok, BitVec.ofNat 64 xs.length⟩] ++ u.responses := by
  obtain ⟨hinit, hdec, hfollows, htables⟩ := h.decode_open
  rw [← Nat.zero_add xs.length] at hdec
  obtain ⟨c, rs, hrun, hend, hmatch⟩ := exists_decodeSymbols (d := acAnswered u (decodeOpened u.ac) _) h.encodeOk h.encode_eq
    h.fault_finish hdec htables
  rw [acAnswered_acAnswered] at hrun
  refine ⟨_, (execAll_cons_of_next hinit).trans hrun, hend.fault, fun heq => ?_⟩
  obtain ⟨hrs, -⟩ := List.append_inj' (List.append_cancel_right heq) rfl
  obtain ⟨-, hf⟩ := hmatch hfollows (.inr hrs)
  have hvalue : c.value.toNat = 0 := by
    have htracks := h.tracks
    rw [hextra, finishValue_of_lt hlt] at htracks
    exact Nat.add_left_cancel (hf.tracks.trans htracks.symm)
  have hlow := hend.low_le
  rw [hf.low, hvalue] at hlow
  omega

end RoundTrip

/-! ### A table for each symbol -/

/-- A symbol with its own table. -/
def ownTable (x : Vector (BitVec 32) 256 × Byte) : TabledSymbol := (some x.1, x.2)

theorem encodeCommands_eq (ms : List (Vector (BitVec 32) 256 × Byte)) :
    encodeCommands ms = .acEncInit 0 0 :: (ms.map ownTable).flatMap encodeSymbol := by
  rw [encodeCommands, List.flatMap_map]
  rfl

theorem decodeCommands_eq (ms : List (Vector (BitVec 32) 256 × Byte)) :
    decodeCommands ms = .acDecInit 0 0 :: (ms.map ownTable).flatMap decodeSymbol := by
  rw [decodeCommands, List.flatMap_map]
  rfl

theorem decodeAnswers_eq (n : Nat) (ms : List (Vector (BitVec 32) 256 × Byte)) :
    decodeAnswers n ms = streamAnswers (ms.map ownTable) ++ [⟨.ok, BitVec.ofNat 64 n⟩] := by
  have hflat : (ms.flatMap fun m => List.replicate 257 (⟨.ok, 0⟩ : Response) ++ [⟨.ok, m.2.setWidth 64⟩]).reverse =
      streamAnswers (ms.map ownTable) := by
    induction ms with
    | nil => rfl
    | cons x ms ih =>
      rw [List.flatMap_cons, List.reverse_append, ih, List.reverse_append, List.reverse_replicate]
      rfl
  rw [decodeAnswers]
  dsimp only
  rw [List.reverse_append, hflat]
  rfl

/-- Settles O60: the finish bits put the stream into the last interval, so into every interval before it, and the decoder's
value, which tracks the stream, into the sub-interval of every coded symbol. -/
theorem arithmeticRoundTripWithTables : Obligations.ArithmeticRoundTripWithTables := by
  intro s m t u ms hfault hmode hlen hencode hfinish ht hufault humode hibuf
  rw [encodeCommands_eq] at hencode
  obtain ⟨e, he, hrun⟩ := execAll_append_eq_next (is := [.acEncInit 0 0]) hencode
  have hinit := execAll_singleton.mp he
  have h : Archived (ms.map ownTable) s e m t u :=
    ⟨⟨hfault, hmode⟩, by rwa [List.length_map], hinit, hrun, hfinish, ht, ⟨hufault, humode⟩, hibuf, .inr fun x hx => by
      obtain ⟨y, -, rfl⟩ := List.mem_map.mp hx
      nofun⟩
  refine ⟨fun hcond => ?_, fun hextra hpos hlt => ?_⟩
  · have hinside := h.inside (hcond.imp_right (Or.imp_left fun hnil => by rw [hnil]; rfl))
    refine ⟨fun first rest hms => ?_, ?_⟩
    · obtain ⟨e', c, he', hrun', hend, hlow, hhigh⟩ :=
        h.decode_first (first := first.map ownTable) (rest := rest.map ownTable) (by rw [hms, List.map_append]) hinside
      rw [List.length_map, ← decodeAnswers_eq] at hrun'
      refine ⟨e', acAnswered u c (decodeAnswers ms.length first), ?_, ?_, hend.fault, hlow, hhigh, rfl⟩
      · rw [encodeCommands_eq, execAll_cons_of_next hinit, he']
      · rw [decodeCommands_eq, hrun']
    · obtain ⟨v, hv, hvfault, hvmode, -, hresponses⟩ := h.decode_all hinside
      rw [List.length_map, ← decodeAnswers_eq] at hresponses
      exact ⟨v, by rw [decodeCommands_eq, hv], hvfault, hvmode, hresponses⟩
  · obtain ⟨d, hd, hdfault, hne⟩ := h.decode_differs hextra hpos hlt
    rw [List.length_map, ← decodeAnswers_eq] at hne
    exact ⟨d, by rw [decodeCommands_eq, hd], hdfault, hne⟩

/-! ### One fixed table -/

/-- A symbol coded with the table that is there. -/
def fixedTable (b : Byte) : TabledSymbol := (none, b)

theorem flatMap_encodeSymbol_fixedTable (bs : List Byte) :
    (bs.map fixedTable).flatMap encodeSymbol = bs.map fun b => .acEncSym b 0 := by
  rw [List.flatMap_map]
  exact List.flatMap_pure_eq_map ..

theorem flatMap_decodeSymbol_fixedTable (bs : List Byte) :
    (bs.map fixedTable).flatMap decodeSymbol = List.replicate bs.length (.acDecSym 0 0) := by
  induction bs with
  | nil => rfl
  | cons b bs ih =>
    rw [List.map_cons, List.flatMap_cons, ih, List.length_cons, List.replicate_succ]
    rfl

theorem streamAnswers_fixedTable (bs : List Byte) :
    streamAnswers (bs.map fixedTable) = (bs.map fun b => (⟨.ok, b.setWidth 64⟩ : Response)).reverse := by
  induction bs with
  | nil => rfl
  | cons b bs ih =>
    rw [List.map_cons, streamAnswers, ih, List.map_cons, List.reverse_cons]
    rfl

/-- Settles O54: the round trip with no table presented, both sides having the same one. -/
theorem arithmeticRoundTrip : Obligations.ArithmeticRoundTrip := by
  intro s t u bs hfault hmode _ hextra hlen hencode ht hufault humode hcnt htotal hibuf
  obtain ⟨m, hm, hfinish⟩ := execAll_append_eq_next hencode
  obtain ⟨e, he, hrun⟩ := execAll_append_eq_next hm
  rw [← flatMap_encodeSymbol_fixedTable] at hrun
  have h : Archived (bs.map fixedTable) s e m t u :=
    ⟨⟨hfault, hmode⟩, by rwa [List.length_map], execAll_singleton.mp he, hrun, execAll_singleton.mp hfinish, ht,
      ⟨hufault, humode⟩, hibuf, .inl ⟨hcnt, htotal⟩⟩
  obtain ⟨v, hv, hvfault, hvmode, hvremain, hresponses⟩ := h.decode_all (h.inside (.inl hextra))
  rw [flatMap_decodeSymbol_fixedTable, List.cons_append, ← List.replicate_succ'] at hv
  rw [streamAnswers_fixedTable, List.length_map] at hresponses
  refine ⟨v, hv, hvfault, hvmode, hvremain, hresponses.trans ?_⟩
  simp only [List.cons_append, List.nil_append, List.append_assoc]

end Sys2Proof.Proofs
